-- ==== Sys2Proof/Word.lean ====
section
/-! DEFINITION. The word types of the CORE (00_scope.md R8, R10): bytes, 16-bit words, 2-bit shades, 32-bit pixels. -/

namespace Sys2Proof

/-- `u8` of R10: the addressable unit and the width of a general register (R8). -/
abbrev Byte := BitVec 8

/-- `u16` of R10: register pairs, PC, SP and addresses (R8). -/
abbrev Word := BitVec 16

/-- A shade number 0 to 3, or a colour index 0 to 3 (61_ppu.md R391, R394). -/
abbrev Shade := BitVec 2

/-- A 32-bit RGBA pixel, four bytes R, G, B, A (61_ppu.md R399). The rule gives no order of significance: R in the top byte and A in
the lowest is a DESIGN CHOICE (log 24). -/
abbrev Rgba := BitVec 32

end Sys2Proof
end

