-- ==== Sys2Proof/Syntax.lean ====
section
/-! DEFINITION. The instructions: one constructor for each instruction of spec/opcode_table.json, operands already decoded
(30_encoding.md R106). The order is the table's. -/

namespace Sys2Proof

/-- An 8-bit register operand: the 3-bit codes of R24 other than 6. -/
inductive Reg8 where
  | b | c | d | e | h | l | a
  deriving DecidableEq, Repr

/-- `rr`: the pairs of `r16` (R26), where code 3 is SP. -/
inductive Reg16 where
  | bc | de | hl | sp
  deriving DecidableEq, Repr

/-- `qq` without AF: the pairs of `r16stk` (R25) that `PUSH rr` and `POP rr` name (R164, R166). -/
inductive StkReg where
  | bc | de | hl
  deriving DecidableEq, Repr

/-- `cc`: the four conditions (R106, R260). -/
inductive Cond where
  | nz | z | nc | c
  deriving DecidableEq, Repr

/-- The eleven unassigned first-byte values (R112). -/
inductive Unassigned where
  | xD3 | xDB | xDD | xE3 | xE4 | xEB | xEC | xED | xF4 | xFC | xFD
  deriving DecidableEq, Repr

/-- The instruction set. `n` is an unsigned immediate byte, `e` a displacement byte, `nn` a 16-bit immediate (R104);
`b` is a bit number and `t` a restart number, its target being `8 * t` (R106, R271). `AtHl` names the byte at HL. -/
inductive Instr where
  -- rows on the first-byte page, by lowest opcode
  | nop
  | ldRrNn (rr : Reg16) (nn : Word)
  | ldBcA
  | incRr (rr : Reg16)
  | incR (r : Reg8)
  | decR (r : Reg8)
  | ldRN (r : Reg8) (n : Byte)
  | rlca
  | ldNnSp (nn : Word)
  | addHlRr (rr : Reg16)
  | ldABc
  | decRr (rr : Reg16)
  | rrca
  | stop (n : Byte)
  | ldDeA
  | rla
  | jrE (e : Byte)
  | ldADe
  | rra
  | jrCcE (cc : Cond) (e : Byte)
  | ldHlIncA
  | daa
  | ldAHlInc
  | cpl
  | ldHlDecA
  | incAtHl
  | decAtHl
  | ldAtHlN (n : Byte)
  | scf
  | ldAHlDec
  | ccf
  | ldRR (r r' : Reg8)
  | ldRAtHl (r : Reg8)
  | ldAtHlR (r : Reg8)
  | halt
  | addAR (r : Reg8)
  | addAAtHl
  | adcAR (r : Reg8)
  | adcAAtHl
  | subR (r : Reg8)
  | subAtHl
  | sbcAR (r : Reg8)
  | sbcAAtHl
  | andR (r : Reg8)
  | andAtHl
  | xorR (r : Reg8)
  | xorAtHl
  | orR (r : Reg8)
  | orAtHl
  | cpR (r : Reg8)
  | cpAtHl
  | retCc (cc : Cond)
  | popRr (qq : StkReg)
  | jpCcNn (cc : Cond) (nn : Word)
  | jpNn (nn : Word)
  | callCcNn (cc : Cond) (nn : Word)
  | pushRr (qq : StkReg)
  | addAN (n : Byte)
  | rstT (t : Fin 8)
  | ret
  /-- `PREFIX CB`: the prefix with its second byte `op2`, before the second-level decode. R285: "It is not an
  instruction"; the decoder answers the instruction `op2` selects, so this term is not well formed (log 12). -/
  | prefixCb (op2 : Byte)
  | callNn (nn : Word)
  | adcAN (n : Byte)
  | illegal (op : Unassigned)
  | subN (n : Byte)
  | reti
  | sbcAN (n : Byte)
  | ldhNA (n : Byte)
  | ldhCA
  | andN (n : Byte)
  | addSpE (e : Byte)
  | jpHl
  | ldNnA (nn : Word)
  | xorN (n : Byte)
  | ldhAN (n : Byte)
  | popAf
  | ldhAC
  | di
  | pushAf
  | orN (n : Byte)
  | ldHlSpE (e : Byte)
  | ldSpHl
  | ldANn (nn : Word)
  | ei
  | cpN (n : Byte)
  -- rows on the 0xCB page
  | rlcR (r : Reg8)
  | rlcAtHl
  | rrcR (r : Reg8)
  | rrcAtHl
  | rlR (r : Reg8)
  | rlAtHl
  | rrR (r : Reg8)
  | rrAtHl
  | slaR (r : Reg8)
  | slaAtHl
  | sraR (r : Reg8)
  | sraAtHl
  | swapR (r : Reg8)
  | swapAtHl
  | srlR (r : Reg8)
  | srlAtHl
  | bitBR (b : Fin 8) (r : Reg8)
  | bitBAtHl (b : Fin 8)
  | resBR (b : Fin 8) (r : Reg8)
  | resBAtHl (b : Fin 8)
  | setBR (b : Fin 8) (r : Reg8)
  | setBAtHl (b : Fin 8)
  deriving DecidableEq, Repr

end Sys2Proof
end

