-- ==== Sys2Proof/WellFormed.lean ====
section
/-! DEFINITION. Well-formedness. The operand types admit exactly the codes the encoding has (R27: an out-of-range code "does
not exist"), so one check is left: the prefix alone is not an instruction (46_system.md R285). -/

namespace Sys2Proof

/-- Whether the term is the bare 0xCB prefix, which R285 says "is not an instruction". -/
def Instr.isBarePrefix : Instr → Bool
  | .prefixCb _ => true
  | _ => false

/-- A term the decoder can answer: everything but the bare prefix. -/
def Instr.wellFormed (i : Instr) : Bool := !i.isBarePrefix

end Sys2Proof
end

