-- ==== Sys2Proof/Decode.lean ====
section
/-! DEFINITION. Decoding (30_encoding.md R100 to R112, R118), total on any bytes, and after it the encoder, written from the
same encoding tables. The only rejections are of a byte list that ends before its instruction does: every first byte and
every 0xCB-page byte selects an instruction (R117), the eleven unassigned ones the instruction `ILLEGAL` (R286). -/

namespace Sys2Proof

/-! ## Fields of an opcode byte (R101) -/

def opX (op : Byte) : BitVec 2 := op.extractLsb' 6 2
def opY (op : Byte) : BitVec 3 := op.extractLsb' 3 3
def opZ (op : Byte) : BitVec 3 := op.extractLsb' 0 3
def opP (op : Byte) : BitVec 2 := op.extractLsb' 4 2
def opQ (op : Byte) : Bool := op.getLsbD 3

/-- `nn = nn_hi ++ nn_lo`: the byte at the lower address is bits 7:0 (R104). -/
def immWord (lo hi : Byte) : Word := hi ++ lo

/-! ## Operand codes -/

/-- The 3-bit operand code (R24); code 6, the byte at HL, is `none`. -/
def reg8OfCode (c : BitVec 3) : Option Reg8 :=
  match c with
  | 0 => some .b
  | 1 => some .c
  | 2 => some .d
  | 3 => some .e
  | 4 => some .h
  | 5 => some .l
  | 6 => none
  | _ => some .a

/-- The pair code of `r16` (R26). -/
def reg16OfCode (p : BitVec 2) : Reg16 :=
  match p with
  | 0 => .bc
  | 1 => .de
  | 2 => .hl
  | _ => .sp

/-- The pair code of `r16stk` (R25); code 3, AF, is `none`. -/
def stkRegOfCode (p : BitVec 2) : Option StkReg :=
  match p with
  | 0 => some .bc
  | 1 => some .de
  | 2 => some .hl
  | _ => none

/-- `cc` by the low two bits of `y` (R106, R260). -/
def condOfCode (y : BitVec 3) : Cond :=
  match y.extractLsb' 0 2 with
  | 0 => .nz
  | 1 => .z
  | 2 => .nc
  | _ => .c

/-- A 3-bit field as a bit number (R111) or a restart number (R106). -/
def indexOfCode (y : BitVec 3) : Fin 8 := y.toFin

/-! ## The first-byte page -/

/-- Group `x = 0` (R107). `n1` and `n2` are the bytes after the opcode. -/
def decodeGroup0 (op n1 n2 : Byte) : Instr :=
  let y := opY op
  let rr := reg16OfCode (opP op)
  match opZ op with
  | 0 =>
    match y with
    | 0 => .nop
    | 1 => .ldNnSp (immWord n1 n2)
    | 2 => .stop n1
    | 3 => .jrE n1
    | _ => .jrCcE (condOfCode y) n1
  | 1 => if opQ op then .addHlRr rr else .ldRrNn rr (immWord n1 n2)
  | 2 =>
    match y with
    | 0 => .ldBcA
    | 1 => .ldABc
    | 2 => .ldDeA
    | 3 => .ldADe
    | 4 => .ldHlIncA
    | 5 => .ldAHlInc
    | 6 => .ldHlDecA
    | _ => .ldAHlDec
  | 3 => if opQ op then .decRr rr else .incRr rr
  | 4 => match reg8OfCode y with
    | some r => .incR r
    | none => .incAtHl
  | 5 => match reg8OfCode y with
    | some r => .decR r
    | none => .decAtHl
  | 6 => match reg8OfCode y with
    | some r => .ldRN r n1
    | none => .ldAtHlN n1
  | _ =>
    match y with
    | 0 => .rlca
    | 1 => .rrca
    | 2 => .rla
    | 3 => .rra
    | 4 => .daa
    | 5 => .cpl
    | 6 => .scf
    | _ => .ccf

/-- Group `x = 1`, the load group (R108). -/
def decodeGroup1 (op : Byte) : Instr :=
  match reg8OfCode (opY op), reg8OfCode (opZ op) with
  | some r, some r' => .ldRR r r'
  | some r, none => .ldRAtHl r
  | none, some r => .ldAtHlR r
  | none, none => .halt

/-- Group `x = 2`, the ALU group (R109). -/
def decodeGroup2 (op : Byte) : Instr :=
  match reg8OfCode (opZ op) with
  | some r =>
    match opY op with
    | 0 => .addAR r
    | 1 => .adcAR r
    | 2 => .subR r
    | 3 => .sbcAR r
    | 4 => .andR r
    | 5 => .xorR r
    | 6 => .orR r
    | _ => .cpR r
  | none =>
    match opY op with
    | 0 => .addAAtHl
    | 1 => .adcAAtHl
    | 2 => .subAtHl
    | 3 => .sbcAAtHl
    | 4 => .andAtHl
    | 5 => .xorAtHl
    | 6 => .orAtHl
    | _ => .cpAtHl

/-- The 0xCB page (R111): all 256 values of `op2` are assigned. -/
def decodeCbPage (op2 : Byte) : Instr :=
  let b := indexOfCode (opY op2)
  match reg8OfCode (opZ op2) with
  | some r =>
    match opX op2 with
    | 0 =>
      match opY op2 with
      | 0 => .rlcR r
      | 1 => .rrcR r
      | 2 => .rlR r
      | 3 => .rrR r
      | 4 => .slaR r
      | 5 => .sraR r
      | 6 => .swapR r
      | _ => .srlR r
    | 1 => .bitBR b r
    | 2 => .resBR b r
    | _ => .setBR b r
  | none =>
    match opX op2 with
    | 0 =>
      match opY op2 with
      | 0 => .rlcAtHl
      | 1 => .rrcAtHl
      | 2 => .rlAtHl
      | 3 => .rrAtHl
      | 4 => .slaAtHl
      | 5 => .sraAtHl
      | 6 => .swapAtHl
      | _ => .srlAtHl
    | 1 => .bitBAtHl b
    | 2 => .resBAtHl b
    | _ => .setBAtHl b

/-- Group `x = 3` (R110), the unassigned values among it (R112). -/
def decodeGroup3 (op n1 n2 : Byte) : Instr :=
  let y := opY op
  let nn := immWord n1 n2
  match opZ op with
  | 0 =>
    match y with
    | 4 => .ldhNA n1
    | 5 => .addSpE n1
    | 6 => .ldhAN n1
    | 7 => .ldHlSpE n1
    | _ => .retCc (condOfCode y)
  | 1 =>
    if opQ op then
      match opP op with
      | 0 => .ret
      | 1 => .reti
      | 2 => .jpHl
      | _ => .ldSpHl
    else
      match stkRegOfCode (opP op) with
      | some qq => .popRr qq
      | none => .popAf
  | 2 =>
    match y with
    | 4 => .ldhCA
    | 5 => .ldNnA nn
    | 6 => .ldhAC
    | 7 => .ldANn nn
    | _ => .jpCcNn (condOfCode y) nn
  | 3 =>
    match y with
    | 0 => .jpNn nn
    | 1 => decodeCbPage n1
    | 2 => .illegal .xD3
    | 3 => .illegal .xDB
    | 4 => .illegal .xE3
    | 5 => .illegal .xEB
    | 6 => .di
    | _ => .ei
  | 4 =>
    match y with
    | 4 => .illegal .xE4
    | 5 => .illegal .xEC
    | 6 => .illegal .xF4
    | 7 => .illegal .xFC
    | _ => .callCcNn (condOfCode y) nn
  | 5 =>
    if opQ op then
      match opP op with
      | 0 => .callNn nn
      | 1 => .illegal .xDD
      | 2 => .illegal .xED
      | _ => .illegal .xFD
    else
      match stkRegOfCode (opP op) with
      | some qq => .pushRr qq
      | none => .pushAf
  | 6 =>
    match y with
    | 0 => .addAN n1
    | 1 => .adcAN n1
    | 2 => .subN n1
    | 3 => .sbcAN n1
    | 4 => .andN n1
    | 5 => .xorN n1
    | 6 => .orN n1
    | _ => .cpN n1
  | _ => .rstT (indexOfCode y)

/-- The instruction whose first byte is `op`, followed by `n1` and `n2`; bytes past its length are not looked at
(R102, R118). -/
def decodeBytes (op n1 n2 : Byte) : Instr :=
  match opX op with
  | 0 => decodeGroup0 op n1 n2
  | 1 => decodeGroup1 op
  | 2 => decodeGroup2 op
  | _ => decodeGroup3 op n1 n2

/-- The length in bytes (R103, R105), the prefix byte counted (R100); an unassigned opcode has length 1 (R105). -/
def Instr.length : Instr → Nat
  | .ldRrNn _ _ | .ldNnSp _ | .jpCcNn _ _ | .jpNn _ | .callCcNn _ _ | .callNn _ | .ldNnA _ | .ldANn _ => 3
  | .stop _ | .jrE _ | .jrCcE _ _ | .ldRN _ _ | .ldAtHlN _ | .addAN _ | .adcAN _ | .subN _ | .sbcAN _ | .andN _ | .xorN _
  | .orN _ | .cpN _ | .ldhNA _ | .ldhAN _ | .addSpE _ | .ldHlSpE _ => 2
  | .prefixCb _ | .rlcR _ | .rlcAtHl | .rrcR _ | .rrcAtHl | .rlR _ | .rlAtHl | .rrR _ | .rrAtHl | .slaR _ | .slaAtHl
  | .sraR _ | .sraAtHl | .swapR _ | .swapAtHl | .srlR _ | .srlAtHl | .bitBR _ _ | .bitBAtHl _ | .resBR _ _ | .resBAtHl _
  | .setBR _ _ | .setBAtHl _ => 2
  | .nop | .ldBcA | .incRr _ | .incR _ | .decR _ | .rlca | .addHlRr _ | .ldABc | .decRr _ | .rrca | .ldDeA | .rla | .ldADe
  | .rra | .ldHlIncA | .daa | .ldAHlInc | .cpl | .ldHlDecA | .incAtHl | .decAtHl | .scf | .ldAHlDec | .ccf | .ldRR _ _
  | .ldRAtHl _ | .ldAtHlR _ | .halt | .addAR _ | .addAAtHl | .adcAR _ | .adcAAtHl | .subR _ | .subAtHl | .sbcAR _
  | .sbcAAtHl | .andR _ | .andAtHl | .xorR _ | .xorAtHl | .orR _ | .orAtHl | .cpR _ | .cpAtHl | .retCc _ | .popRr _
  | .pushRr _ | .rstT _ | .ret | .illegal _ | .reti | .ldhCA | .jpHl | .popAf | .ldhAC | .di | .pushAf | .ldSpHl | .ei => 1

/-- Why a byte list is no instruction. -/
inductive DecodeReject where
  /-- The list is empty. -/
  | noBytes
  /-- The list ends before the instruction its first byte begins. -/
  | truncated
  deriving DecidableEq, Repr

/-- Decode the instruction at the head of a byte list and answer it with the bytes after it (R118). -/
def decode : List Byte → Except DecodeReject (Instr × List Byte)
  | [] => .error .noBytes
  | op :: rest =>
    let i := decodeBytes op (rest.getD 0 0) (rest.getD 1 0)
    if i.length ≤ rest.length + 1 then .ok (i, rest.drop (i.length - 1)) else .error .truncated

/-! ## The encoder -/

/-- The 3-bit code of a register (R24). -/
def reg8Code : Reg8 → BitVec 3
  | .b => 0 | .c => 1 | .d => 2 | .e => 3 | .h => 4 | .l => 5 | .a => 7

/-- The code that stands for the byte at HL (R24). -/
def atHlCode : BitVec 3 := 6

/-- The pair code of `r16` (R26). -/
def reg16Code : Reg16 → BitVec 2
  | .bc => 0 | .de => 1 | .hl => 2 | .sp => 3

/-- The pair code of `r16stk` (R25). -/
def stkRegCode : StkReg → BitVec 2
  | .bc => 0 | .de => 1 | .hl => 2

/-- The condition code (R106). -/
def condCode : Cond → BitVec 2
  | .nz => 0 | .z => 1 | .nc => 2 | .c => 3

/-- The byte of an unassigned opcode (R112). -/
def unassignedByte : Unassigned → Byte
  | .xD3 => 0xD3 | .xDB => 0xDB | .xDD => 0xDD | .xE3 => 0xE3 | .xE4 => 0xE4 | .xEB => 0xEB | .xEC => 0xEC | .xED => 0xED
  | .xF4 => 0xF4 | .xFC => 0xFC | .xFD => 0xFD

/-- An opcode byte from `x`, `y`, `z` (R101). -/
def opXYZ (x : BitVec 2) (y z : BitVec 3) : Byte := x ++ y ++ z

/-- An opcode byte from `x`, `p`, `q`, `z` (R101). -/
def opXPQZ (x p : BitVec 2) (q : Bool) (z : BitVec 3) : Byte := x ++ p ++ BitVec.ofBool q ++ z

/-- An opcode byte whose `y` is `w` above a condition code (R106: `cc = op[4:3]`). -/
def opCc (x : BitVec 2) (w : BitVec 1) (cc : Cond) (z : BitVec 3) : Byte := x ++ w ++ condCode cc ++ z

/-- The two immediate bytes of `nn`, low byte first (R104). -/
def wordBytes (nn : Word) : List Byte := [nn.extractLsb' 0 8, nn.extractLsb' 8 8]

/-- A 0xCB-page instruction: the prefix byte and `op2` (R103, R111). -/
def cbBytes (x : BitVec 2) (y z : BitVec 3) : List Byte := [0xCB, opXYZ x y z]

/-- A bit number as a 3-bit field (R111). -/
def indexCode (b : Fin 8) : BitVec 3 := BitVec.ofFin b

/-- The bytes of an instruction (R103, R107 to R112). -/
def encode : Instr → List Byte
  | .nop => [0x00]
  | .ldRrNn rr nn => opXPQZ 0 (reg16Code rr) false 1 :: wordBytes nn
  | .ldBcA => [0x02]
  | .incRr rr => [opXPQZ 0 (reg16Code rr) false 3]
  | .incR r => [opXYZ 0 (reg8Code r) 4]
  | .decR r => [opXYZ 0 (reg8Code r) 5]
  | .ldRN r n => [opXYZ 0 (reg8Code r) 6, n]
  | .rlca => [0x07]
  | .ldNnSp nn => 0x08 :: wordBytes nn
  | .addHlRr rr => [opXPQZ 0 (reg16Code rr) true 1]
  | .ldABc => [0x0A]
  | .decRr rr => [opXPQZ 0 (reg16Code rr) true 3]
  | .rrca => [0x0F]
  | .stop n => [0x10, n]
  | .ldDeA => [0x12]
  | .rla => [0x17]
  | .jrE e => [0x18, e]
  | .ldADe => [0x1A]
  | .rra => [0x1F]
  | .jrCcE cc e => [opCc 0 1 cc 0, e]
  | .ldHlIncA => [0x22]
  | .daa => [0x27]
  | .ldAHlInc => [0x2A]
  | .cpl => [0x2F]
  | .ldHlDecA => [0x32]
  | .incAtHl => [0x34]
  | .decAtHl => [0x35]
  | .ldAtHlN n => [0x36, n]
  | .scf => [0x37]
  | .ldAHlDec => [0x3A]
  | .ccf => [0x3F]
  | .ldRR r r' => [opXYZ 1 (reg8Code r) (reg8Code r')]
  | .ldRAtHl r => [opXYZ 1 (reg8Code r) atHlCode]
  | .ldAtHlR r => [opXYZ 1 atHlCode (reg8Code r)]
  | .halt => [0x76]
  | .addAR r => [opXYZ 2 0 (reg8Code r)]
  | .addAAtHl => [opXYZ 2 0 atHlCode]
  | .adcAR r => [opXYZ 2 1 (reg8Code r)]
  | .adcAAtHl => [opXYZ 2 1 atHlCode]
  | .subR r => [opXYZ 2 2 (reg8Code r)]
  | .subAtHl => [opXYZ 2 2 atHlCode]
  | .sbcAR r => [opXYZ 2 3 (reg8Code r)]
  | .sbcAAtHl => [opXYZ 2 3 atHlCode]
  | .andR r => [opXYZ 2 4 (reg8Code r)]
  | .andAtHl => [opXYZ 2 4 atHlCode]
  | .xorR r => [opXYZ 2 5 (reg8Code r)]
  | .xorAtHl => [opXYZ 2 5 atHlCode]
  | .orR r => [opXYZ 2 6 (reg8Code r)]
  | .orAtHl => [opXYZ 2 6 atHlCode]
  | .cpR r => [opXYZ 2 7 (reg8Code r)]
  | .cpAtHl => [opXYZ 2 7 atHlCode]
  | .retCc cc => [opCc 3 0 cc 0]
  | .popRr qq => [opXPQZ 3 (stkRegCode qq) false 1]
  | .jpCcNn cc nn => opCc 3 0 cc 2 :: wordBytes nn
  | .jpNn nn => 0xC3 :: wordBytes nn
  | .callCcNn cc nn => opCc 3 0 cc 4 :: wordBytes nn
  | .pushRr qq => [opXPQZ 3 (stkRegCode qq) false 5]
  | .addAN n => [opXYZ 3 0 6, n]
  | .rstT t => [opXYZ 3 (indexCode t) 7]
  | .ret => [0xC9]
  | .prefixCb op2 => [0xCB, op2]
  | .callNn nn => 0xCD :: wordBytes nn
  | .adcAN n => [opXYZ 3 1 6, n]
  | .illegal op => [unassignedByte op]
  | .subN n => [opXYZ 3 2 6, n]
  | .reti => [0xD9]
  | .sbcAN n => [opXYZ 3 3 6, n]
  | .ldhNA n => [0xE0, n]
  | .ldhCA => [0xE2]
  | .andN n => [opXYZ 3 4 6, n]
  | .addSpE e => [0xE8, e]
  | .jpHl => [0xE9]
  | .ldNnA nn => 0xEA :: wordBytes nn
  | .xorN n => [opXYZ 3 5 6, n]
  | .ldhAN n => [0xF0, n]
  | .popAf => [0xF1]
  | .ldhAC => [0xF2]
  | .di => [0xF3]
  | .pushAf => [0xF5]
  | .orN n => [opXYZ 3 6 6, n]
  | .ldHlSpE e => [0xF8, e]
  | .ldSpHl => [0xF9]
  | .ldANn nn => 0xFA :: wordBytes nn
  | .ei => [0xFB]
  | .cpN n => [opXYZ 3 7 6, n]
  | .rlcR r => cbBytes 0 0 (reg8Code r)
  | .rlcAtHl => cbBytes 0 0 atHlCode
  | .rrcR r => cbBytes 0 1 (reg8Code r)
  | .rrcAtHl => cbBytes 0 1 atHlCode
  | .rlR r => cbBytes 0 2 (reg8Code r)
  | .rlAtHl => cbBytes 0 2 atHlCode
  | .rrR r => cbBytes 0 3 (reg8Code r)
  | .rrAtHl => cbBytes 0 3 atHlCode
  | .slaR r => cbBytes 0 4 (reg8Code r)
  | .slaAtHl => cbBytes 0 4 atHlCode
  | .sraR r => cbBytes 0 5 (reg8Code r)
  | .sraAtHl => cbBytes 0 5 atHlCode
  | .swapR r => cbBytes 0 6 (reg8Code r)
  | .swapAtHl => cbBytes 0 6 atHlCode
  | .srlR r => cbBytes 0 7 (reg8Code r)
  | .srlAtHl => cbBytes 0 7 atHlCode
  | .bitBR b r => cbBytes 1 (indexCode b) (reg8Code r)
  | .bitBAtHl b => cbBytes 1 (indexCode b) atHlCode
  | .resBR b r => cbBytes 2 (indexCode b) (reg8Code r)
  | .resBAtHl b => cbBytes 2 (indexCode b) atHlCode
  | .setBR b r => cbBytes 3 (indexCode b) (reg8Code r)
  | .setBAtHl b => cbBytes 3 (indexCode b) atHlCode

/-! ## Words as spec/opcode_table.json numbers them -/

/-- Byte `k` of the number `w` of `nbits` bits, the bits above `nbits` being 0: byte 0 is the first byte of the instruction. -/
def tableByte (nbits w k : Nat) : Byte := BitVec.ofNat 8 (w % 2 ^ nbits / 2 ^ (8 * k))

/-- The three bytes of the longest instruction (R100) laid out in address order. -/
def tableBytes (nbits w : Nat) : List Byte := [tableByte nbits w 0, tableByte nbits w 1, tableByte nbits w 2]

/-- The instruction the decoder reads from the bytes of `w` (log 17 on the table's 0xCB-page rows). -/
def decodeTableWord (nbits w : Nat) : Option Instr :=
  match decode (tableBytes nbits w) with
  | .ok (i, _) => some i
  | .error _ => none

end Sys2Proof
end

