-- ==== Sys2Proof/Machine/Bits.lean ====
section
/-! DEFINITION. Bit fields, byte order and sign extension (00_scope.md R10, R11). -/

namespace Sys2Proof.Machine

/-- `hi(w) = w[15:8]` (R11). -/
def hi (w : Word) : Byte := w.extractLsb' 8 8

/-- `lo(w) = w[7:0]` (R11). -/
def lo (w : Word) : Byte := w.extractLsb' 0 8

/-- `h ++ l`, `h` in the high bits (R10). -/
def join (h l : Byte) : Word := h ++ l

/-- `sext_16(v)` (R11). -/
def sext16 (v : Byte) : Word := v.signExtend 16

/-- `signed8(v)` (R11). -/
def signed8 (v : Byte) : Int := v.toInt

/-- `1` for true and `0` for false: a bit as a number (R10). -/
def bitNat (b : Bool) : Nat := b.toNat

/-- `1 << k` as a byte (R311, R252, R254). -/
def bitMask (k : Nat) : Byte := 1#8 <<< k

end Sys2Proof.Machine
end

