-- ==== Sys2Proof/Machine/Cycles.lean ====
section
/-! DEFINITION. The parameter `CYCLES` (00_scope.md R9): the cost of each opcode in quanta, and its reference value, the table of
70_reset_and_hazards.md R450 (log 3). -/

namespace Sys2Proof

/-- `CYCLES`: the cost (taken, not taken) of each first-byte opcode and of each 0xCB-page opcode, the latter for the whole
instruction. Rows are high nibbles and columns low nibbles, as R450 lays its table out. An opcode that transfers no control on a
condition costs its first number. -/
structure Cycles where
  base : Vector (Vector (Nat × Nat) 16) 16
  cb : Vector (Vector (Nat × Nat) 16) 16
  deriving DecidableEq, Repr

/-- The entry of the opcode `op` in one of the two tables. -/
def cyclesEntry (table : Vector (Vector (Nat × Nat) 16) 16) (op : Byte) : Nat × Nat :=
  (table.get (op.extractLsb' 4 4).toFin).get (op.extractLsb' 0 4).toFin

/-- The cost of the instruction with these bytes: it depends on the opcode, its second byte behind 0xCB, and, for a conditional
transfer, on whether it is taken, and on nothing else (R451). -/
def Cycles.quanta (c : Cycles) (taken : Bool) (bytes : List Byte) : Nat :=
  let entry : Nat × Nat :=
    match bytes with
    | [] => (0, 0)
    | op :: rest => if op = 0xCB then cyclesEntry c.cb (rest.headD 0) else cyclesEntry c.base op
  if taken then entry.1 else entry.2

/-- A 0xCB-page row of R450: 2 on a register, `q` on the byte at HL. -/
def cbCyclesRow (q : Nat) : Vector (Nat × Nat) 16 :=
  #v[(2,2), (2,2), (2,2), (2,2), (2,2), (2,2), (q,q), (2,2), (2,2), (2,2), (2,2), (2,2), (2,2), (2,2), (q,q), (2,2)]

/-- The table of R450. The eleven unassigned opcodes cost 0 whatever the table says (R330); the entry of the prefix is not used. -/
def Cycles.reference : Cycles where
  base := #v[
    #v[(1,1), (3,3), (2,2), (2,2), (1,1), (1,1), (2,2), (1,1), (5,5), (2,2), (2,2), (2,2), (1,1), (1,1), (2,2), (1,1)],
    #v[(1,1), (3,3), (2,2), (2,2), (1,1), (1,1), (2,2), (1,1), (3,3), (2,2), (2,2), (2,2), (1,1), (1,1), (2,2), (1,1)],
    #v[(3,2), (3,3), (2,2), (2,2), (1,1), (1,1), (2,2), (1,1), (3,2), (2,2), (2,2), (2,2), (1,1), (1,1), (2,2), (1,1)],
    #v[(3,2), (3,3), (2,2), (2,2), (3,3), (3,3), (3,3), (1,1), (3,2), (2,2), (2,2), (2,2), (1,1), (1,1), (2,2), (1,1)],
    #v[(1,1), (1,1), (1,1), (1,1), (1,1), (1,1), (2,2), (1,1), (1,1), (1,1), (1,1), (1,1), (1,1), (1,1), (2,2), (1,1)],
    #v[(1,1), (1,1), (1,1), (1,1), (1,1), (1,1), (2,2), (1,1), (1,1), (1,1), (1,1), (1,1), (1,1), (1,1), (2,2), (1,1)],
    #v[(1,1), (1,1), (1,1), (1,1), (1,1), (1,1), (2,2), (1,1), (1,1), (1,1), (1,1), (1,1), (1,1), (1,1), (2,2), (1,1)],
    #v[(2,2), (2,2), (2,2), (2,2), (2,2), (2,2), (1,1), (2,2), (1,1), (1,1), (1,1), (1,1), (1,1), (1,1), (2,2), (1,1)],
    #v[(1,1), (1,1), (1,1), (1,1), (1,1), (1,1), (2,2), (1,1), (1,1), (1,1), (1,1), (1,1), (1,1), (1,1), (2,2), (1,1)],
    #v[(1,1), (1,1), (1,1), (1,1), (1,1), (1,1), (2,2), (1,1), (1,1), (1,1), (1,1), (1,1), (1,1), (1,1), (2,2), (1,1)],
    #v[(1,1), (1,1), (1,1), (1,1), (1,1), (1,1), (2,2), (1,1), (1,1), (1,1), (1,1), (1,1), (1,1), (1,1), (2,2), (1,1)],
    #v[(1,1), (1,1), (1,1), (1,1), (1,1), (1,1), (2,2), (1,1), (1,1), (1,1), (1,1), (1,1), (1,1), (1,1), (2,2), (1,1)],
    #v[(5,2), (3,3), (4,3), (4,4), (6,3), (4,4), (2,2), (4,4), (5,2), (4,4), (4,3), (0,0), (6,3), (6,6), (2,2), (4,4)],
    #v[(5,2), (3,3), (4,3), (0,0), (6,3), (4,4), (2,2), (4,4), (5,2), (4,4), (4,3), (0,0), (6,3), (0,0), (2,2), (4,4)],
    #v[(3,3), (3,3), (2,2), (0,0), (0,0), (4,4), (2,2), (4,4), (4,4), (1,1), (4,4), (0,0), (0,0), (0,0), (2,2), (4,4)],
    #v[(3,3), (3,3), (2,2), (1,1), (0,0), (4,4), (2,2), (4,4), (3,3), (2,2), (4,4), (1,1), (0,0), (0,0), (2,2), (4,4)]]
  cb := #v[cbCyclesRow 4, cbCyclesRow 4, cbCyclesRow 4, cbCyclesRow 4, cbCyclesRow 3, cbCyclesRow 3, cbCyclesRow 3, cbCyclesRow 3,
    cbCyclesRow 4, cbCyclesRow 4, cbCyclesRow 4, cbCyclesRow 4, cbCyclesRow 4, cbCyclesRow 4, cbCyclesRow 4, cbCyclesRow 4]

end Sys2Proof
end

