-- ==== Sys2Proof/Config.lean ====
section
/-! DEFINITION. The named parameters the model takes as arguments (00_scope.md R9). They are fixed for a run (10_state.md R42);
`State.cfg` holds them and no step changes them, so a statement about every state is a statement about every parameter value
(log 2). `ROM` and `ROM_LOADED` are held by the state itself, because the host's `loadRom` writes them (R446). -/

namespace Sys2Proof

/-- The parameters of R9 that a run cannot change. -/
structure Config where
  /-- `BOOT`: no overlay, or its 256 bytes (R68). -/
  boot : Option (Vector Byte 256)
  /-- `IF_GATED_BY_IME`: requests and clears act only while IME = 1 (R311, R312). -/
  ifGatedByIme : Bool
  /-- `EI_DELAY` = 1: `EI` acts after the next instruction (R284). `false` is `EI_DELAY` = 0. -/
  eiDelay : Bool
  /-- `CYCLES`: the cost of each opcode (R450, R451). -/
  cycles : Cycles
  /-- `AUDIO_WMASK`: the write mask of each audio register byte (R81). -/
  audioWmask : Vector Byte 48
  /-- `SHADE_RGBA`: the colour of each shade (R399; its byte order, log 24). -/
  shadeRgba : Vector Rgba 4
  /-- `JOYP_INIT`: the joypad register at power-on (R80). -/
  joypInit : Byte
  deriving DecidableEq, Repr

/-- The reference value R9 gives each parameter; the four colours are R399's, each packed as log 24 says (a
DESIGN CHOICE), the costs R450's. -/
def Config.reference : Config where
  boot := none
  ifGatedByIme := true
  eiDelay := true
  cycles := Cycles.reference
  audioWmask := Vector.replicate 48 0xFF#8
  shadeRgba := #v[0xFFFFFFFF#32, 0xAAAAAAFF#32, 0x555555FF#32, 0x000000FF#32]
  joypInit := 0xFF#8

end Sys2Proof
end

