-- ==== Sys2Proof/Machine/State.lean ====
section
/-! DEFINITION. The state of the CORE as plain data: everything 10_state.md gives the machine (R20 to R46), the parameters of
R9 among it, and the outcomes a step can have. -/

namespace Sys2Proof.Machine

/-- The 8-bit registers but F (R20). The pairs BC, DE, HL are views of them (R21). -/
structure Regs where
  a : Byte
  b : Byte
  c : Byte
  d : Byte
  e : Byte
  h : Byte
  l : Byte
  deriving DecidableEq, Repr

/-- The four flags fZ, fN, fH, fC, which are all F holds (R22). -/
structure Flags where
  z : Bool
  n : Bool
  h : Bool
  c : Bool
  deriving DecidableEq, Repr

/-- The run status (R33). -/
inductive Status where
  | running | paused | stopped
  deriving DecidableEq, Repr

/-- The timer's registers (R36) and its hidden state (R37). -/
structure Timer where
  div : Byte
  tima : Byte
  tma : Byte
  tac : Byte
  /-- `div_acc` -/
  divAcc : Nat
  /-- `tima_acc` -/
  timaAcc : Nat
  /-- `tima_overflow` -/
  overflow : Bool
  deriving DecidableEq, Repr

/-- The mode of the video unit (R39). -/
inductive Mode where
  | oamSearch | pixelTransfer | hblank | vblank
  deriving DecidableEq, Repr

/-- The video unit's registers (R38) and its other state (R39) but VRAM and OAM. -/
structure Video where
  lcdc : Byte
  /-- `STAT[6:3]`, the stored part of STAT (R373): bit 0 here is `STAT[3]`. -/
  statEnable : BitVec 4
  scy : Byte
  scx : Byte
  ly : Byte
  lyc : Byte
  dma : Byte
  bgp : Byte
  obp0 : Byte
  obp1 : Byte
  wy : Byte
  wx : Byte
  mode : Mode
  /-- `mode_clock` -/
  modeClock : Nat
  coincidence : Bool
  /-- The rows that are not all shade 0, in rising order: row number and its 160 shade numbers. The pixel of R399 is
  `SHADE_RGBA` of the shade (log 8). -/
  framebuffer : List (Nat × List Shade)
  deriving DecidableEq, Repr

/-- The byte arrays ROM0, ROMN, VRAM, ERAM, WRAM, OAM, HRAM (R39, R40) and AUDIO (R41): the bytes that are not 0x00, by
the bus address of the backing byte, in rising order (log 7). -/
abbrev Memory := List Host.Cell

/-- The whole machine. -/
structure State where
  regs : Regs
  flags : Flags
  pc : Word
  sp : Word
  /-- IME (R30) -/
  ime : Bool
  /-- `ime_pending` (R31) -/
  imePending : Bool
  halted : Bool
  status : Status
  /-- IE (R34) -/
  ie : Byte
  /-- IF (R35) -/
  ifl : Byte
  timer : Timer
  video : Video
  mem : Memory
  /-- JOYP (R41, R80) -/
  joyp : Byte
  /-- `boot_enabled` (R41, R68) -/
  bootEnabled : Bool
  /-- `ROM_LOADED` (R9, R67) -/
  romLoaded : Bool
  /-- The parameters of R9 that are fixed for a run (log 2). -/
  cfg : Config
  /-- The model's own field: the quanta `cost(q)` recorded for the latest CPU step (R16; log 5). -/
  quanta : Nat
  deriving DecidableEq, Repr

/-- No step of this machine ends in a fault: R331 lists every error condition, and each has a defined next state (an unmapped
access reads 0xFF or is dropped, an unassigned opcode and a missing image set status STOPPED). Nothing raises one. -/
inductive Fault
  deriving DecidableEq, Repr

/-- Why an instruction has no meaning in this model. -/
inductive Refusal where
  /-- Raised by `exec`'s arm of an instruction that has no meaning yet; no arm of this model does. Safe: a refused
  instruction has no next state, so no claim about one can be proved. -/
  | notModelled (mnemonic : String)
  deriving DecidableEq, Repr

/-- The outcome of an instruction or a step. -/
abbrev Result := Host.Outcome State Fault Refusal

/-- The video unit after reset (R44), its framebuffer all shade 0 (R45). -/
def Video.reset : Video where
  lcdc := 0
  statEnable := 0
  scy := 0
  scx := 0
  ly := 0
  lyc := 0
  dma := 0
  bgp := 0
  obp0 := 0
  obp1 := 0
  wy := 0
  wx := 0
  mode := .oamSearch
  modeClock := 0
  coincidence := false
  framebuffer := []

/-- The timer after reset (R44). -/
def Timer.reset : Timer where
  div := 0
  tima := 0
  tma := 0
  tac := 0
  divAcc := 0
  timaAcc := 0
  overflow := false

/-- The machine right after the reset that ends `loadRom` (R44, R446), from power-on (R45), with the parameters' reference
values (R9): the "reset state" of 95_test_vectors.md, whose image is all 0x00 (log 4). -/
def State.reset : State where
  regs := { a := 0, b := 0, c := 0, d := 0, e := 0, h := 0, l := 0 }
  flags := { z := false, n := false, h := false, c := false }
  pc := 0
  sp := 0
  ime := false
  imePending := false
  halted := false
  status := .running
  ie := 0
  ifl := 0
  timer := Timer.reset
  video := Video.reset
  mem := []
  joyp := Config.reference.joypInit
  bootEnabled := Config.reference.boot.isSome
  romLoaded := true
  cfg := Config.reference
  quanta := 0

/-- The state at construction, before any host operation (R433), for given parameters: no image is loaded. -/
def State.powerOn (cfg : Config) : State :=
  { State.reset with romLoaded := false, cfg := cfg, joyp := cfg.joypInit, bootEnabled := cfg.boot.isSome }

end Sys2Proof.Machine
end

