-- ==== Sys2Proof/Machine/Memory.lean ====
section
/-! DEFINITION. The one canonical form of sparse data, used by the byte arrays (R40) and by the framebuffer's rows (R399):
a list of keys and values with the keys strictly rising and no value equal to what an unlisted key reads as. -/

namespace Sys2Proof.Machine

/-- Read key `k`; an unlisted key reads as `dflt`. -/
def sparseRead {α : Type} (dflt : α) : List (Nat × α) → Nat → α
  | [], _ => dflt
  | cell :: m, k => if cell.1 = k then cell.2 else sparseRead dflt m k

/-- Put `cell` before `m`, unless it holds what an unlisted key reads as. -/
def sparseCons {α : Type} [DecidableEq α] (dflt : α) (cell : Nat × α) (m : List (Nat × α)) : List (Nat × α) :=
  if cell.2 = dflt then m else cell :: m

/-- Write `v` at key `k`, keeping the canonical form. -/
def sparseWrite {α : Type} [DecidableEq α] (dflt : α) : List (Nat × α) → Nat → α → List (Nat × α)
  | [], k, v => sparseCons dflt (k, v) []
  | cell :: m, k, v =>
    if k < cell.1 then sparseCons dflt (k, v) (cell :: m)
    else if k = cell.1 then sparseCons dflt (k, v) m
    else cell :: sparseWrite dflt m k v

/-- The canonical form. -/
abbrev sparseWf {α : Type} (dflt : α) (m : List (Nat × α)) : Prop :=
  m.Pairwise (fun x y => x.1 < y.1) ∧ ∀ cell ∈ m, cell.2 ≠ dflt

/-- What a byte of an array that is not listed reads as: 0x00 (R45 for the RAM arrays and AUDIO, R66 and R67 for the image;
log 7). -/
def unlistedByte : Byte := 0x00

/-- The backing byte with key `k`. -/
def memRead (m : Memory) (k : Nat) : Byte := sparseRead unlistedByte m k

/-- Store into the backing byte with key `k`. -/
def memWrite (m : Memory) (k : Nat) (v : Byte) : Memory := sparseWrite unlistedByte m k v

/-- The canonical form of the byte arrays. -/
abbrev Memory.wf (m : Memory) : Prop := sparseWf unlistedByte m

/-- A row of the framebuffer that no rendering has changed: 160 pixels (R371) of shade 0 (R45). -/
def blankRow : List Shade := List.replicate 160 0

/-- Row `y` of the framebuffer, as shade numbers. -/
def rowRead (fb : List (Nat × List Shade)) (y : Nat) : List Shade := sparseRead blankRow fb y

/-- Replace row `y` of the framebuffer. -/
def rowWrite (fb : List (Nat × List Shade)) (y : Nat) (row : List Shade) : List (Nat × List Shade) :=
  sparseWrite blankRow fb y row

/-- The canonical form of the framebuffer: visible rows only (R371), each of 160 pixels. -/
abbrev framebufferWf (fb : List (Nat × List Shade)) : Prop :=
  sparseWf blankRow fb ∧ ∀ row ∈ fb, row.1 < 144 ∧ row.2.length = 160

/-- `framebuffer[y][x]` as the 32-bit pixel the host sees (R399). -/
def State.pixel (s : State) (y x : Nat) : Rgba :=
  let shade : Shade := (rowRead s.video.framebuffer y).getD x 0
  s.cfg.shadeRgba.get ⟨shade.toNat, shade.isLt⟩

end Sys2Proof.Machine
end

