-- ==== Sys2Proof/Machine/Bus.lean ====
section
/-! DEFINITION. The memory bus (20_memory.md): the address decoder and the read and write of one byte. -/

namespace Sys2Proof.Machine

/-- The registers behind the I/O windows (R75) and the interrupt-enable byte (R77). -/
inductive Port where
  | joyp | div | tima | tma | tac | ifl | lcdc | stat | scy | scx | ly | lyc | dma | bgp | obp0 | obp1 | wy | wx | bootOff | ie
  deriving DecidableEq, Repr

/-- Where an address leads (R63). -/
inductive Target where
  /-- A byte of ROM0 or ROMN, by its key. -/
  | rom (key : Nat)
  /-- A byte of VRAM, ERAM, WRAM, OAM or HRAM, by its key; an echo address leads to the work-RAM byte (R72). -/
  | ram (key : Nat)
  /-- A byte of AUDIO, by its offset (R81). -/
  | audio (off : Nat)
  | port (p : Port)
  /-- No owner (R64). -/
  | unmapped
  deriving DecidableEq, Repr

/-- The key of AUDIO[0] and the address of its window (R75). -/
def audioBase : Nat := 0xFF10

/-- The key of OAM[0] (R73). -/
def oamBase : Nat := 0xFE00

/-- The key of VRAM[0] (R69). -/
def vramBase : Nat := 0x8000

/-- The I/O windows 0xFF00 to 0xFF7F by offset from 0xFF00 (R75). -/
def ioTarget (off : Nat) : Target :=
  if off = 0x00 then .port .joyp
  else if off = 0x04 then .port .div
  else if off = 0x05 then .port .tima
  else if off = 0x06 then .port .tma
  else if off = 0x07 then .port .tac
  else if off = 0x0F then .port .ifl
  else if 0x10 ≤ off ∧ off ≤ 0x3F then .audio (off - 0x10)
  else if off = 0x40 then .port .lcdc
  else if off = 0x41 then .port .stat
  else if off = 0x42 then .port .scy
  else if off = 0x43 then .port .scx
  else if off = 0x44 then .port .ly
  else if off = 0x45 then .port .lyc
  else if off = 0x46 then .port .dma
  else if off = 0x47 then .port .bgp
  else if off = 0x48 then .port .obp0
  else if off = 0x49 then .port .obp1
  else if off = 0x4A then .port .wy
  else if off = 0x4B then .port .wx
  else if off = 0x50 then .port .bootOff
  else .unmapped

/-- The address decoder (R63): regions 1 to 11 in increasing order. -/
def busTarget (addr : Word) : Target :=
  let a := addr.toNat
  if a < 0x8000 then .rom a
  else if a < 0xE000 then .ram a
  else if a < 0xFE00 then .ram (a - 0x2000)
  else if a < 0xFEA0 then .ram a
  else if a < 0xFF00 then .unmapped
  else if a < 0xFF80 then ioTarget (a - 0xFF00)
  else if a < 0xFFFF then .ram a
  else .port .ie

/-- The two mode bits of STAT (R373). -/
def modeCode : Mode → BitVec 2
  | .hblank => 0
  | .vblank => 1
  | .oamSearch => 2
  | .pixelTransfer => 3

/-- A read of STAT (R373): bit 7 is 0, bits 6:3 the stored enables, bit 2 coincidence, bits 1:0 the mode. -/
def statRead (v : Video) : Byte := 0#1 ++ v.statEnable ++ BitVec.ofBool v.coincidence ++ modeCode v.mode

/-- The read value of a register (R75). -/
def readPort (p : Port) (s : State) : Byte :=
  match p with
  | .joyp => s.joyp
  | .div => s.timer.div
  | .tima => s.timer.tima
  | .tma => s.timer.tma
  | .tac => s.timer.tac
  | .ifl => s.ifl
  | .lcdc => s.video.lcdc
  | .stat => statRead s.video
  | .scy => s.video.scy
  | .scx => s.video.scx
  | .ly => s.video.ly
  | .lyc => s.video.lyc
  | .dma => s.video.dma
  | .bgp => s.video.bgp
  | .obp0 => s.video.obp0
  | .obp1 => s.video.obp1
  | .wy => s.video.wy
  | .wx => s.video.wx
  | .bootOff => 0xFF
  | .ie => s.ie

/-- A byte of the program image, or of the boot overlay while it intercepts the lowest 256 bytes (R65, R68). `BOOT` absent
with `boot_enabled` = 1 is no reachable state (R68; log 13). -/
def readRom (s : State) (key : Nat) : Byte :=
  match s.cfg.boot with
  | some image => if s.bootEnabled ∧ key < 0x100 then image.get (Fin.ofNat 256 key) else memRead s.mem key
  | none => memRead s.mem key

/-- `MemRead(addr, 1)` (R61): total, with no effect on any state. -/
def readByte (s : State) (addr : Word) : Byte :=
  match busTarget addr with
  | .rom key => readRom s key
  | .ram key => memRead s.mem key
  | .audio off => memRead s.mem (audioBase + off)
  | .port p => readPort p s
  | .unmapped => 0xFF

/-- Store into a backing byte. -/
def State.storeKey (s : State) (key : Nat) (v : Byte) : State := { s with mem := memWrite s.mem key v }

/-- One byte of the OAM copy: `OAM[i] <- MemRead((v << 8) + i, 1)` (R378). -/
def oamCopyByte (v : Byte) (s : State) (i : Nat) : State :=
  s.storeKey (oamBase + i) (readByte s (join v 0 + BitVec.ofNat 16 i))

/-- The OAM copy, `i` from 0 to 159 (R378). -/
def oamCopy (v : Byte) (s : State) : State := (List.range 160).foldl (oamCopyByte v) s

/-- The write of a register (R75 and the rules it names). -/
def writePort (p : Port) (v : Byte) (s : State) : State :=
  match p with
  | .joyp => { s with joyp := v }
  | .div => { s with timer := { s.timer with div := 0, divAcc := 0 } }
  | .tima => { s with timer := { s.timer with tima := v } }
  | .tma => { s with timer := { s.timer with tma := v } }
  | .tac => { s with timer := { s.timer with tac := v } }
  | .ifl => { s with ifl := v }
  | .lcdc => { s with video := { s.video with lcdc := v } }
  | .stat => { s with video := { s.video with statEnable := v.extractLsb' 3 4 } }
  | .scy => { s with video := { s.video with scy := v } }
  | .scx => { s with video := { s.video with scx := v } }
  | .ly => s
  | .lyc => { s with video := { s.video with lyc := v } }
  | .dma => oamCopy v { s with video := { s.video with dma := v } }
  | .bgp => { s with video := { s.video with bgp := v } }
  | .obp0 => { s with video := { s.video with obp0 := v } }
  | .obp1 => { s with video := { s.video with obp1 := v } }
  | .wy => { s with video := { s.video with wy := v } }
  | .wx => { s with video := { s.video with wx := v } }
  | .bootOff => { s with bootEnabled := false }
  | .ie => { s with ie := v }

/-- `MemWrite(addr, 1, v)` (R62): ROM, the gap and unmapped addresses drop the write. -/
def writeByte (s : State) (addr : Word) (v : Byte) : State :=
  match busTarget addr with
  | .rom _ => s
  | .ram key => s.storeKey key v
  | .audio off => s.storeKey (audioBase + off) (v &&& s.cfg.audioWmask.get (Fin.ofNat 48 off))
  | .port p => writePort p v s
  | .unmapped => s

/-- `MemRead(addr, 2)`: low byte at the lower address (R13, R84). -/
def readWord (s : State) (addr : Word) : Word := join (readByte s (addr + 1)) (readByte s addr)

/-- `MemWrite(addr, 2, w)`: low byte first (R13, R87). -/
def writeWord (s : State) (addr : Word) (w : Word) : State := writeByte (writeByte s addr (lo w)) (addr + 1) (hi w)

end Sys2Proof.Machine
end

