-- ==== Sys2Proof/Machine/Flags.lean ====
section
/-! DEFINITION. Arithmetic with its flags (R17, R180, R205, R207, R209, R256, R163): operands become integers, the result is
exact, and it is narrowed at the end. -/

namespace Sys2Proof.Machine

/-- A result `(r, h, cy)` of R17. -/
structure ArithOut (w : Nat) where
  res : BitVec w
  h : Bool
  c : Bool
  deriving DecidableEq, Repr

/-- `add8(a, b, c)` (R17). -/
def add8 (a b : Byte) (c : Bool) : ArithOut 8 where
  res := BitVec.ofNat 8 (a.toNat + b.toNat + bitNat c)
  h := decide (a.toNat % 16 + b.toNat % 16 + bitNat c > 0xF)
  c := decide (a.toNat + b.toNat + bitNat c > 0xFF)

/-- `sub8(a, b, c)` (R17). -/
def sub8 (a b : Byte) (c : Bool) : ArithOut 8 where
  res := BitVec.ofInt 8 ((a.toNat : Int) - b.toNat - bitNat c)
  h := decide (((a.toNat % 16 : Nat) : Int) - (b.toNat % 16 : Nat) - bitNat c < 0)
  c := decide ((a.toNat : Int) - b.toNat - bitNat c < 0)

/-- `add16(a, b)` (R17). -/
def add16 (a b : Word) : ArithOut 16 where
  res := BitVec.ofNat 16 (a.toNat + b.toNat)
  h := decide (a.toNat % 0x1000 + b.toNat % 0x1000 > 0xFFF)
  c := decide (a.toNat + b.toNat > 0xFFFF)

/-- F as a byte (R22): Z N H C in bits 7 to 4, the low nibble 0. -/
def Flags.toByte (f : Flags) : Byte :=
  BitVec.ofBool f.z ++ BitVec.ofBool f.n ++ BitVec.ofBool f.h ++ BitVec.ofBool f.c ++ 0#4

/-- The flags a byte written to F leaves; its low nibble is dropped (R22, R25). -/
def flagsOfByte (v : Byte) : Flags where
  z := v.getLsbD 7
  n := v.getLsbD 6
  h := v.getLsbD 5
  c := v.getLsbD 4

/-- The eight ALU operations (R180). -/
inductive AluOp where
  | add | adc | sub | sbc | and | xor | or | cp
  deriving DecidableEq, Repr

/-- What an ALU operation leaves in A and in the flags (R180). `A <- A` for `CP`, which does not write A. -/
structure AluOut where
  a : Byte
  flags : Flags
  deriving DecidableEq, Repr

/-- The flags of an 8-bit sum or difference: fZ by the result, fN as given (R180). -/
def sumFlags (n : Bool) (r : ArithOut 8) : Flags := { z := decide (r.res = 0), n := n, h := r.h, c := r.c }

/-- The flags of a logical operation: fZ by the result, fN and fC 0, fH as given (R180). -/
def logicFlags (h : Bool) (r : Byte) : Flags := { z := decide (r = 0), n := false, h := h, c := false }

/-- The ALU table (R180) on A, the operand `v` and the incoming fC. -/
def aluOp (op : AluOp) (a v : Byte) (fc : Bool) : AluOut :=
  match op with
  | .add => { a := (add8 a v false).res, flags := sumFlags false (add8 a v false) }
  | .adc => { a := (add8 a v fc).res, flags := sumFlags false (add8 a v fc) }
  | .sub => { a := (sub8 a v false).res, flags := sumFlags true (sub8 a v false) }
  | .sbc => { a := (sub8 a v fc).res, flags := sumFlags true (sub8 a v fc) }
  | .and => { a := a &&& v, flags := logicFlags true (a &&& v) }
  | .xor => { a := a ^^^ v, flags := logicFlags false (a ^^^ v) }
  | .or => { a := a ||| v, flags := logicFlags false (a ||| v) }
  | .cp => { a := a, flags := sumFlags true (sub8 a v false) }

/-- The result of `INC` on a byte (R205). -/
def incByte (v : Byte) : Byte := v + 1

/-- The flags of `INC` (R205): fC is kept. -/
def incFlags (v : Byte) (f : Flags) : Flags :=
  { f with z := decide (incByte v = 0), n := false, h := decide (v.toNat % 16 = 0xF) }

/-- The result of `DEC` on a byte (R207). -/
def decByte (v : Byte) : Byte := v - 1

/-- The flags of `DEC` (R207): fC is kept. -/
def decFlags (v : Byte) (f : Flags) : Flags :=
  { f with z := decide (decByte v = 0), n := true, h := decide (v.toNat % 16 = 0) }

/-- The correction `DAA` applies (R209): 0x06 and 0x60, by the value of A before the correction. -/
def daaCorrection (a : Byte) (f : Flags) : Nat :=
  if f.n then
    (if f.h then 0x06 else 0) + (if f.c then 0x60 else 0)
  else
    (if f.h ∨ a.toNat % 16 > 0x09 then 0x06 else 0) + (if f.c ∨ a.toNat > 0x99 then 0x60 else 0)

/-- A after `DAA` (R209). -/
def daaResult (a : Byte) (f : Flags) : Byte :=
  if f.n then BitVec.ofInt 8 ((a.toNat : Int) - daaCorrection a f) else BitVec.ofNat 8 (a.toNat + daaCorrection a f)

/-- The flags after `DAA` (R209): fN is kept. -/
def daaFlags (a : Byte) (f : Flags) : Flags where
  z := decide (daaResult a f = 0)
  n := f.n
  h := false
  c := f.c || (!f.n && decide (a.toNat > 0x99))

/-- The eight rotate and shift functions (R256). -/
inductive RotOp where
  | rlc | rrc | rl | rr | sla | sra | swap | srl
  deriving DecidableEq, Repr

/-- The result column of R256 on `v` with carry-in `fc`. -/
def rotResult (op : RotOp) (v : Byte) (fc : Bool) : Byte :=
  match op with
  | .rlc => (v <<< 1) ||| (v >>> 7)
  | .rrc => (v >>> 1) ||| (v <<< 7)
  | .rl => (v <<< 1) ||| (BitVec.ofBool fc).setWidth 8
  | .rr => (v >>> 1) ||| ((BitVec.ofBool fc).setWidth 8 <<< 7)
  | .sla => v <<< 1
  | .sra => (v >>> 1) ||| (v &&& 0x80)
  | .swap => ((v &&& 0x0F) <<< 4) ||| (v >>> 4)
  | .srl => v >>> 1

/-- The carry column of R256. -/
def rotCarry (op : RotOp) (v : Byte) : Bool :=
  match op with
  | .rlc | .rl | .sla => v.getLsbD 7
  | .rrc | .rr | .sra | .srl => v.getLsbD 0
  | .swap => false

/-- The flags of the 0xCB-page forms (R256). -/
def rotFlags (op : RotOp) (v : Byte) (fc : Bool) : Flags :=
  { z := decide (rotResult op v fc = 0), n := false, h := false, c := rotCarry op v }

/-- The flags of the accumulator rotates: fZ is 0 whatever the result (R230 to R233). -/
def rotAFlags (op : RotOp) (v : Byte) : Flags := { z := false, n := false, h := false, c := rotCarry op v }

/-- The flags of `BIT b` (R250): fC is kept. -/
def bitFlags (b : Fin 8) (v : Byte) (f : Flags) : Flags := { f with z := !v.getLsbD b.val, n := false, h := true }

/-- `SP + sext_16(e)` (R163, R223). -/
def spPlus (sp : Word) (e : Byte) : Word := sp + sext16 e

/-- The flags of `LD HL,SP+e` and `ADD SP,e`: of adding the raw byte `e` to the low byte of SP (R163, R223). -/
def spPlusFlags (sp : Word) (e : Byte) : Flags where
  z := false
  n := false
  h := decide (sp.toNat % 16 + e.toNat % 16 > 0xF)
  c := decide (sp.toNat % 256 + e.toNat > 0xFF)

/-- The flags of `ADD HL,rr` (R220): fZ is kept. -/
def addHlFlags (hl rr : Word) (f : Flags) : Flags := { f with n := false, h := (add16 hl rr).h, c := (add16 hl rr).c }

end Sys2Proof.Machine
end

