-- ==== Sys2Proof/Machine/Ops.lean ====
section
/-! DEFINITION. The named operations over registers, stack and interrupts: register and pair access (R20 to R26), the stack
(R15), requesting, clearing and dispatching an interrupt (R311 to R322), the return from one (R270), the decode error (R330). -/

namespace Sys2Proof.Machine

/-! ## Registers -/

/-- `r8[c]` for a register code (R24). -/
def State.reg (s : State) : Reg8 → Byte
  | .a => s.regs.a
  | .b => s.regs.b
  | .c => s.regs.c
  | .d => s.regs.d
  | .e => s.regs.e
  | .h => s.regs.h
  | .l => s.regs.l

/-- `r8[c] <- v` for a register code (R24). -/
def State.setReg (s : State) (r : Reg8) (v : Byte) : State :=
  match r with
  | .a => { s with regs := { s.regs with a := v } }
  | .b => { s with regs := { s.regs with b := v } }
  | .c => { s with regs := { s.regs with c := v } }
  | .d => { s with regs := { s.regs with d := v } }
  | .e => { s with regs := { s.regs with e := v } }
  | .h => { s with regs := { s.regs with h := v } }
  | .l => { s with regs := { s.regs with l := v } }

/-- The pairs as views of their halves, the first-named register high (R21). -/
def State.bc (s : State) : Word := join s.regs.b s.regs.c
def State.de (s : State) : Word := join s.regs.d s.regs.e
def State.hl (s : State) : Word := join s.regs.h s.regs.l

/-- Writing a pair writes both halves (R21). -/
def State.setBc (s : State) (w : Word) : State := { s with regs := { s.regs with b := hi w, c := lo w } }
def State.setDe (s : State) (w : Word) : State := { s with regs := { s.regs with d := hi w, e := lo w } }
def State.setHl (s : State) (w : Word) : State := { s with regs := { s.regs with h := hi w, l := lo w } }

/-- `r16[p]` (R26). -/
def State.pair (s : State) : Reg16 → Word
  | .bc => s.bc
  | .de => s.de
  | .hl => s.hl
  | .sp => s.sp

/-- `r16[p] <- w` (R26). -/
def State.setPair (s : State) (rr : Reg16) (w : Word) : State :=
  match rr with
  | .bc => s.setBc w
  | .de => s.setDe w
  | .hl => s.setHl w
  | .sp => { s with sp := w }

/-- `r16stk[p]` for BC, DE, HL (R25). -/
def State.stkPair (s : State) : StkReg → Word
  | .bc => s.bc
  | .de => s.de
  | .hl => s.hl

/-- `r16stk[p] <- w` for BC, DE, HL (R25). -/
def State.setStkPair (s : State) (qq : StkReg) (w : Word) : State :=
  match qq with
  | .bc => s.setBc w
  | .de => s.setDe w
  | .hl => s.setHl w

/-- Reading AF: `A ++ (F & 0xF0)` (R25). -/
def State.af (s : State) : Word := join s.regs.a s.flags.toByte

/-- Writing AF: F takes the high nibble of the low byte (R25). -/
def State.setAf (s : State) (w : Word) : State :=
  { s with regs := { s.regs with a := hi w }, flags := flagsOfByte (lo w) }

/-- Write the four flags. -/
def State.setFlags (s : State) (f : Flags) : State := { s with flags := f }

/-- `pc <- target` (R16). -/
def State.setPc (s : State) (target : Word) : State := { s with pc := target }

/-- `cost(q)` (R16). -/
def State.cost (s : State) (q : Nat) : State := { s with quanta := q }

/-- Move PC past `n` instruction bytes, modulo 65,536 (R14, R28). -/
def State.advance (s : State) (n : Nat) : State := { s with pc := s.pc + BitVec.ofNat 16 n }

/-! ## The stack (R15) -/

/-- Pre-decrement SP and store a byte at it. -/
def pushByte (v : Byte) (s : State) : State := writeByte { s with sp := s.sp - 1 } (s.sp - 1) v

/-- `Push16(w)`: high byte, then low byte (R15). -/
def push16 (w : Word) (s : State) : State := pushByte (lo w) (pushByte (hi w) s)

/-- The word `Pop16()` reads: the byte at SP is its low byte (R15). -/
def stackTop (s : State) : Word := readWord s s.sp

/-- `Pop16()` moves SP up by two (R15). -/
def dropWord (s : State) : State := { s with sp := s.sp + 2 }

/-! ## Interrupts -/

/-- The five interrupt classes (R310). -/
inductive IntClass where
  | vblank | status | timer | serial | joypad
  deriving DecidableEq, Repr

/-- The class's bit in IE and IF (R310). -/
def intBit : IntClass → Nat
  | .vblank => 0
  | .status => 1
  | .timer => 2
  | .serial => 3
  | .joypad => 4

/-- `vector(k) = 0x0040 + 8 * k` (R321). -/
def intVector (k : IntClass) : Word := BitVec.ofNat 16 (0x40 + 8 * intBit k)

/-- `RequestInterrupt(k)` (R311): under the gate a request made while IME = 0 is lost. -/
def requestInterrupt (k : IntClass) (s : State) : State :=
  if s.cfg.ifGatedByIme ∧ !s.ime then s else { s with ifl := s.ifl ||| bitMask (intBit k) }

/-- `ClearInterrupt(k, gate)` (R312). -/
def clearInterrupt (k : IntClass) (gate : Bool) (s : State) : State :=
  if s.cfg.ifGatedByIme ∧ !gate then s else { s with ifl := s.ifl &&& ~~~bitMask (intBit k) }

/-- `IE & IF & 0x1F` (R313). -/
def pendingMask (s : State) : Byte := s.ie &&& s.ifl &&& 0x1F

/-- `GetPending()` (R313): the least class whose bit is 1 in both IE and IF. -/
def getPending (s : State) : Option IntClass :=
  if (pendingMask s).getLsbD 0 then some .vblank
  else if (pendingMask s).getLsbD 1 then some .status
  else if (pendingMask s).getLsbD 2 then some .timer
  else if (pendingMask s).getLsbD 3 then some .serial
  else if (pendingMask s).getLsbD 4 then some .joypad
  else none

/-- `IME <- 0; ime_pending <- 0` (R283, R320). -/
def disableInterrupts (s : State) : State := { s with ime := false, imePending := false }

/-- Taking an interrupt, `Dispatch(k)` (R320): IME and `ime_pending` 0, the flag bit cleared with the entry IME as gate,
`halted` 0, PC pushed, PC at the vector. -/
def dispatchInterrupt (k : IntClass) (s : State) : State :=
  let s1 := clearInterrupt k s.ime (disableInterrupts s)
  (push16 s1.pc { s1 with halted := false }).setPc (intVector k)

/-- `pc <- Pop16()` (R268). -/
def returnFromCall (s : State) : State := (dropWord s).setPc (stackTop s)

/-- The return from an interrupt handler (R270, R323): PC popped, `IME <- 1; ime_pending <- 0`. -/
def returnFromInterrupt (s : State) : State := { returnFromCall s with ime := true, imePending := false }

/-- `Push16(PC); pc <- target` (R266, R271). -/
def callTo (target : Word) (s : State) : State := (push16 s.pc s).setPc target

/-- `DecodeError(op)` (R330): status STOPPED and cost 0; nothing else changes. -/
def raiseDecodeError (s : State) : State := { s with status := .stopped, quanta := 0 }

end Sys2Proof.Machine
end

