-- ==== Sys2Proof/Machine/Operands.lean ====
section
/-! DEFINITION. The operand forms (30_encoding.md R104, R106) and the shapes of effect the families share. -/

namespace Sys2Proof.Machine

/-! ## Addresses and conditions -/

/-- The byte at HL (R24, code 6). -/
def atHl (s : State) : Byte := readByte s s.hl

/-- `0xFF00 + n` (R104, R143). -/
def highPage (n : Byte) : Word := join 0xFF n

/-- Whether `cc` holds (R260). -/
def condHolds (cc : Cond) (f : Flags) : Bool :=
  match cc with
  | .nz => !f.z
  | .z => f.z
  | .nc => !f.c
  | .c => f.c

/-- The target of a relative jump: `PC + sext_16(e)`, PC past the whole instruction (R263). -/
def jrTarget (e : Byte) (s : State) : Word := s.pc + sext16 e

/-- The target of a restart, `8 * t` (R271). -/
def rstTarget (t : Fin 8) : Word := BitVec.ofNat 16 (8 * t.val)

/-- What `CYCLES` gives the instruction `i` (R9, R451); `taken` is whether a conditional transfer's condition holds. -/
def State.quantaOf (s : State) (i : Instr) (taken : Bool := true) : Nat := s.cfg.cycles.quanta taken (encode i)

/-! ## Shared effects -/

/-- `A <- v` (R135 to R146). -/
def loadA (v : Byte) (s : State) : State := s.setReg .a v

/-- Store A at `addr` (R137 to R148). -/
def storeA (addr : Word) (s : State) : State := writeByte s addr s.regs.a

/-- An ALU operation on A and `v` (R180). -/
def aluEffect (op : AluOp) (v : Byte) (s : State) : State :=
  ((s.setReg .a (aluOp op s.regs.a v s.flags.c).a)).setFlags (aluOp op s.regs.a v s.flags.c).flags

/-- A rotate or shift of the byte `v` read from a register or from HL (R256). -/
def rotRegEffect (op : RotOp) (r : Reg8) (s : State) : State :=
  (s.setReg r (rotResult op (s.reg r) s.flags.c)).setFlags (rotFlags op (s.reg r) s.flags.c)

/-- The same on the byte at HL: read, then written (R235). -/
def rotAtHlEffect (op : RotOp) (s : State) : State :=
  (writeByte s s.hl (rotResult op (atHl s) s.flags.c)).setFlags (rotFlags op (atHl s) s.flags.c)

/-- An accumulator rotate (R230 to R233). -/
def rotAEffect (op : RotOp) (s : State) : State :=
  (s.setReg .a (rotResult op s.regs.a s.flags.c)).setFlags (rotAFlags op s.regs.a)

/-- `v & ~(1 << b)` (R252). -/
def clearBit (b : Fin 8) (v : Byte) : Byte := v &&& ~~~bitMask b.val

/-- `v | (1 << b)` (R254). -/
def setBit (b : Fin 8) (v : Byte) : Byte := v ||| bitMask b.val

/-- `BIT b` on the byte `v` (R250, R251). -/
def bitEffect (b : Fin 8) (v : Byte) (s : State) : State := s.setFlags (bitFlags b v s.flags)

end Sys2Proof.Machine
end

