-- ==== Sys2Proof/Machine/Alu16.lean ====
section
/-! DEFINITION. 16-bit arithmetic (43_alu16.md). -/

namespace Sys2Proof.Machine

/-- `ADD HL,rr` (R220). -/
def execAddHlRr (rr : Reg16) (s : State) : Result :=
  .next (((s.setHl (add16 s.hl (s.pair rr)).res).setFlags (addHlFlags s.hl (s.pair rr) s.flags)).cost (s.quantaOf (.addHlRr rr)))

/-- `INC rr` (R221): no flag. -/
def execIncRr (rr : Reg16) (s : State) : Result := .next ((s.setPair rr (s.pair rr + 1)).cost (s.quantaOf (.incRr rr)))

/-- `DEC rr` (R222): no flag. -/
def execDecRr (rr : Reg16) (s : State) : Result := .next ((s.setPair rr (s.pair rr - 1)).cost (s.quantaOf (.decRr rr)))

/-- `ADD SP,e` (R223): flags as `LD HL,SP+e`. -/
def execAddSpE (e : Byte) (s : State) : Result :=
  .next (((s.setPair .sp (spPlus s.sp e)).setFlags (spPlusFlags s.sp e)).cost (s.quantaOf (.addSpE e)))

end Sys2Proof.Machine
end

