-- ==== Sys2Proof/Machine/Alu8.lean ====
section
/-! DEFINITION. 8-bit arithmetic and logic, `INC`, `DEC`, `DAA`, `CPL`, `SCF`, `CCF` (42_alu8.md). -/

namespace Sys2Proof.Machine

/-- `ADD A,r` (R181). -/
def execAddAR (r : Reg8) (s : State) : Result := .next ((aluEffect .add (s.reg r) s).cost (s.quantaOf (.addAR r)))

/-- `ADD A,(HL)` (R182). -/
def execAddAAtHl (s : State) : Result := .next ((aluEffect .add (atHl s) s).cost (s.quantaOf .addAAtHl))

/-- `ADD A,n` (R183). -/
def execAddAN (n : Byte) (s : State) : Result := .next ((aluEffect .add n s).cost (s.quantaOf (.addAN n)))

/-- `ADC A,r` (R184). -/
def execAdcAR (r : Reg8) (s : State) : Result := .next ((aluEffect .adc (s.reg r) s).cost (s.quantaOf (.adcAR r)))

/-- `ADC A,(HL)` (R185). -/
def execAdcAAtHl (s : State) : Result := .next ((aluEffect .adc (atHl s) s).cost (s.quantaOf .adcAAtHl))

/-- `ADC A,n` (R186). -/
def execAdcAN (n : Byte) (s : State) : Result := .next ((aluEffect .adc n s).cost (s.quantaOf (.adcAN n)))

/-- `SUB r` (R187). -/
def execSubR (r : Reg8) (s : State) : Result := .next ((aluEffect .sub (s.reg r) s).cost (s.quantaOf (.subR r)))

/-- `SUB (HL)` (R188). -/
def execSubAtHl (s : State) : Result := .next ((aluEffect .sub (atHl s) s).cost (s.quantaOf .subAtHl))

/-- `SUB n` (R189). -/
def execSubN (n : Byte) (s : State) : Result := .next ((aluEffect .sub n s).cost (s.quantaOf (.subN n)))

/-- `SBC A,r` (R190). -/
def execSbcAR (r : Reg8) (s : State) : Result := .next ((aluEffect .sbc (s.reg r) s).cost (s.quantaOf (.sbcAR r)))

/-- `SBC A,(HL)` (R191). -/
def execSbcAAtHl (s : State) : Result := .next ((aluEffect .sbc (atHl s) s).cost (s.quantaOf .sbcAAtHl))

/-- `SBC A,n` (R192). -/
def execSbcAN (n : Byte) (s : State) : Result := .next ((aluEffect .sbc n s).cost (s.quantaOf (.sbcAN n)))

/-- `AND r` (R193). -/
def execAndR (r : Reg8) (s : State) : Result := .next ((aluEffect .and (s.reg r) s).cost (s.quantaOf (.andR r)))

/-- `AND (HL)` (R194). -/
def execAndAtHl (s : State) : Result := .next ((aluEffect .and (atHl s) s).cost (s.quantaOf .andAtHl))

/-- `AND n` (R195). -/
def execAndN (n : Byte) (s : State) : Result := .next ((aluEffect .and n s).cost (s.quantaOf (.andN n)))

/-- `XOR r` (R196). -/
def execXorR (r : Reg8) (s : State) : Result := .next ((aluEffect .xor (s.reg r) s).cost (s.quantaOf (.xorR r)))

/-- `XOR (HL)` (R197). -/
def execXorAtHl (s : State) : Result := .next ((aluEffect .xor (atHl s) s).cost (s.quantaOf .xorAtHl))

/-- `XOR n` (R198). -/
def execXorN (n : Byte) (s : State) : Result := .next ((aluEffect .xor n s).cost (s.quantaOf (.xorN n)))

/-- `OR r` (R199). -/
def execOrR (r : Reg8) (s : State) : Result := .next ((aluEffect .or (s.reg r) s).cost (s.quantaOf (.orR r)))

/-- `OR (HL)` (R200). -/
def execOrAtHl (s : State) : Result := .next ((aluEffect .or (atHl s) s).cost (s.quantaOf .orAtHl))

/-- `OR n` (R201). -/
def execOrN (n : Byte) (s : State) : Result := .next ((aluEffect .or n s).cost (s.quantaOf (.orN n)))

/-- `CP r` (R202). -/
def execCpR (r : Reg8) (s : State) : Result := .next ((aluEffect .cp (s.reg r) s).cost (s.quantaOf (.cpR r)))

/-- `CP (HL)` (R203). -/
def execCpAtHl (s : State) : Result := .next ((aluEffect .cp (atHl s) s).cost (s.quantaOf .cpAtHl))

/-- `CP n` (R204). -/
def execCpN (n : Byte) (s : State) : Result := .next ((aluEffect .cp n s).cost (s.quantaOf (.cpN n)))

/-- `INC r` (R205). -/
def execIncR (r : Reg8) (s : State) : Result :=
  .next (((s.setReg r (incByte (s.reg r))).setFlags (incFlags (s.reg r) s.flags)).cost (s.quantaOf (.incR r)))

/-- `INC (HL)` (R206): a dropped write still sets the flags. -/
def execIncAtHl (s : State) : Result :=
  .next (((writeByte s s.hl (incByte (atHl s))).setFlags (incFlags (atHl s) s.flags)).cost (s.quantaOf .incAtHl))

/-- `DEC r` (R207). -/
def execDecR (r : Reg8) (s : State) : Result :=
  .next (((s.setReg r (decByte (s.reg r))).setFlags (decFlags (s.reg r) s.flags)).cost (s.quantaOf (.decR r)))

/-- `DEC (HL)` (R208): a dropped write still sets the flags. -/
def execDecAtHl (s : State) : Result :=
  .next (((writeByte s s.hl (decByte (atHl s))).setFlags (decFlags (atHl s) s.flags)).cost (s.quantaOf .decAtHl))

/-- `DAA` (R209). -/
def execDaa (s : State) : Result :=
  .next (((s.setReg .a (daaResult s.regs.a s.flags)).setFlags (daaFlags s.regs.a s.flags)).cost (s.quantaOf .daa))

/-- `CPL` (R210): fZ and fC are kept. -/
def execCpl (s : State) : Result :=
  .next (((s.setReg .a (s.regs.a ^^^ 0xFF)).setFlags { s.flags with n := true, h := true }).cost (s.quantaOf .cpl))

/-- `SCF` (R211): fZ is kept. -/
def execScf (s : State) : Result := .next ((s.setFlags { s.flags with n := false, h := false, c := true }).cost (s.quantaOf .scf))

/-- `CCF` (R212): fZ is kept. -/
def execCcf (s : State) : Result :=
  .next ((s.setFlags { s.flags with n := false, h := false, c := !s.flags.c }).cost (s.quantaOf .ccf))

end Sys2Proof.Machine
end

