-- ==== Sys2Proof/Machine/Control.lean ====
section
/-! DEFINITION. Jumps, calls, returns and restarts (45_control_flow.md). -/

namespace Sys2Proof.Machine

/-- `JP nn` (R261). -/
def execJpNn (nn : Word) (s : State) : Result := .next ((s.setPc nn).cost (s.quantaOf (.jpNn nn)))

/-- `JP cc,nn` (R262). -/
def execJpCcNn (cc : Cond) (nn : Word) (s : State) : Result :=
  .next (if condHolds cc s.flags then (s.setPc nn).cost (s.quantaOf (.jpCcNn cc nn)) else s.cost (s.quantaOf (.jpCcNn cc nn) false))

/-- `JR e` (R263). -/
def execJrE (e : Byte) (s : State) : Result := .next ((s.setPc (jrTarget e s)).cost (s.quantaOf (.jrE e)))

/-- `JR cc,e` (R264). -/
def execJrCcE (cc : Cond) (e : Byte) (s : State) : Result :=
  .next (if condHolds cc s.flags then (s.setPc (jrTarget e s)).cost (s.quantaOf (.jrCcE cc e)) else s.cost (s.quantaOf (.jrCcE cc e) false))

/-- `JP HL` (R265): the target is HL itself, no memory access. -/
def execJpHl (s : State) : Result := .next ((s.setPc s.hl).cost (s.quantaOf .jpHl))

/-- `CALL nn` (R266). -/
def execCallNn (nn : Word) (s : State) : Result := .next ((callTo nn s).cost (s.quantaOf (.callNn nn)))

/-- `CALL cc,nn` (R267): not taken touches neither SP nor memory. -/
def execCallCcNn (cc : Cond) (nn : Word) (s : State) : Result :=
  .next (if condHolds cc s.flags then (callTo nn s).cost (s.quantaOf (.callCcNn cc nn)) else s.cost (s.quantaOf (.callCcNn cc nn) false))

/-- `RET` (R268). -/
def execRet (s : State) : Result := .next ((returnFromCall s).cost (s.quantaOf .ret))

/-- `RET cc` (R269). -/
def execRetCc (cc : Cond) (s : State) : Result :=
  .next (if condHolds cc s.flags then (returnFromCall s).cost (s.quantaOf (.retCc cc)) else s.cost (s.quantaOf (.retCc cc) false))

/-- `RETI` (R270): IME becomes 1 at once. -/
def execReti (s : State) : Result := .next ((returnFromInterrupt s).cost (s.quantaOf .reti))

/-- `RST t` (R271). -/
def execRstT (t : Fin 8) (s : State) : Result := .next ((callTo (rstTarget t) s).cost (s.quantaOf (.rstT t)))

end Sys2Proof.Machine
end

