-- ==== Sys2Proof/Machine/Load16.lean ====
section
/-! DEFINITION. The 16-bit loads, `PUSH` and `POP` (41_load16.md). -/

namespace Sys2Proof.Machine

/-- `LD rr,nn` (R160). -/
def execLdRrNn (rr : Reg16) (nn : Word) (s : State) : Result := .next ((s.setPair rr nn).cost (s.quantaOf (.ldRrNn rr nn)))

/-- `LD (nn),SP` (R161): low byte first. -/
def execLdNnSp (nn : Word) (s : State) : Result := .next ((writeWord s nn s.sp).cost (s.quantaOf (.ldNnSp nn)))

/-- `LD SP,HL` (R162). -/
def execLdSpHl (s : State) : Result := .next ((s.setPair .sp s.hl).cost (s.quantaOf .ldSpHl))

/-- `LD HL,SP+e` (R163): the flags are those of adding the raw byte to the low byte of SP. -/
def execLdHlSpE (e : Byte) (s : State) : Result :=
  .next (((s.setHl (spPlus s.sp e)).setFlags (spPlusFlags s.sp e)).cost (s.quantaOf (.ldHlSpE e)))

/-- `PUSH rr` (R164). -/
def execPushRr (qq : StkReg) (s : State) : Result := .next ((push16 (s.stkPair qq) s).cost (s.quantaOf (.pushRr qq)))

/-- `PUSH AF` (R165). -/
def execPushAf (s : State) : Result := .next ((push16 s.af s).cost (s.quantaOf .pushAf))

/-- `POP rr` (R166). -/
def execPopRr (qq : StkReg) (s : State) : Result :=
  .next (((dropWord s).setStkPair qq (stackTop s)).cost (s.quantaOf (.popRr qq)))

/-- `POP AF` (R167): the low nibble of the popped byte is dropped. -/
def execPopAf (s : State) : Result := .next (((dropWord s).setAf (stackTop s)).cost (s.quantaOf .popAf))

end Sys2Proof.Machine
end

