-- ==== Sys2Proof/Machine/Load8.lean ====
section
/-! DEFINITION. The 8-bit loads (40_load8.md). In every meaning of the model PC already points past the instruction
(30_encoding.md R105) and `cost` records the quanta that `CYCLES` gives the instruction (R9, R16, R450). -/

namespace Sys2Proof.Machine

/-- `LD r,r'` (R130). -/
def execLdRR (r r' : Reg8) (s : State) : Result := .next ((s.setReg r (s.reg r')).cost (s.quantaOf (.ldRR r r')))

/-- `LD r,n` (R131). -/
def execLdRN (r : Reg8) (n : Byte) (s : State) : Result := .next ((s.setReg r n).cost (s.quantaOf (.ldRN r n)))

/-- `LD r,(HL)` (R132): the address is formed before the register is written. -/
def execLdRAtHl (r : Reg8) (s : State) : Result := .next ((s.setReg r (atHl s)).cost (s.quantaOf (.ldRAtHl r)))

/-- `LD (HL),r` (R133). -/
def execLdAtHlR (r : Reg8) (s : State) : Result := .next ((writeByte s s.hl (s.reg r)).cost (s.quantaOf (.ldAtHlR r)))

/-- `LD (HL),n` (R134). -/
def execLdAtHlN (n : Byte) (s : State) : Result := .next ((writeByte s s.hl n).cost (s.quantaOf (.ldAtHlN n)))

/-- `LD A,(BC)` (R135). -/
def execLdABc (s : State) : Result := .next ((loadA (readByte s s.bc) s).cost (s.quantaOf .ldABc))

/-- `LD A,(DE)` (R136). -/
def execLdADe (s : State) : Result := .next ((loadA (readByte s s.de) s).cost (s.quantaOf .ldADe))

/-- `LD (BC),A` (R137). -/
def execLdBcA (s : State) : Result := .next ((storeA s.bc s).cost (s.quantaOf .ldBcA))

/-- `LD (DE),A` (R138). -/
def execLdDeA (s : State) : Result := .next ((storeA s.de s).cost (s.quantaOf .ldDeA))

/-- `LD A,(nn)` (R139). -/
def execLdANn (nn : Word) (s : State) : Result := .next ((loadA (readByte s nn) s).cost (s.quantaOf (.ldANn nn)))

/-- `LD (nn),A` (R140). -/
def execLdNnA (nn : Word) (s : State) : Result := .next ((storeA nn s).cost (s.quantaOf (.ldNnA nn)))

/-- `LDH A,(C)` (R141). -/
def execLdhAC (s : State) : Result := .next ((loadA (readByte s (highPage s.regs.c)) s).cost (s.quantaOf .ldhAC))

/-- `LDH (C),A` (R142). -/
def execLdhCA (s : State) : Result := .next ((storeA (highPage s.regs.c) s).cost (s.quantaOf .ldhCA))

/-- `LDH A,(n)` (R143). -/
def execLdhAN (n : Byte) (s : State) : Result := .next ((loadA (readByte s (highPage n)) s).cost (s.quantaOf (.ldhAN n)))

/-- `LDH (n),A` (R144). -/
def execLdhNA (n : Byte) (s : State) : Result := .next ((storeA (highPage n) s).cost (s.quantaOf (.ldhNA n)))

/-- `LD A,(HL+)` (R145). -/
def execLdAHlInc (s : State) : Result := .next (((loadA (atHl s) s).setHl (s.hl + 1)).cost (s.quantaOf .ldAHlInc))

/-- `LD A,(HL-)` (R146). -/
def execLdAHlDec (s : State) : Result := .next (((loadA (atHl s) s).setHl (s.hl - 1)).cost (s.quantaOf .ldAHlDec))

/-- `LD (HL+),A` (R147). -/
def execLdHlIncA (s : State) : Result := .next (((storeA s.hl s).setHl (s.hl + 1)).cost (s.quantaOf .ldHlIncA))

/-- `LD (HL-),A` (R148). -/
def execLdHlDecA (s : State) : Result := .next (((storeA s.hl s).setHl (s.hl - 1)).cost (s.quantaOf .ldHlDecA))

end Sys2Proof.Machine
end

