-- ==== Sys2Proof/Machine/RotateBit.lean ====
section
/-! DEFINITION. Rotates, shifts, `SWAP`, `BIT`, `RES`, `SET` (44_rotate_shift_bit.md). On the 0xCB page the cost is that of the
whole two-byte instruction (46_system.md R285). -/

namespace Sys2Proof.Machine

/-- `RLCA` (R230): fZ is 0 whatever the result. -/
def execRlca (s : State) : Result := .next ((rotAEffect .rlc s).cost (s.quantaOf .rlca))

/-- `RRCA` (R231): fZ is 0 whatever the result. -/
def execRrca (s : State) : Result := .next ((rotAEffect .rrc s).cost (s.quantaOf .rrca))

/-- `RLA` (R232): fZ is 0 whatever the result. -/
def execRla (s : State) : Result := .next ((rotAEffect .rl s).cost (s.quantaOf .rla))

/-- `RRA` (R233): fZ is 0 whatever the result. -/
def execRra (s : State) : Result := .next ((rotAEffect .rr s).cost (s.quantaOf .rra))

/-- `RLC r` (R234). -/
def execRlcR (r : Reg8) (s : State) : Result := .next ((rotRegEffect .rlc r s).cost (s.quantaOf (.rlcR r)))

/-- `RLC (HL)` (R235): a dropped write still sets the flags. -/
def execRlcAtHl (s : State) : Result := .next ((rotAtHlEffect .rlc s).cost (s.quantaOf .rlcAtHl))

/-- `RRC r` (R236). -/
def execRrcR (r : Reg8) (s : State) : Result := .next ((rotRegEffect .rrc r s).cost (s.quantaOf (.rrcR r)))

/-- `RRC (HL)` (R237): a dropped write still sets the flags. -/
def execRrcAtHl (s : State) : Result := .next ((rotAtHlEffect .rrc s).cost (s.quantaOf .rrcAtHl))

/-- `RL r` (R238). -/
def execRlR (r : Reg8) (s : State) : Result := .next ((rotRegEffect .rl r s).cost (s.quantaOf (.rlR r)))

/-- `RL (HL)` (R239): a dropped write still sets the flags. -/
def execRlAtHl (s : State) : Result := .next ((rotAtHlEffect .rl s).cost (s.quantaOf .rlAtHl))

/-- `RR r` (R240). -/
def execRrR (r : Reg8) (s : State) : Result := .next ((rotRegEffect .rr r s).cost (s.quantaOf (.rrR r)))

/-- `RR (HL)` (R241): a dropped write still sets the flags. -/
def execRrAtHl (s : State) : Result := .next ((rotAtHlEffect .rr s).cost (s.quantaOf .rrAtHl))

/-- `SLA r` (R242). -/
def execSlaR (r : Reg8) (s : State) : Result := .next ((rotRegEffect .sla r s).cost (s.quantaOf (.slaR r)))

/-- `SLA (HL)` (R243): a dropped write still sets the flags. -/
def execSlaAtHl (s : State) : Result := .next ((rotAtHlEffect .sla s).cost (s.quantaOf .slaAtHl))

/-- `SRA r` (R244). -/
def execSraR (r : Reg8) (s : State) : Result := .next ((rotRegEffect .sra r s).cost (s.quantaOf (.sraR r)))

/-- `SRA (HL)` (R245): a dropped write still sets the flags. -/
def execSraAtHl (s : State) : Result := .next ((rotAtHlEffect .sra s).cost (s.quantaOf .sraAtHl))

/-- `SWAP r` (R246). -/
def execSwapR (r : Reg8) (s : State) : Result := .next ((rotRegEffect .swap r s).cost (s.quantaOf (.swapR r)))

/-- `SWAP (HL)` (R247): a dropped write still sets the flags. -/
def execSwapAtHl (s : State) : Result := .next ((rotAtHlEffect .swap s).cost (s.quantaOf .swapAtHl))

/-- `SRL r` (R248). -/
def execSrlR (r : Reg8) (s : State) : Result := .next ((rotRegEffect .srl r s).cost (s.quantaOf (.srlR r)))

/-- `SRL (HL)` (R249): a dropped write still sets the flags. -/
def execSrlAtHl (s : State) : Result := .next ((rotAtHlEffect .srl s).cost (s.quantaOf .srlAtHl))

/-- `BIT b,r` (R250). -/
def execBitBR (b : Fin 8) (r : Reg8) (s : State) : Result := .next ((bitEffect b (s.reg r) s).cost (s.quantaOf (.bitBR b r)))

/-- `BIT b,(HL)` (R251): read only. -/
def execBitBAtHl (b : Fin 8) (s : State) : Result := .next ((bitEffect b (atHl s) s).cost (s.quantaOf (.bitBAtHl b)))

/-- `RES b,r` (R252). -/
def execResBR (b : Fin 8) (r : Reg8) (s : State) : Result :=
  .next ((s.setReg r (clearBit b (s.reg r))).cost (s.quantaOf (.resBR b r)))

/-- `RES b,(HL)` (R253): the write is performed even when the value does not change. -/
def execResBAtHl (b : Fin 8) (s : State) : Result :=
  .next ((writeByte s s.hl (clearBit b (atHl s))).cost (s.quantaOf (.resBAtHl b)))

/-- `SET b,r` (R254). -/
def execSetBR (b : Fin 8) (r : Reg8) (s : State) : Result :=
  .next ((s.setReg r (setBit b (s.reg r))).cost (s.quantaOf (.setBR b r)))

/-- `SET b,(HL)` (R255): the write is performed even when the value does not change. -/
def execSetBAtHl (b : Fin 8) (s : State) : Result :=
  .next ((writeByte s s.hl (setBit b (atHl s))).cost (s.quantaOf (.setBAtHl b)))

end Sys2Proof.Machine
end

