-- ==== Sys2Proof/Machine/System.lean ====
section
/-! DEFINITION. `NOP`, `HALT`, `STOP`, `DI`, `EI`, the 0xCB prefix, the unassigned opcodes (46_system.md). -/

namespace Sys2Proof.Machine

/-- `NOP` (R280). -/
def execNop (s : State) : Result := .next (s.cost (s.quantaOf .nop))

/-- `HALT` (R281): the wake-up test is in the CPU step (R301). -/
def execHalt (s : State) : Result := .next (({ s with halted := true } : State).cost (s.quantaOf .halt))

/-- `STOP` (R282): its second byte was fetched and is ignored; no register changes. -/
def execStop (s : State) : Result := .next (({ s with status := .stopped } : State).cost (s.quantaOf (.stop 0)))

/-- `DI` (R283). -/
def execDi (s : State) : Result := .next ((disableInterrupts s).cost (s.quantaOf .di))

/-- `EI` (R284): with `EI_DELAY` = 1 the enable waits for the next instruction (R301). -/
def execEi (s : State) : Result :=
  .next ((if s.cfg.eiDelay then { s with imePending := true } else { s with ime := true } : State).cost (s.quantaOf .ei))

/-- `ILLEGAL`, an unassigned opcode (R286): the decode error, at cost 0. -/
def execIllegal (s : State) : Result := .next (raiseDecodeError s)

/-- The rotate or shift `y2` selects (R111). -/
def rotOpOfCode (y2 : BitVec 3) : RotOp :=
  match y2 with
  | 0 => .rlc
  | 1 => .rrc
  | 2 => .rl
  | 3 => .rr
  | 4 => .sla
  | 5 => .sra
  | 6 => .swap
  | _ => .srl

/-- The effect the second byte of a 0xCB-page instruction selects, by its fields `x2`, `y2`, `z2` (R111). -/
def cbPageEffect (op2 : Byte) (s : State) : State :=
  let b := indexOfCode (opY op2)
  match opX op2, reg8OfCode (opZ op2) with
  | 0, some r => rotRegEffect (rotOpOfCode (opY op2)) r s
  | 0, none => rotAtHlEffect (rotOpOfCode (opY op2)) s
  | 1, some r => bitEffect b (s.reg r) s
  | 1, none => bitEffect b (atHl s) s
  | 2, some r => s.setReg r (clearBit b (s.reg r))
  | 2, none => writeByte s s.hl (clearBit b (atHl s))
  | _, some r => s.setReg r (setBit b (s.reg r))
  | _, none => writeByte s s.hl (setBit b (atHl s))

/-- The prefix with its second byte (R285): "the step fetches `op2` and executes the 0xCB-page instruction it selects". The
decoder answers that instruction itself, so no step runs this term (log 12). -/
def execPrefixCb (op2 : Byte) (s : State) : Result := .next ((cbPageEffect op2 s).cost (s.quantaOf (.prefixCb op2)))

end Sys2Proof.Machine
end

