-- ==== Sys2Proof/Machine/Dispatch.lean ====
section
/-! DEFINITION. The meaning of each instruction: one arm for each constructor of Instr, one direct call of its meaning. -/

namespace Sys2Proof.Machine

def exec (i : Instr) (s : State) : Host.Outcome State Fault Refusal :=
  match i with
  | .nop => Sys2Proof.Machine.execNop s
  | .ldRrNn rr nn => Sys2Proof.Machine.execLdRrNn rr nn s
  | .ldBcA => Sys2Proof.Machine.execLdBcA s
  | .incRr rr => Sys2Proof.Machine.execIncRr rr s
  | .incR r => Sys2Proof.Machine.execIncR r s
  | .decR r => Sys2Proof.Machine.execDecR r s
  | .ldRN r n => Sys2Proof.Machine.execLdRN r n s
  | .rlca => Sys2Proof.Machine.execRlca s
  | .ldNnSp nn => Sys2Proof.Machine.execLdNnSp nn s
  | .addHlRr rr => Sys2Proof.Machine.execAddHlRr rr s
  | .ldABc => Sys2Proof.Machine.execLdABc s
  | .decRr rr => Sys2Proof.Machine.execDecRr rr s
  | .rrca => Sys2Proof.Machine.execRrca s
  | .stop _ => Sys2Proof.Machine.execStop s
  | .ldDeA => Sys2Proof.Machine.execLdDeA s
  | .rla => Sys2Proof.Machine.execRla s
  | .jrE e => Sys2Proof.Machine.execJrE e s
  | .ldADe => Sys2Proof.Machine.execLdADe s
  | .rra => Sys2Proof.Machine.execRra s
  | .jrCcE cc e => Sys2Proof.Machine.execJrCcE cc e s
  | .ldHlIncA => Sys2Proof.Machine.execLdHlIncA s
  | .daa => Sys2Proof.Machine.execDaa s
  | .ldAHlInc => Sys2Proof.Machine.execLdAHlInc s
  | .cpl => Sys2Proof.Machine.execCpl s
  | .ldHlDecA => Sys2Proof.Machine.execLdHlDecA s
  | .incAtHl => Sys2Proof.Machine.execIncAtHl s
  | .decAtHl => Sys2Proof.Machine.execDecAtHl s
  | .ldAtHlN n => Sys2Proof.Machine.execLdAtHlN n s
  | .scf => Sys2Proof.Machine.execScf s
  | .ldAHlDec => Sys2Proof.Machine.execLdAHlDec s
  | .ccf => Sys2Proof.Machine.execCcf s
  | .ldRR r r' => Sys2Proof.Machine.execLdRR r r' s
  | .ldRAtHl r => Sys2Proof.Machine.execLdRAtHl r s
  | .ldAtHlR r => Sys2Proof.Machine.execLdAtHlR r s
  | .halt => Sys2Proof.Machine.execHalt s
  | .addAR r => Sys2Proof.Machine.execAddAR r s
  | .addAAtHl => Sys2Proof.Machine.execAddAAtHl s
  | .adcAR r => Sys2Proof.Machine.execAdcAR r s
  | .adcAAtHl => Sys2Proof.Machine.execAdcAAtHl s
  | .subR r => Sys2Proof.Machine.execSubR r s
  | .subAtHl => Sys2Proof.Machine.execSubAtHl s
  | .sbcAR r => Sys2Proof.Machine.execSbcAR r s
  | .sbcAAtHl => Sys2Proof.Machine.execSbcAAtHl s
  | .andR r => Sys2Proof.Machine.execAndR r s
  | .andAtHl => Sys2Proof.Machine.execAndAtHl s
  | .xorR r => Sys2Proof.Machine.execXorR r s
  | .xorAtHl => Sys2Proof.Machine.execXorAtHl s
  | .orR r => Sys2Proof.Machine.execOrR r s
  | .orAtHl => Sys2Proof.Machine.execOrAtHl s
  | .cpR r => Sys2Proof.Machine.execCpR r s
  | .cpAtHl => Sys2Proof.Machine.execCpAtHl s
  | .retCc cc => Sys2Proof.Machine.execRetCc cc s
  | .popRr qq => Sys2Proof.Machine.execPopRr qq s
  | .jpCcNn cc nn => Sys2Proof.Machine.execJpCcNn cc nn s
  | .jpNn nn => Sys2Proof.Machine.execJpNn nn s
  | .callCcNn cc nn => Sys2Proof.Machine.execCallCcNn cc nn s
  | .pushRr qq => Sys2Proof.Machine.execPushRr qq s
  | .addAN n => Sys2Proof.Machine.execAddAN n s
  | .rstT t => Sys2Proof.Machine.execRstT t s
  | .ret => Sys2Proof.Machine.execRet s
  | .prefixCb op2 => Sys2Proof.Machine.execPrefixCb op2 s
  | .callNn nn => Sys2Proof.Machine.execCallNn nn s
  | .adcAN n => Sys2Proof.Machine.execAdcAN n s
  | .illegal _ => Sys2Proof.Machine.execIllegal s
  | .subN n => Sys2Proof.Machine.execSubN n s
  | .reti => Sys2Proof.Machine.execReti s
  | .sbcAN n => Sys2Proof.Machine.execSbcAN n s
  | .ldhNA n => Sys2Proof.Machine.execLdhNA n s
  | .ldhCA => Sys2Proof.Machine.execLdhCA s
  | .andN n => Sys2Proof.Machine.execAndN n s
  | .addSpE e => Sys2Proof.Machine.execAddSpE e s
  | .jpHl => Sys2Proof.Machine.execJpHl s
  | .ldNnA nn => Sys2Proof.Machine.execLdNnA nn s
  | .xorN n => Sys2Proof.Machine.execXorN n s
  | .ldhAN n => Sys2Proof.Machine.execLdhAN n s
  | .popAf => Sys2Proof.Machine.execPopAf s
  | .ldhAC => Sys2Proof.Machine.execLdhAC s
  | .di => Sys2Proof.Machine.execDi s
  | .pushAf => Sys2Proof.Machine.execPushAf s
  | .orN n => Sys2Proof.Machine.execOrN n s
  | .ldHlSpE e => Sys2Proof.Machine.execLdHlSpE e s
  | .ldSpHl => Sys2Proof.Machine.execLdSpHl s
  | .ldANn nn => Sys2Proof.Machine.execLdANn nn s
  | .ei => Sys2Proof.Machine.execEi s
  | .cpN n => Sys2Proof.Machine.execCpN n s
  | .rlcR r => Sys2Proof.Machine.execRlcR r s
  | .rlcAtHl => Sys2Proof.Machine.execRlcAtHl s
  | .rrcR r => Sys2Proof.Machine.execRrcR r s
  | .rrcAtHl => Sys2Proof.Machine.execRrcAtHl s
  | .rlR r => Sys2Proof.Machine.execRlR r s
  | .rlAtHl => Sys2Proof.Machine.execRlAtHl s
  | .rrR r => Sys2Proof.Machine.execRrR r s
  | .rrAtHl => Sys2Proof.Machine.execRrAtHl s
  | .slaR r => Sys2Proof.Machine.execSlaR r s
  | .slaAtHl => Sys2Proof.Machine.execSlaAtHl s
  | .sraR r => Sys2Proof.Machine.execSraR r s
  | .sraAtHl => Sys2Proof.Machine.execSraAtHl s
  | .swapR r => Sys2Proof.Machine.execSwapR r s
  | .swapAtHl => Sys2Proof.Machine.execSwapAtHl s
  | .srlR r => Sys2Proof.Machine.execSrlR r s
  | .srlAtHl => Sys2Proof.Machine.execSrlAtHl s
  | .bitBR b r => Sys2Proof.Machine.execBitBR b r s
  | .bitBAtHl b => Sys2Proof.Machine.execBitBAtHl b s
  | .resBR b r => Sys2Proof.Machine.execResBR b r s
  | .resBAtHl b => Sys2Proof.Machine.execResBAtHl b s
  | .setBR b r => Sys2Proof.Machine.execSetBR b r s
  | .setBAtHl b => Sys2Proof.Machine.execSetBAtHl b s

end Sys2Proof.Machine
end

