-- ==== Sys2Proof/Machine/Fetch.lean ====
section
/-! DEFINITION. Fetching an instruction (00_scope.md R14, 30_encoding.md R100, R105): the bytes at PC, PC + 1, PC + 2 are read
through the bus and decoded, and PC moves past the instruction. Reads have no side effect (R61), so reading the bytes together,
and bytes past the instruction's end, changes nothing (log 11). -/

namespace Sys2Proof.Machine

/-- The byte `k` addresses after PC, modulo 65,536 (R28, R100). -/
def fetchByte (s : State) (k : Nat) : Byte := readByte s (s.pc + BitVec.ofNat 16 k)

/-- The three bytes from PC on, as many as the longest instruction has (R100). -/
def fetchBytes (s : State) : List Byte := [fetchByte s 0, fetchByte s 1, fetchByte s 2]

/-- The instruction at PC (R118). -/
def fetchInstr (s : State) : Instr := decodeBytes (fetchByte s 0) (fetchByte s 1) (fetchByte s 2)

/-! ## Placing a program from outside (log 4) -/

/-- Make address `addr` read as `v`, where a byte is stored behind it: as the host's load does for ROM, past the boot overlay;
without a write's side effects elsewhere. Addresses that store nothing (unmapped, 0xFF50) and STAT's computed bits stay. -/
def placeByte (s : State) (addr : Word) (v : Byte) : State :=
  match busTarget addr with
  | .rom key =>
    { s with mem := memWrite s.mem key v, bootEnabled := s.bootEnabled && decide (0x100 ≤ key) }
  | .ram key => s.storeKey key v
  | .audio off => s.storeKey (audioBase + off) v
  | .port .div => { s with timer := { s.timer with div := v } }
  | .port .dma => { s with video := { s.video with dma := v } }
  | .port p => writePort p v s
  | .unmapped => s

/-- Place bytes at consecutive addresses modulo 65,536. -/
def placeBytes (addr : Word) : List Byte → State → State
  | [], s => s
  | v :: rest, s => placeBytes (addr + 1) rest (placeByte s addr v)

/-- A CPU that fetches at its next step: running, not halted, with an image loaded (R301). -/
def State.readyToFetch (s : State) : State := { s with status := .running, halted := false, romLoaded := true }

/-- `s` with the bytes of `w` at PC, about to be fetched. -/
def placeAtPc (s : State) (nbits w : Nat) : State := placeBytes s.pc (tableBytes nbits w) s.readyToFetch

end Sys2Proof.Machine
end

