-- ==== Sys2Proof/Machine/Timer.lean ====
section
/-! DEFINITION. The timer's tick (60_exceptions.md R341, R342). -/

namespace Sys2Proof.Machine

/-- `threshold(TAC[1:0])` in clock ticks (R342). -/
def timerThreshold (tac : Byte) : Nat :=
  match tac.extractLsb' 0 2 with
  | 0 => 1024
  | 1 => 16
  | 2 => 64
  | _ => 256

/-- The divider: every 256 accumulated ticks increment DIV and the remainder stays (R341). -/
def dividerTick (n : Nat) (t : Timer) : Timer :=
  { t with div := t.div + BitVec.ofNat 8 ((t.divAcc + n) / 256), divAcc := (t.divAcc + n) % 256 }

/-- One threshold crossing: TIMA increments, wrapping to 0 with `tima_overflow` set (R341). -/
def timaCrossing (t : Timer) : Timer :=
  if t.tima = 0xFF then { t with tima := 0x00, overflow := true } else { t with tima := t.tima + 1 }

/-- `k` crossings, one after another. -/
def timaCrossings : Nat → Timer → Timer
  | 0, t => t
  | k + 1, t => timaCrossings k (timaCrossing t)

/-- The counter while enabled: as many crossings as thresholds fit, the remainder kept (R341; log 15). -/
def counterTick (n : Nat) (t : Timer) : Timer :=
  if t.tac.getLsbD 2 then
    timaCrossings ((t.timaAcc + n) / timerThreshold t.tac)
      { t with timaAcc := (t.timaAcc + n) % timerThreshold t.tac }
  else t

/-- The delayed reload and request of an overflow in an earlier tick (R341). -/
def timerReload (s : State) : State :=
  if s.timer.overflow then
    requestInterrupt .timer { s with timer := { s.timer with tima := s.timer.tma, overflow := false } }
  else s

/-- `Timer.Tick(n)` (R341): divider, reload, counter, in this order. -/
def timerTick (n : Nat) (s : State) : State :=
  let s1 := timerReload { s with timer := dividerTick n s.timer }
  { s1 with timer := counterTick n s1.timer }

end Sys2Proof.Machine
end

