-- ==== Sys2Proof/Machine/Render.lean ====
section
/-! DEFINITION. Scanline rendering (61_ppu.md R390 to R399). -/

namespace Sys2Proof.Machine

/-- `VRAM[off]` (R390). -/
def vramByte (s : State) (off : Nat) : Byte := memRead s.mem (vramBase + off)

/-- `OAM[off]` (R395). -/
def oamByte (s : State) (off : Nat) : Byte := memRead s.mem (oamBase + off)

/-- `TilePixel(base, r, c)` (R391): the colour index of column `c`, the leftmost pixel in bit 7. -/
def tilePixel (s : State) (base r c : Nat) : Shade :=
  BitVec.ofBool ((vramByte s ((base + 2 * r + 1) % 0x2000)).getLsbD (7 - c)) ++
    BitVec.ofBool ((vramByte s ((base + 2 * r) % 0x2000)).getLsbD (7 - c))

/-- `Shade(pal, ci) = (pal >> (2 * ci)) & 3` (R394). -/
def shadeOf (pal : Byte) (ci : Shade) : Shade := pal.extractLsb' (2 * ci.toNat) 2

/-- Whether the window covers column `x` of line `ly` (R393). -/
def inWindow (v : Video) (ly x : Nat) : Bool :=
  v.lcdc.getLsbD 5 && decide (v.wy.toNat ≤ ly) && decide (v.wx.toNat ≤ x + 7)

/-- The tile-map base of LCDC bit `k` (R372). -/
def mapBase (v : Video) (k : Nat) : Nat := if v.lcdc.getLsbD k then 0x1C00 else 0x1800

/-- The VRAM offset of tile `t` of the background or window (R393): signed from 0x1000 on the alternate base. -/
def tileBase (v : Video) (t : Byte) : Nat :=
  if v.lcdc.getLsbD 4 then t.toNat * 16 else (0x1000 + signed8 t * 16).toNat

/-- The colour index at column `px`, row `py` of the tile map at `map` (R393). -/
def mapPixel (s : State) (map px py : Nat) : Shade :=
  tilePixel s (tileBase s.video (vramByte s (map + py / 8 * 32 + px / 8))) (py % 8) (px % 8)

/-- The colour index part of `BackgroundPixel(ly, x)` (R393). -/
def backgroundIndex (s : State) (ly x : Nat) : Shade :=
  let v := s.video
  if !v.lcdc.getLsbD 0 then 0
  else if inWindow v ly x then mapPixel s (mapBase v 6) (x + 7 - v.wx.toNat) (ly - v.wy.toNat)
  else mapPixel s (mapBase v 3) ((x + v.scx.toNat) % 256) ((ly + v.scy.toNat) % 256)

/-- The shade part of `BackgroundPixel(ly, x)` (R393): LCDC[0] = 0 gives shade 0, not BGP's shade of index 0. -/
def backgroundShade (s : State) (ly x : Nat) : Shade :=
  if !s.video.lcdc.getLsbD 0 then 0 else shadeOf s.video.bgp (backgroundIndex s ly x)

/-- The height of sprites (R396). -/
def spriteHeight (v : Video) : Nat := if v.lcdc.getLsbD 2 then 16 else 8

/-- The top row of OAM entry `i`, `Y - 16` (R395). -/
def spriteTop (s : State) (i : Nat) : Int := ((oamByte s (4 * i)).toNat : Int) - 16

/-- The left column of OAM entry `i`, `X - 8` (R395). -/
def spriteLeft (s : State) (i : Nat) : Int := ((oamByte s (4 * i + 1)).toNat : Int) - 8

/-- Whether entry `i` covers line `ly`, by its Y byte alone (R396). -/
def spriteOnLine (s : State) (ly i : Nat) : Bool :=
  decide (spriteTop s i ≤ ly) && decide ((ly : Int) < spriteTop s i + spriteHeight s.video)

/-- `SelectSprites(ly)` (R396): the first ten entries on the line, in table order. -/
def selectSprites (s : State) (ly : Nat) : List Nat :=
  if s.video.lcdc.getLsbD 1 then ((List.range 40).filter (spriteOnLine s ly)).take 10 else []

/-- The colour index entry `i` has at column `x` of line `ly`, 0 where it does not reach (R397): flips by flag bits 5 and 6,
16-row sprites with tile bit 0 cleared. -/
def spriteIndex (s : State) (ly x i : Nat) : Shade :=
  let f := oamByte s (4 * i + 3)
  if spriteLeft s i ≤ (x : Int) ∧ (x : Int) < spriteLeft s i + 8 then
    let dx := ((x : Int) - spriteLeft s i).toNat
    let dy := ((ly : Int) - spriteTop s i).toNat
    let c := if f.getLsbD 5 then 7 - dx else dx
    let r := if f.getLsbD 6 then spriteHeight s.video - 1 - dy else dy
    let t := oamByte s (4 * i + 2)
    let t' := if s.video.lcdc.getLsbD 2 then t &&& 0xFE else t
    tilePixel s (t'.toNat * 16) r c
  else 0

/-- The sprite palette of entry `i` (R395, flag bit 4). -/
def spritePalette (s : State) (i : Nat) : Byte :=
  if (oamByte s (4 * i + 3)).getLsbD 4 then s.video.obp1 else s.video.obp0

/-- `SpritePixel(S, ly, x, bgci)` (R397): the first entry with a non-transparent pixel decides; if its flag bit 7 is set it
yields to a background index that is not 0. `none` is `(false, 0)`. -/
def spritePixel (s : State) (ly x : Nat) (bgci : Shade) : List Nat → Option Shade
  | [] => none
  | i :: rest =>
    if spriteIndex s ly x i = 0 then spritePixel s ly x bgci rest
    else if (oamByte s (4 * i + 3)).getLsbD 7 ∧ bgci ≠ 0 then none
    else some (shadeOf (spritePalette s i) (spriteIndex s ly x i))

/-- The shade of column `x` of line `ly`, given the line's sprites (R392). -/
def linePixel (s : State) (sprites : List Nat) (ly x : Nat) : Shade :=
  (spritePixel s ly x (backgroundIndex s ly x) sprites).getD (backgroundShade s ly x)

/-- The 160 shades of line `ly` (R392). -/
def renderLine (s : State) (ly : Nat) : List Shade :=
  let sprites := selectSprites s ly
  (List.range 160).map (linePixel s sprites ly)

/-- `RenderScanline(ly)` (R392, R398): row `ly` of the framebuffer, and no other state. -/
def renderScanline (s : State) (ly : Nat) : State :=
  { s with video := { s.video with framebuffer := rowWrite s.video.framebuffer ly (renderLine s ly) } }

end Sys2Proof.Machine
end

