-- ==== Sys2Proof/Machine/VideoUnit.lean ====
section
/-! DEFINITION. The mode state machine of the video unit (61_ppu.md R384 to R387). -/

namespace Sys2Proof.Machine

/-- `StatRequest(b)` for `b` in 3 to 6 (R386): class 1 if `STAT[b]` is 1. -/
def statRequest (b : Nat) (s : State) : State :=
  if s.video.statEnable.getLsbD (b - 3) then requestInterrupt .status s else s

/-- The duration of a mode in clock ticks (R385). -/
def modeDuration : Mode → Nat
  | .oamSearch => 80
  | .pixelTransfer => 172
  | .hblank => 204
  | .vblank => 456

/-- Enter mode `m`, taking the duration of the mode left from `mode_clock` (R385). -/
def enterMode (m : Mode) (s : State) : State :=
  { s with video := { s.video with mode := m, modeClock := s.video.modeClock - modeDuration s.video.mode } }

/-- `LY <- v` (R385). -/
def State.setLy (s : State) (v : Byte) : State := { s with video := { s.video with ly := v } }

/-- The end of horizontal-blank (R385): the next line, vertical-blank from line 144 on. -/
def endHblank (s : State) : State :=
  if s.video.ly + 1 = 144 then
    statRequest 4 (requestInterrupt .vblank (enterMode .vblank (s.setLy (s.video.ly + 1))))
  else statRequest 5 (enterMode .oamSearch (s.setLy (s.video.ly + 1)))

/-- The end of a line of vertical-blank (R385): after line 153, line 0 and OAM-search. LY is compared as a number before it is
kept in 8 bits (log 16). -/
def endVblankLine (s : State) : State :=
  if s.video.ly.toNat + 1 > 153 then statRequest 5 (enterMode .oamSearch (s.setLy 0))
  else enterMode .vblank (s.setLy (s.video.ly + 1))

/-- What a transition out of the current mode does (R385). -/
def leaveMode (s : State) : State :=
  match s.video.mode with
  | .oamSearch => enterMode .pixelTransfer s
  | .pixelTransfer => statRequest 3 (enterMode .hblank (renderScanline s s.video.ly.toNat))
  | .hblank => endHblank s
  | .vblank => endVblankLine s

/-- `Transition()` (R385): `none` while `mode_clock` is below the current mode's duration. -/
def transition (s : State) : Option State :=
  if s.video.modeClock < modeDuration s.video.mode then none else some (leaveMode s)

/-- `repeat Transition() until it reports "none"` (R384), at most `fuel` times. -/
def runTransitions : Nat → State → State
  | 0, s => s
  | fuel + 1, s =>
    match transition s with
    | none => s
    | some t => runTransitions fuel t

/-- `CompareLine()` (R387). -/
def compareLine (s : State) : State :=
  let m := decide (s.video.ly = s.video.lyc)
  let s1 := if m ∧ !s.video.coincidence then statRequest 6 s else s
  { s1 with video := { s1.video with coincidence := m } }

/-- `mode_clock <- mode_clock + n` (R384). -/
def State.addClock (n : Nat) (s : State) : State := { s with video := { s.video with modeClock := s.video.modeClock + n } }

/-- More transitions than `n` more ticks can lead to: each takes at least 80 from `mode_clock` (log 14). -/
def transitionFuel (n : Nat) (s : State) : Nat := (s.video.modeClock + n) / 80 + 1

/-- `PPU.Tick(n)` (R384). -/
def videoTick (n : Nat) (s : State) : State := compareLine (runTransitions (transitionFuel n s) (s.addClock n))

end Sys2Proof.Machine
end

