-- ==== Sys2Proof/Machine/Phases.lean ====
section
/-! DEFINITION. The CPU step and the three phases of a MachineStep (60_exceptions.md R300, R301). -/

namespace Sys2Proof.Machine

/-- The wake-up test of a halted CPU, which does not read IME (R281). -/
def wakes (s : State) : Bool := decide (pendingMask s ≠ 0)

/-- Whether the instruction raises the decode error (R286, R330). -/
def raisesDecodeError : Instr → Bool
  | .illegal _ => true
  | _ => false

/-- The end of the delay of `EI` (R284, R301): `arm` is `ime_pending` before the instruction. -/
def armIme (arm : Bool) (s : State) : State :=
  if arm && s.imePending then { s with ime := true, imePending := false } else s

/-- What follows the instruction `i` inside the CPU step: nothing after a decode error, else the arming of IME (R301). -/
def afterInstr (i : Instr) (arm : Bool) (s : State) : State := if raisesDecodeError i then s else armIme arm s

/-- Apply `f` to the next state of an outcome. -/
def mapNext (f : State → State) : Result → Result
  | .next s => .next (f s)
  | .fault r => .fault r
  | .refused r => .refused r

/-- Fetch, decode and execute one instruction (R301), from a CPU that is not halted. -/
def runInstr (s : State) : Result :=
  mapNext (afterInstr (fetchInstr s) s.imePending) (exec (fetchInstr s) (s.advance (fetchInstr s).length))

/-- `CPU.Step` (R301): not RUNNING, it costs 0; no image sets STOPPED at cost 0; a halted CPU with nothing to wake it costs 1
quantum; otherwise one instruction runs. `quanta` of the answer is the cost. -/
def cpuStep (s : State) : Result :=
  if s.status ≠ .running then .next (s.cost 0)
  else if !s.romLoaded then .next (({ s with status := .stopped } : State).cost 0)
  else if s.halted && !wakes s then .next (s.cost 1)
  else runInstr { s with halted := false }

/-- The tick phase (R300): timer, then video unit, by 4 clock ticks a quantum (R16). -/
def tickPhase (s : State) : State := videoTick (4 * s.quanta) (timerTick (4 * s.quanta) s)

/-- The dispatch phase (R300): at most one interrupt, only while RUNNING with IME = 1. -/
def dispatchPhase (s : State) : State :=
  if s.status = .running ∧ s.ime then
    match getPending s with
    | some k => dispatchInterrupt k s
    | none => s
  else s

/-- One MachineStep (R300). -/
def machineStep (s : State) : Result := mapNext (fun t => dispatchPhase (tickPhase t)) (cpuStep s)

/-- One MachineStep while RUNNING. In the other statuses "no MachineStep happens: the machine is at rest" (R300), and what is left
is the driver's call of `CPU.Step`, which returns 0 (R301; log 6). -/
def stepOrRest (s : State) : Result := if s.status = .running then machineStep s else cpuStep s

end Sys2Proof.Machine
end

