-- ==== Sys2Proof/Machine/Step.lean ====
section
/-! DEFINITION. One step of the machine, and the state whose next step runs a given instruction. -/

namespace Sys2Proof.Machine

/-- One MachineStep (60_exceptions.md R300). -/
def step (s : State) : Host.Outcome State Fault Refusal := stepOrRest s

/-- `s` with the instruction of `w` stored where the next step fetches (log 4). -/
def State.withFetchWord (s : State) (nbits w : Nat) : State := placeAtPc s nbits w

end Sys2Proof.Machine
end

