-- ==== Sys2Proof/Machine/HostOps.lean ====
section
/-! DEFINITION. The host operations (70_reset_and_hazards.md R445 to R447), each a function on states that the host applies
between two steps. No step of the machine applies one (log 10). -/

namespace Sys2Proof.Machine

/-- `R` of R446: every item of R44 that has a reset value, except status. The arrays, the framebuffer, JOYP, AUDIO and
`boot_enabled` keep their contents. -/
def State.resetValues (s : State) : State :=
  { s with
    regs := State.reset.regs
    flags := State.reset.flags
    pc := State.reset.pc
    sp := State.reset.sp
    ime := State.reset.ime
    imePending := State.reset.imePending
    halted := State.reset.halted
    ie := State.reset.ie
    ifl := State.reset.ifl
    timer := Timer.reset
    video := { Video.reset with framebuffer := s.video.framebuffer } }

/-- `start()` (R446). -/
def hostStart (s : State) : State := { s with status := .running }

/-- `pause()` (R446). -/
def hostPause (s : State) : State := { s with status := .paused }

/-- `stop()` (R446). -/
def hostStop (s : State) : State := ({ s with status := .stopped } : State).resetValues

/-- `reset()` is `stop()` then `start()` (R446). -/
def hostReset (s : State) : State := hostStart (hostStop s)

/-- The cells of an image from key `k` on; bytes at offsets 0x8000 and above are ignored (R66). -/
def imageCells : Nat → List Byte → Memory
  | _, [] => []
  | k, v :: rest => if k < 0x8000 then sparseCons unlistedByte (k, v) (imageCells (k + 1) rest) else []

/-- Replace ROM0 and ROMN by an image, padded with 0x00 (R66). -/
def loadImage (image : List Byte) (m : Memory) : Memory :=
  imageCells 0 image ++ m.filter (fun cell => decide (0x8000 ≤ cell.1))

/-- `loadRom(bytes)` (R446). -/
def hostLoadRom (image : List Byte) (s : State) : State :=
  hostReset { s with mem := loadImage image s.mem, romLoaded := true }

/-- The host replaces JOYP (R80, R445). -/
def hostSetJoyp (v : Byte) (s : State) : State := { s with joyp := v }

end Sys2Proof.Machine
end

