-- ==== Sys2Proof/Machine/Observe.lean ====
section
/-! DEFINITION. What is observable of a run (70_reset_and_hazards.md R448): its final state or the state after a stated number of
MachineSteps, the clock ticks it consumes, the framebuffers at the moments LY becomes 144. -/

namespace Sys2Proof.Machine

/-- The contents of the framebuffer: its rows that are not all shade 0 (R399; log 8). -/
abbrev Frame := List (Nat × List Shade)

/-- The machine is at rest: no MachineStep is taken (R302, R338). -/
def atRest (s : State) : Prop := s.status ≠ .running

/-- The state `n` MachineSteps later, if each answers a next state. -/
def stepsFrom : Nat → State → Option State
  | 0, s => some s
  | n + 1, s =>
    match step s with
    | .next t => stepsFrom n t
    | .fault _ => none
    | .refused _ => none

/-- The states in which the first `n` steps from `s` begin. -/
def statesFrom : Nat → State → List State
  | 0, _ => []
  | n + 1, s =>
    s :: match step s with
      | .next t => statesFrom n t
      | .fault _ => []
      | .refused _ => []

/-- The run from `s` is over after `n` steps, in `t`: the first state whose status is STOPPED (R302, R448). -/
def runEndsAt (s : State) (n : Nat) (t : State) : Prop :=
  stepsFrom n s = some t ∧ t.status = .stopped ∧ ∀ m u, m < n → stepsFrom m s = some u → u.status ≠ .stopped

/-- The value `CPU.Step` returns in `s`, in clock ticks (R301, R448). -/
def stepTicks (s : State) : Nat :=
  match cpuStep s with
  | .next t => 4 * t.quanta
  | .fault _ => 0
  | .refused _ => 0

/-- The framebuffers at the moments LY becomes 144 while transitions run as in `runTransitions` (R385, R448). -/
def framesOfTransitions : Nat → State → List Frame
  | 0, _ => []
  | fuel + 1, s =>
    match transition s with
    | none => []
    | some t => (if s.video.ly ≠ 144 ∧ t.video.ly = 144 then [t.video.framebuffer] else []) ++ framesOfTransitions fuel t

/-- The framebuffers at the moments LY becomes 144 during `PPU.Tick(n)` (R384, R448). -/
def framesOfTick (n : Nat) (s : State) : List Frame :=
  framesOfTransitions (transitionFuel n s) (s.addClock n)

/-- The same during the MachineStep of `s`: its tick phase, if there is one (R300). -/
def stepFrames (s : State) : List Frame :=
  if s.status = .running then
    match cpuStep s with
    | .next t => framesOfTick (4 * t.quanta) (timerTick (4 * t.quanta) t)
    | .fault _ => []
    | .refused _ => []
  else []

/-- The total of clock ticks the first `n` steps from `s` consume (R448). -/
def runTicks (n : Nat) (s : State) : Nat := ((statesFrom n s).map stepTicks).sum

/-- The framebuffers the first `n` steps from `s` show, in order (R448). -/
def runFrames (n : Nat) (s : State) : List Frame := (statesFrom n s).flatMap stepFrames

end Sys2Proof.Machine
end

