-- ==== Sys2Proof/Safety.lean ====
section
/-! DEFINITION. What a sound state is (10_state.md R46 and the bounds of R31, R37, R68, R384): the invariant that claims about
runs use. -/

namespace Sys2Proof.Machine

/-- The keys of the backing bytes of R40 and R41: ROM, VRAM, ERAM, WRAM; OAM; AUDIO; HRAM. -/
def backedKey (k : Nat) : Prop :=
  k < 0xE000 ∨ (0xFE00 ≤ k ∧ k < 0xFEA0) ∨ (0xFF10 ≤ k ∧ k < 0xFF40) ∨ (0xFF80 ≤ k ∧ k < 0xFFFF)

/-- The byte arrays are in canonical form and hold only bytes that exist. -/
structure MemoryInv (m : Memory) : Prop where
  canonical : Memory.wf m
  backed : ∀ cell ∈ m, backedKey cell.1

/-- The timer's accumulators are bounded (R37, U38): `div_acc` by 256, `tima_acc` by the longest threshold. -/
structure TimerInv (t : Timer) : Prop where
  divAcc : t.divAcc < 256
  timaAcc : t.timaAcc < 1024

/-- The video unit (R46): LY is 0 to 153, vertical-blank is exactly lines 144 to 153, the mode clock is below the mode's
duration (R389), the framebuffer is in canonical form. -/
structure VideoInv (v : Video) : Prop where
  lyRange : v.ly.toNat ≤ 153
  vblankLines : v.mode = .vblank ↔ 144 ≤ v.ly.toNat
  modeClock : v.modeClock < modeDuration v.mode
  framebuffer : framebufferWf v.framebuffer

/-- A sound state. -/
structure State.Inv (s : State) : Prop where
  memory : MemoryInv s.mem
  timer : TimerInv s.timer
  video : VideoInv s.video
  /-- With `EI_DELAY` = 0, `ime_pending` is always 0 (R31). -/
  imePending : s.imePending = true → s.cfg.eiDelay = true
  /-- If `BOOT` is absent, `boot_enabled` is 0 (R68). -/
  boot : s.bootEnabled = true → s.cfg.boot.isSome = true

/-- The next MachineStep fetches an instruction: RUNNING, an image loaded, not halted or waking (R301). -/
def fetches (s : State) : Prop := s.status = .running ∧ s.romLoaded = true ∧ (s.halted = true → pendingMask s ≠ 0)

/-- Where in the frame of 70,224 clock ticks the video unit is (R388): line LY begins at `456 * LY`, its modes at 0, 80 and
252 within the line. -/
def framePosition (v : Video) : Nat :=
  456 * v.ly.toNat + v.modeClock +
    match v.mode with
    | .oamSearch => 0
    | .pixelTransfer => 80
    | .hblank => 252
    | .vblank => 0

/-! ## Addresses -/

/-- `e` is the echo address of the work-RAM address `w`, 0x2000 above it (R72). -/
def isEcho (w e : Word) : Prop := 0xC000 ≤ w.toNat ∧ w.toNat < 0xDE00 ∧ e.toNat = w.toNat + 0x2000

/-- The two addresses are one location (R88). -/
def sameLocation (a b : Word) : Prop := a = b ∨ isEcho a b ∨ isEcho b a

/-- The addresses whose read value a store to `addr` may change: its own location; OAM, if `addr` is DMA (R378); the lowest
256 bytes, if `addr` is the boot-overlay disable (R83). -/
def storeReaches (addr b : Word) : Prop :=
  sameLocation addr b ∨ (addr = 0xFF46 ∧ 0xFE00 ≤ b.toNat ∧ b.toNat < 0xFEA0) ∨ (addr = 0xFF50 ∧ b.toNat < 0x100)

/-- The regions that are plain storage: VRAM, ERAM, WRAM, echo RAM, OAM, HRAM (R69 to R73, R76). -/
def plainRam (addr : Word) : Prop :=
  (0x8000 ≤ addr.toNat ∧ addr.toNat < 0xFEA0) ∨ (0xFF80 ≤ addr.toNat ∧ addr.toNat < 0xFFFF)

/-- The addresses without an owner: the gap (R74) and the empty I/O windows (R64, R75). -/
def unmappedAddr (addr : Word) : Prop :=
  (0xFEA0 ≤ addr.toNat ∧ addr.toNat < 0xFF00) ∨ (0xFF01 ≤ addr.toNat ∧ addr.toNat < 0xFF04) ∨
    (0xFF08 ≤ addr.toNat ∧ addr.toNat < 0xFF0F) ∨ (0xFF4C ≤ addr.toNat ∧ addr.toNat < 0xFF50) ∨
    (0xFF51 ≤ addr.toNat ∧ addr.toNat < 0xFF80)

/-! ## Frames -/

/-- Every byte the CPU can read is as before. -/
def readsSame (s t : State) : Prop := ∀ a, readByte t a = readByte s a

/-- Nothing but the CPU's registers (general registers, flags, PC, SP) and the recorded cost may differ. -/
structure OnlyRegisters (s t : State) : Prop where
  rest : t = { s with regs := t.regs, flags := t.flags, pc := t.pc, sp := t.sp, quanta := t.quanta }
  memory : readsSame s t

/-- The control state an instruction's effect on registers and memory leaves alone. -/
structure SameControl (s t : State) : Prop where
  ime : t.ime = s.ime
  imePending : t.imePending = s.imePending
  halted : t.halted = s.halted
  status : t.status = s.status
  romLoaded : t.romLoaded = s.romLoaded
  cfg : t.cfg = s.cfg

/-- The state no bus access reaches (R78, R82): the timer's hidden state but `div_acc`, and the video unit's. -/
structure SameHidden (s t : State) : Prop where
  timaAcc : t.timer.timaAcc = s.timer.timaAcc
  overflow : t.timer.overflow = s.timer.overflow
  ly : t.video.ly = s.video.ly
  mode : t.video.mode = s.video.mode
  modeClock : t.video.modeClock = s.video.modeClock
  coincidence : t.video.coincidence = s.video.coincidence
  framebuffer : t.video.framebuffer = s.video.framebuffer

/-- `t` is `s` after `MemWrite(addr, 1, v)` (R62), up to the CPU's registers and the cost: plain RAM reads back `v`, every
address the store does not reach reads as before. -/
structure StoresByte (s t : State) (addr : Word) (v : Byte) : Prop where
  write : t = { writeByte s addr v with regs := t.regs, flags := t.flags, pc := t.pc, sp := t.sp, quanta := t.quanta }
  value : plainRam addr → readByte t addr = v
  elsewhere : ∀ b, ¬ storeReaches addr b → readByte t b = readByte s b
  control : SameControl s t
  hidden : SameHidden s t

/-- `t` is `s` after two byte stores, the one at `a1` first (R13, R15). -/
structure StoresTwo (s t : State) (a1 : Word) (v1 : Byte) (a2 : Word) (v2 : Byte) : Prop where
  write : t = { writeByte (writeByte s a1 v1) a2 v2 with
    regs := t.regs, flags := t.flags, pc := t.pc, sp := t.sp, quanta := t.quanta }
  first : plainRam a1 → ¬ storeReaches a2 a1 → readByte t a1 = v1
  second : plainRam a2 → readByte t a2 = v2
  elsewhere : ∀ b, ¬ storeReaches a1 b → ¬ storeReaches a2 b → readByte t b = readByte s b
  control : SameControl s t
  hidden : SameHidden s t

/-- PC and SP are as before. -/
structure SamePointers (s t : State) : Prop where
  pc : t.pc = s.pc
  sp : t.sp = s.sp

/-- `t` is `s` with the 8-bit register `r` set to `v`, up to the flags and the cost. -/
structure SetsReg (s t : State) (r : Reg8) (v : Byte) : Prop where
  value : t.reg r = v
  others : ∀ x, x ≠ r → t.reg x = s.reg x
  pointers : SamePointers s t
  rest : OnlyRegisters s t

/-- `t` is `s` with the pair `rr` set to `w`, up to the flags and the cost. -/
structure SetsPair (s t : State) (rr : Reg16) (w : Word) : Prop where
  value : t.pair rr = w
  others : ∀ x, x ≠ rr → t.pair x = s.pair x
  a : t.regs.a = s.regs.a
  pc : t.pc = s.pc
  rest : OnlyRegisters s t

/-- `t` is `s`, up to the flags and the cost. -/
structure SetsFlagsOnly (s t : State) : Prop where
  regs : t.regs = s.regs
  pointers : SamePointers s t
  rest : OnlyRegisters s t

/-- `t` is `s` with PC at `target`, up to the cost. -/
structure Jumps (s t : State) (target : Word) : Prop where
  pc : t.pc = target
  regs : t.regs = s.regs
  flags : t.flags = s.flags
  sp : t.sp = s.sp
  rest : OnlyRegisters s t

/-- `t` is `s` after `Push16(PC); pc <- target`, up to the cost (R15, R266). -/
structure Calls (s t : State) (target : Word) : Prop where
  pc : t.pc = target
  sp : t.sp = s.sp - 2
  regs : t.regs = s.regs
  flags : t.flags = s.flags
  pushed : StoresTwo s t (s.sp - 1) (hi s.pc) (s.sp - 2) (lo s.pc)

/-- `t` is `s` after `pc <- Pop16()`, up to the cost and IME (R15, R268). -/
structure Returns (s t : State) : Prop where
  pc : t.pc = join (readByte s (s.sp + 1)) (readByte s s.sp)
  sp : t.sp = s.sp + 2
  regs : t.regs = s.regs
  flags : t.flags = s.flags
  memory : readsSame s t

/-! ## The instruction tables of the rules -/

/-- Every byte list that begins with `bytes` decodes to `i`, the bytes after them left over. -/
def Decodes (bytes : List Byte) (i : Instr) : Prop := ∀ rest, decode (bytes ++ rest) = .ok (i, rest)

/-- The cost recorded in `t` is what `CYCLES` gives the instruction with these bytes (R9, R451), which in the table of R450 is `q`;
`taken` is whether a conditional transfer's condition holds. -/
def Costs (s t : State) (bytes : List Byte) (q : Nat) (taken : Bool := true) : Prop :=
  t.quanta = s.cfg.cycles.quanta taken bytes ∧ (s.cfg.cycles = Cycles.reference → t.quanta = q)

/-- The four flags, each as a condition. -/
def FlagsAre (f : Flags) (z n h c : Prop) : Prop := (f.z = true ↔ z) ∧ (f.n = true ↔ n) ∧ (f.h = true ↔ h) ∧ (f.c = true ↔ c)

/-- Bit by bit, `r` is `f` of `a` and `v`. -/
def Bitwise (f : Bool → Bool → Bool) (a v r : Byte) : Prop := ∀ k, k < 8 → r.getLsbD k = f (a.getLsbD k) (v.getLsbD k)

/-- The table of R180 over numbers: from A = `a`, the operand `v` and the carry `c` to the new A and the flags. -/
def AluResult (op : AluOp) (a v : Byte) (c : Bool) (a' : Byte) (f : Flags) : Prop :=
  match op with
  | .add =>
    a'.toNat = (a.toNat + v.toNat) % 256 ∧
      FlagsAre f (a' = 0) False (a.toNat % 16 + v.toNat % 16 > 15) (a.toNat + v.toNat > 255)
  | .adc =>
    a'.toNat = (a.toNat + v.toNat + c.toNat) % 256 ∧
      FlagsAre f (a' = 0) False (a.toNat % 16 + v.toNat % 16 + c.toNat > 15) (a.toNat + v.toNat + c.toNat > 255)
  | .sub =>
    (a'.toNat + v.toNat) % 256 = a.toNat ∧ FlagsAre f (a = v) True (a.toNat % 16 < v.toNat % 16) (a.toNat < v.toNat)
  | .sbc =>
    (a'.toNat + v.toNat + c.toNat) % 256 = a.toNat ∧
      FlagsAre f (a' = 0) True (a.toNat % 16 < v.toNat % 16 + c.toNat) (a.toNat < v.toNat + c.toNat)
  | .and => Bitwise (fun x y => x && y) a v a' ∧ FlagsAre f (a' = 0) False True False
  | .xor => Bitwise (fun x y => x != y) a v a' ∧ FlagsAre f (a' = 0) False False False
  | .or => Bitwise (fun x y => x || y) a v a' ∧ FlagsAre f (a' = 0) False False False
  | .cp => a' = a ∧ FlagsAre f (a = v) True (a.toNat % 16 < v.toNat % 16) (a.toNat < v.toNat)

/-- The operation's number `y` (R180). -/
def aluCode : AluOp → BitVec 3
  | .add => 0 | .adc => 1 | .sub => 2 | .sbc => 3 | .and => 4 | .xor => 5 | .or => 6 | .cp => 7

/-- The register forms: `ADD A,r`, `ADC A,r`, `SUB r`, `SBC A,r`, `AND r`, `XOR r`, `OR r`, `CP r`. -/
def aluReg (r : Reg8) : AluOp → Instr
  | .add => .addAR r | .adc => .adcAR r | .sub => .subR r | .sbc => .sbcAR r
  | .and => .andR r | .xor => .xorR r | .or => .orR r | .cp => .cpR r

/-- The `(HL)` forms of the eight operations. -/
def aluAtHl : AluOp → Instr
  | .add => .addAAtHl | .adc => .adcAAtHl | .sub => .subAtHl | .sbc => .sbcAAtHl
  | .and => .andAtHl | .xor => .xorAtHl | .or => .orAtHl | .cp => .cpAtHl

/-- The immediate forms of the eight operations. -/
def aluImm (n : Byte) : AluOp → Instr
  | .add => .addAN n | .adc => .adcAN n | .sub => .subN n | .sbc => .sbcAN n
  | .and => .andN n | .xor => .xorN n | .or => .orN n | .cp => .cpN n

/-- Bit `k` of the result of a rotate or shift of `v` with carry-in `c` (R256). -/
def rotBit (op : RotOp) (v : Byte) (c : Bool) (k : Nat) : Bool :=
  match op with
  | .rlc => v.getLsbD ((k + 7) % 8)
  | .rrc => v.getLsbD ((k + 1) % 8)
  | .rl => if k = 0 then c else v.getLsbD (k - 1)
  | .rr => if k = 7 then c else v.getLsbD (k + 1)
  | .sla => if k = 0 then false else v.getLsbD (k - 1)
  | .sra => if k = 7 then v.getLsbD 7 else v.getLsbD (k + 1)
  | .swap => v.getLsbD ((k + 4) % 8)
  | .srl => if k = 7 then false else v.getLsbD (k + 1)

/-- The bit that leaves the byte (R256). -/
def rotOut (op : RotOp) (v : Byte) : Bool :=
  match op with
  | .rlc | .rl | .sla => v.getLsbD 7
  | .rrc | .rr | .sra | .srl => v.getLsbD 0
  | .swap => false

/-- `res` is the rotated or shifted byte. -/
def RotResult (op : RotOp) (v : Byte) (c : Bool) (res : Byte) : Prop := ∀ k, k < 8 → res.getLsbD k = rotBit op v c k

/-- The operation's number `y2` (R111). -/
def rotCode : RotOp → BitVec 3
  | .rlc => 0 | .rrc => 1 | .rl => 2 | .rr => 3 | .sla => 4 | .sra => 5 | .swap => 6 | .srl => 7

/-- `RLC r`, `RRC r`, `RL r`, `RR r`, `SLA r`, `SRA r`, `SWAP r`, `SRL r`. -/
def rotReg (r : Reg8) : RotOp → Instr
  | .rlc => .rlcR r | .rrc => .rrcR r | .rl => .rlR r | .rr => .rrR r
  | .sla => .slaR r | .sra => .sraR r | .swap => .swapR r | .srl => .srlR r

/-- The `(HL)` forms of the eight. -/
def rotAtHl : RotOp → Instr
  | .rlc => .rlcAtHl | .rrc => .rrcAtHl | .rl => .rlAtHl | .rr => .rrAtHl
  | .sla => .slaAtHl | .sra => .sraAtHl | .swap => .swapAtHl | .srl => .srlAtHl

/-- The instructions R23 lists as writing a flag. -/
def writesFlags : Instr → Bool
  | .addAR _ | .addAAtHl | .addAN _ | .adcAR _ | .adcAAtHl | .adcAN _ | .subR _ | .subAtHl | .subN _ | .sbcAR _ | .sbcAAtHl
  | .sbcAN _ | .andR _ | .andAtHl | .andN _ | .xorR _ | .xorAtHl | .xorN _ | .orR _ | .orAtHl | .orN _ | .cpR _ | .cpAtHl
  | .cpN _ | .incR _ | .incAtHl | .decR _ | .decAtHl | .daa | .cpl | .scf | .ccf | .addHlRr _ | .addSpE _ | .ldHlSpE _
  | .popAf | .rlca | .rrca | .rla | .rra | .rlcR _ | .rlcAtHl | .rrcR _ | .rrcAtHl | .rlR _ | .rlAtHl | .rrR _ | .rrAtHl
  | .slaR _ | .slaAtHl | .sraR _ | .sraAtHl | .swapR _ | .swapAtHl | .srlR _ | .srlAtHl | .bitBR _ _ | .bitBAtHl _
  | .prefixCb _ => true
  | .nop | .ldRrNn _ _ | .ldBcA | .incRr _ | .ldRN _ _ | .ldNnSp _ | .ldABc | .decRr _ | .stop _ | .ldDeA | .jrE _ | .ldADe
  | .jrCcE _ _ | .ldHlIncA | .ldAHlInc | .ldHlDecA | .ldAtHlN _ | .ldAHlDec | .ldRR _ _ | .ldRAtHl _ | .ldAtHlR _ | .halt
  | .retCc _ | .popRr _ | .jpCcNn _ _ | .jpNn _ | .callCcNn _ _ | .pushRr _ | .rstT _ | .ret | .callNn _ | .illegal _ | .reti
  | .ldhNA _ | .ldhCA | .jpHl | .ldNnA _ | .ldhAN _ | .ldhAC | .di | .pushAf | .ldSpHl | .ldANn _ | .ei | .resBR _ _
  | .resBAtHl _ | .setBR _ _ | .setBAtHl _ => false

/-! ## Rendering -/

/-- `ci` is `TilePixel(base, r, c)` (R391): bit 0 from the low plane, bit 1 from the high plane, read on the bus (VRAM is at 0x8000),
the leftmost pixel in bit 7. -/
def TilePixelIs (s : State) (base r c : Nat) (ci : Shade) : Prop :=
  ∀ k, k < 2 → ci.getLsbD k = (readByte s (BitVec.ofNat 16 (0x8000 + (base + 2 * r + k)))).getLsbD (7 - c)

/-- `shade` is `Shade(pal, ci)` (R394): bits `2 ci + 1` and `2 ci` of the palette. -/
def ShadeIs (pal : Byte) (ci shade : Shade) : Prop := ∀ k, k < 2 → shade.getLsbD k = pal.getLsbD (2 * ci.toNat + k)

end Sys2Proof.Machine
end

