-- ==== Sys2Proof/Certificates/Slice0/Obligations.lean ====
section
/-! DEFINITION. The statements for the provers. The vocabulary (frames, tables) is in Sys2Proof/Safety.lean. Where a statement
assumes `Memory.wf s.mem`, it is the canonical form that `StepKeepsSoundState` says every step keeps. Most of the rules named here
carry the spec's own mark `[from general knowledge, not in source]` or `[decision: …]` (log entry 1); `quanta`, the cost an
instruction records, is the model's field for R16's `cost(q)` (log entry 5). `Costs` says that it is what the parameter `CYCLES` gives
the opcode, and the number the rule states where `CYCLES` is the table of R450 (R9, D22; log entry 3). -/

open Sys2Proof Sys2Proof.Machine

/-! ## 8-bit loads -/

/-- R130, R131: `LD r,r'` and `LD r,n`. -/
def Obligations.RegisterLoadsSetOneRegister : Prop :=
  ∀ (s : State) (r r' : Reg8) (n : Byte),
    (Decodes [0b01#2 ++ reg8Code r ++ reg8Code r'] (.ldRR r r') ∧
      ∃ t, exec (.ldRR r r') s = .next t ∧ Costs s t [0b01#2 ++ reg8Code r ++ reg8Code r'] 1 ∧ SetsReg s t r (s.reg r') ∧
        t.flags = s.flags) ∧
    (Decodes [0b00#2 ++ reg8Code r ++ 0b110#3, n] (.ldRN r n) ∧
      ∃ t, exec (.ldRN r n) s = .next t ∧ Costs s t [0b00#2 ++ reg8Code r ++ 0b110#3, n] 2 ∧ SetsReg s t r n ∧ t.flags = s.flags)

/-- R132, R135, R136, R139, R141, R143: the loads of a register from memory. -/
def Obligations.MemoryLoadsReadTheAddressedByte : Prop :=
  ∀ (s : State) (r : Reg8) (n lo hi : Byte),
    (Decodes [0b01#2 ++ reg8Code r ++ 0b110#3] (.ldRAtHl r) ∧
      ∃ t, exec (.ldRAtHl r) s = .next t ∧ Costs s t [0b01#2 ++ reg8Code r ++ 0b110#3] 2 ∧ SetsReg s t r (readByte s s.hl) ∧
        t.flags = s.flags) ∧
    (Decodes [0x0A] .ldABc ∧
      ∃ t, exec .ldABc s = .next t ∧ Costs s t [0x0A] 2 ∧ SetsReg s t .a (readByte s s.bc) ∧ t.flags = s.flags) ∧
    (Decodes [0x1A] .ldADe ∧
      ∃ t, exec .ldADe s = .next t ∧ Costs s t [0x1A] 2 ∧ SetsReg s t .a (readByte s s.de) ∧ t.flags = s.flags) ∧
    (Decodes [0xFA, lo, hi] (.ldANn (hi ++ lo)) ∧
      ∃ t, exec (.ldANn (hi ++ lo)) s = .next t ∧ Costs s t [0xFA, lo, hi] 4 ∧ SetsReg s t .a (readByte s (hi ++ lo)) ∧
        t.flags = s.flags) ∧
    (Decodes [0xF2] .ldhAC ∧
      ∃ t, exec .ldhAC s = .next t ∧ Costs s t [0xF2] 2 ∧ SetsReg s t .a (readByte s (0xFF00 + s.regs.c.setWidth 16)) ∧
        t.flags = s.flags) ∧
    (Decodes [0xF0, n] (.ldhAN n) ∧
      ∃ t, exec (.ldhAN n) s = .next t ∧ Costs s t [0xF0, n] 3 ∧ SetsReg s t .a (readByte s (0xFF00 + n.setWidth 16)) ∧
        t.flags = s.flags)

/-- R133, R134, R137, R138, R140, R142, R144: the stores of one byte, with the frame of the store. -/
def Obligations.MemoryStoresWriteOneByte : Prop :=
  ∀ (s : State) (r : Reg8) (n lo hi : Byte), Memory.wf s.mem →
    (Decodes [0b01110#5 ++ reg8Code r] (.ldAtHlR r) ∧
      ∃ t, exec (.ldAtHlR r) s = .next t ∧ Costs s t [0b01110#5 ++ reg8Code r] 2 ∧ StoresByte s t s.hl (s.reg r) ∧
        t.regs = s.regs ∧ t.flags = s.flags ∧ SamePointers s t) ∧
    (Decodes [0x36, n] (.ldAtHlN n) ∧
      ∃ t, exec (.ldAtHlN n) s = .next t ∧ Costs s t [0x36, n] 3 ∧ StoresByte s t s.hl n ∧ t.regs = s.regs ∧ t.flags = s.flags ∧
        SamePointers s t) ∧
    (Decodes [0x02] .ldBcA ∧
      ∃ t, exec .ldBcA s = .next t ∧ Costs s t [0x02] 2 ∧ StoresByte s t s.bc s.regs.a ∧ t.regs = s.regs ∧ t.flags = s.flags ∧
        SamePointers s t) ∧
    (Decodes [0x12] .ldDeA ∧
      ∃ t, exec .ldDeA s = .next t ∧ Costs s t [0x12] 2 ∧ StoresByte s t s.de s.regs.a ∧ t.regs = s.regs ∧ t.flags = s.flags ∧
        SamePointers s t) ∧
    (Decodes [0xEA, lo, hi] (.ldNnA (hi ++ lo)) ∧
      ∃ t, exec (.ldNnA (hi ++ lo)) s = .next t ∧ Costs s t [0xEA, lo, hi] 4 ∧ StoresByte s t (hi ++ lo) s.regs.a ∧
        t.regs = s.regs ∧ t.flags = s.flags ∧ SamePointers s t) ∧
    (Decodes [0xE2] .ldhCA ∧
      ∃ t, exec .ldhCA s = .next t ∧ Costs s t [0xE2] 2 ∧ StoresByte s t (0xFF00 + s.regs.c.setWidth 16) s.regs.a ∧
        t.regs = s.regs ∧ t.flags = s.flags ∧ SamePointers s t) ∧
    (Decodes [0xE0, n] (.ldhNA n) ∧
      ∃ t, exec (.ldhNA n) s = .next t ∧ Costs s t [0xE0, n] 3 ∧ StoresByte s t (0xFF00 + n.setWidth 16) s.regs.a ∧
        t.regs = s.regs ∧ t.flags = s.flags ∧ SamePointers s t)

/-- R145 to R148: the loads and stores that also move HL; the address is HL before the move. -/
def Obligations.IncrementingLoadsMoveHl : Prop :=
  ∀ s : State, Memory.wf s.mem →
    (Decodes [0x2A] .ldAHlInc ∧
      ∃ t, exec .ldAHlInc s = .next t ∧ Costs s t [0x2A] 2 ∧ t.regs.a = readByte s s.hl ∧ t.hl = s.hl + 1 ∧ t.bc = s.bc ∧
        t.de = s.de ∧ t.flags = s.flags ∧ SamePointers s t ∧ OnlyRegisters s t) ∧
    (Decodes [0x3A] .ldAHlDec ∧
      ∃ t, exec .ldAHlDec s = .next t ∧ Costs s t [0x3A] 2 ∧ t.regs.a = readByte s s.hl ∧ t.hl = s.hl - 1 ∧ t.bc = s.bc ∧
        t.de = s.de ∧ t.flags = s.flags ∧ SamePointers s t ∧ OnlyRegisters s t) ∧
    (Decodes [0x22] .ldHlIncA ∧
      ∃ t, exec .ldHlIncA s = .next t ∧ Costs s t [0x22] 2 ∧ StoresByte s t s.hl s.regs.a ∧ t.regs.a = s.regs.a ∧ t.hl = s.hl + 1 ∧
        t.bc = s.bc ∧ t.de = s.de ∧ t.flags = s.flags ∧ SamePointers s t) ∧
    (Decodes [0x32] .ldHlDecA ∧
      ∃ t, exec .ldHlDecA s = .next t ∧ Costs s t [0x32] 2 ∧ StoresByte s t s.hl s.regs.a ∧ t.regs.a = s.regs.a ∧ t.hl = s.hl - 1 ∧
        t.bc = s.bc ∧ t.de = s.de ∧ t.flags = s.flags ∧ SamePointers s t)

/-! ## 16-bit loads and the stack -/

/-- R160, R162, R163: the 16-bit loads of a register. -/
def Obligations.PairLoadsSetOnePair : Prop :=
  ∀ (s : State) (rr : Reg16) (lo hi e : Byte),
    (Decodes [0b00#2 ++ reg16Code rr ++ 0b0001#4, lo, hi] (.ldRrNn rr (hi ++ lo)) ∧
      ∃ t, exec (.ldRrNn rr (hi ++ lo)) s = .next t ∧ Costs s t [0b00#2 ++ reg16Code rr ++ 0b0001#4, lo, hi] 3 ∧
        SetsPair s t rr (hi ++ lo) ∧ t.flags = s.flags) ∧
    (Decodes [0xF9] .ldSpHl ∧
      ∃ t, exec .ldSpHl s = .next t ∧ Costs s t [0xF9] 2 ∧ SetsPair s t .sp s.hl ∧ t.flags = s.flags) ∧
    (Decodes [0xF8, e] (.ldHlSpE e) ∧
      ∃ t, exec (.ldHlSpE e) s = .next t ∧ Costs s t [0xF8, e] 3 ∧
        SetsPair s t .hl (BitVec.ofInt 16 ((s.sp.toNat : Int) + e.toInt)) ∧
        FlagsAre t.flags False False (s.sp.toNat % 16 + e.toNat % 16 > 15) (s.sp.toNat % 256 + e.toNat > 255))

/-- R161, R164, R165, R441: the stores of two bytes. `LD (nn),SP` stores the low byte at nn, then the high byte at nn + 1; `PUSH`
stores the high byte one below SP, then the low byte two below, F with its low nibble 0; with SP = 0x0000 a push writes the high byte
to IE and the low byte to the last byte of HRAM (R441, which the spec marks as derived from R15 and R63). -/
def Obligations.WordStoresWriteTwoBytes : Prop :=
  ∀ (s : State) (qq : StkReg) (l h : Byte) (w : Word), Memory.wf s.mem →
    (Decodes [0x08, l, h] (.ldNnSp (h ++ l)) ∧
      ∃ t, exec (.ldNnSp (h ++ l)) s = .next t ∧ Costs s t [0x08, l, h] 5 ∧
        StoresTwo s t (h ++ l) (s.sp.extractLsb' 0 8) ((h ++ l) + 1) (s.sp.extractLsb' 8 8) ∧ t.regs = s.regs ∧
        t.flags = s.flags ∧ SamePointers s t) ∧
    (Decodes [0b11#2 ++ stkRegCode qq ++ 0b0101#4] (.pushRr qq) ∧
      ∃ t, exec (.pushRr qq) s = .next t ∧ Costs s t [0b11#2 ++ stkRegCode qq ++ 0b0101#4] 4 ∧ t.sp = s.sp - 2 ∧
        StoresTwo s t (s.sp - 1) ((s.stkPair qq).extractLsb' 8 8) (s.sp - 2) ((s.stkPair qq).extractLsb' 0 8) ∧
        t.regs = s.regs ∧ t.flags = s.flags ∧ t.pc = s.pc) ∧
    (Decodes [0xF5] .pushAf ∧
      ∃ t, exec .pushAf s = .next t ∧ Costs s t [0xF5] 4 ∧ t.sp = s.sp - 2 ∧
        StoresTwo s t (s.sp - 1) s.regs.a (s.sp - 2)
          (BitVec.ofBool s.flags.z ++ BitVec.ofBool s.flags.n ++ BitVec.ofBool s.flags.h ++ BitVec.ofBool s.flags.c ++ 0#4) ∧
        t.regs = s.regs ∧ t.flags = s.flags ∧ t.pc = s.pc) ∧
    (s.sp = 0 →
      (push16 w s).ie = w.extractLsb' 8 8 ∧ readByte (push16 w s) 0xFFFE = w.extractLsb' 0 8 ∧ (push16 w s).sp = 0xFFFE)

/-- R166, R167: `POP` reads the low byte at SP and the high byte above it; `POP AF` takes the flags from bits 7 to 4. -/
def Obligations.PopReadsTwoBytesAtSp : Prop :=
  ∀ (s : State) (qq : StkReg),
    (Decodes [0b11#2 ++ stkRegCode qq ++ 0b0001#4] (.popRr qq) ∧
      ∃ t, exec (.popRr qq) s = .next t ∧ Costs s t [0b11#2 ++ stkRegCode qq ++ 0b0001#4] 3 ∧ t.sp = s.sp + 2 ∧
        t.stkPair qq = readByte s (s.sp + 1) ++ readByte s s.sp ∧ (∀ x, x ≠ qq → t.stkPair x = s.stkPair x) ∧
        t.regs.a = s.regs.a ∧ t.flags = s.flags ∧ t.pc = s.pc ∧ OnlyRegisters s t) ∧
    (Decodes [0xF1] .popAf ∧
      ∃ t, exec .popAf s = .next t ∧ Costs s t [0xF1] 3 ∧ t.sp = s.sp + 2 ∧
        t.regs.a = readByte s (s.sp + 1) ∧ t.flags.z = (readByte s s.sp).getLsbD 7 ∧
        t.flags.n = (readByte s s.sp).getLsbD 6 ∧ t.flags.h = (readByte s s.sp).getLsbD 5 ∧
        t.flags.c = (readByte s s.sp).getLsbD 4 ∧ (∀ x, x ≠ .a → t.reg x = s.reg x) ∧ t.pc = s.pc ∧ OnlyRegisters s t)

/-! ## 8-bit arithmetic and logic -/

/-- R180 and the register form of each of the eight operations. -/
def Obligations.AluRegisterForms : Prop :=
  ∀ (s : State) (op : AluOp) (r : Reg8),
    Decodes [0b10#2 ++ aluCode op ++ reg8Code r] (aluReg r op) ∧
      ∃ t, exec (aluReg r op) s = .next t ∧ Costs s t [0b10#2 ++ aluCode op ++ reg8Code r] 1 ∧
        AluResult op s.regs.a (s.reg r) s.flags.c t.regs.a t.flags ∧ SetsReg s t .a t.regs.a

/-- R180 and the `(HL)` form of each of the eight operations. -/
def Obligations.AluMemoryForms : Prop :=
  ∀ (s : State) (op : AluOp),
    Decodes [0b10#2 ++ aluCode op ++ 0b110#3] (aluAtHl op) ∧
      ∃ t, exec (aluAtHl op) s = .next t ∧ Costs s t [0b10#2 ++ aluCode op ++ 0b110#3] 2 ∧
        AluResult op s.regs.a (readByte s s.hl) s.flags.c t.regs.a t.flags ∧ SetsReg s t .a t.regs.a

/-- R180 and the immediate form of each of the eight operations. -/
def Obligations.AluImmediateForms : Prop :=
  ∀ (s : State) (op : AluOp) (n : Byte),
    Decodes [0b11#2 ++ aluCode op ++ 0b110#3, n] (aluImm n op) ∧
      ∃ t, exec (aluImm n op) s = .next t ∧ Costs s t [0b11#2 ++ aluCode op ++ 0b110#3, n] 2 ∧
        AluResult op s.regs.a n s.flags.c t.regs.a t.flags ∧ SetsReg s t .a t.regs.a

/-- R205 to R208: `INC` and `DEC` on a register and on the byte at HL; fC is kept, and the flags describe the computed byte even
where the write is dropped. -/
def Obligations.IncDecByte : Prop :=
  ∀ (s : State) (r : Reg8), Memory.wf s.mem →
    (Decodes [0b00#2 ++ reg8Code r ++ 0b100#3] (.incR r) ∧
      ∃ t, exec (.incR r) s = .next t ∧ Costs s t [0b00#2 ++ reg8Code r ++ 0b100#3] 1 ∧
        SetsReg s t r (BitVec.ofNat 8 ((s.reg r).toNat + 1)) ∧
        FlagsAre t.flags ((s.reg r).toNat = 255) False ((s.reg r).toNat % 16 = 15) (s.flags.c = true)) ∧
    (Decodes [0b00#2 ++ reg8Code r ++ 0b101#3] (.decR r) ∧
      ∃ t, exec (.decR r) s = .next t ∧ Costs s t [0b00#2 ++ reg8Code r ++ 0b101#3] 1 ∧
        SetsReg s t r (BitVec.ofNat 8 ((s.reg r).toNat + 255)) ∧
        FlagsAre t.flags ((s.reg r).toNat = 1) True ((s.reg r).toNat % 16 = 0) (s.flags.c = true)) ∧
    (Decodes [0x34] .incAtHl ∧
      ∃ t, exec .incAtHl s = .next t ∧ Costs s t [0x34] 3 ∧ StoresByte s t s.hl (BitVec.ofNat 8 ((readByte s s.hl).toNat + 1)) ∧
        FlagsAre t.flags ((readByte s s.hl).toNat = 255) False ((readByte s s.hl).toNat % 16 = 15) (s.flags.c = true) ∧
        t.regs = s.regs ∧ SamePointers s t) ∧
    (Decodes [0x35] .decAtHl ∧
      ∃ t, exec .decAtHl s = .next t ∧ Costs s t [0x35] 3 ∧ StoresByte s t s.hl (BitVec.ofNat 8 ((readByte s s.hl).toNat + 255)) ∧
        FlagsAre t.flags ((readByte s s.hl).toNat = 1) True ((readByte s s.hl).toNat % 16 = 0) (s.flags.c = true) ∧
        t.regs = s.regs ∧ SamePointers s t)

/-- R209: `DAA`, by its two branches; the corrections look at A before the correction. -/
def Obligations.DecimalAdjustCorrects : Prop :=
  ∀ s : State,
    Decodes [0x27] .daa ∧
      ∃ t, exec .daa s = .next t ∧ Costs s t [0x27] 1 ∧ SetsReg s t .a t.regs.a ∧ (t.flags.z = true ↔ t.regs.a = 0) ∧
        t.flags.n = s.flags.n ∧ t.flags.h = false ∧
        ∀ low high : Nat,
          (s.flags.n = false →
            low = (if s.flags.h = true ∨ s.regs.a.toNat % 16 > 9 then 6 else 0) →
            high = (if s.flags.c = true ∨ s.regs.a.toNat > 0x99 then 0x60 else 0) →
            t.regs.a.toNat = (s.regs.a.toNat + low + high) % 256 ∧
              (t.flags.c = true ↔ s.flags.c = true ∨ s.regs.a.toNat > 0x99)) ∧
          (s.flags.n = true →
            low = (if s.flags.h = true then 6 else 0) →
            high = (if s.flags.c = true then 0x60 else 0) →
            (t.regs.a.toNat + low + high) % 256 = s.regs.a.toNat ∧ t.flags.c = s.flags.c)

/-- The purpose of R209, derived: after `ADD A,n` of two packed decimal bytes, `DAA` leaves the packed decimal sum modulo 100 and
the decimal carry in fC. -/
def Obligations.DecimalAdditionIsExact : Prop :=
  ∀ (s : State) (x y : Nat), x < 100 → y < 100 →
    s.regs.a = BitVec.ofNat 8 (x / 10 * 16 + x % 10) →
    ∃ t u, exec (.addAN (BitVec.ofNat 8 (y / 10 * 16 + y % 10))) s = .next t ∧ exec .daa t = .next u ∧
      u.regs.a = BitVec.ofNat 8 ((x + y) % 100 / 10 * 16 + (x + y) % 10) ∧ (u.flags.c = true ↔ x + y ≥ 100)

/-- R210, R211, R212: `CPL`, `SCF`, `CCF`; fZ is kept. -/
def Obligations.ComplementAndCarryOps : Prop :=
  ∀ s : State,
    (Decodes [0x2F] .cpl ∧
      ∃ t, exec .cpl s = .next t ∧ Costs s t [0x2F] 1 ∧ SetsReg s t .a (BitVec.ofNat 8 (255 - s.regs.a.toNat)) ∧
        FlagsAre t.flags (s.flags.z = true) True True (s.flags.c = true)) ∧
    (Decodes [0x37] .scf ∧
      ∃ t, exec .scf s = .next t ∧ Costs s t [0x37] 1 ∧ SetsFlagsOnly s t ∧
        FlagsAre t.flags (s.flags.z = true) False False True) ∧
    (Decodes [0x3F] .ccf ∧
      ∃ t, exec .ccf s = .next t ∧ Costs s t [0x3F] 1 ∧ SetsFlagsOnly s t ∧
        FlagsAre t.flags (s.flags.z = true) False False (s.flags.c = false))

/-- R213: `ADD` then `SUB` of one operand restores A; fC ends 0 exactly when the `ADD` did not carry. -/
def Obligations.AddThenSubRestoresA : Prop :=
  ∀ (s : State) (n : Byte),
    ∃ t u, exec (.addAN n) s = .next t ∧ exec (.subN n) t = .next u ∧ u.regs.a = s.regs.a ∧
      (u.flags.c = false ↔ s.regs.a.toNat + n.toNat ≤ 255)

/-! ## 16-bit arithmetic -/

/-- R220: `ADD HL,rr`; fZ is kept. -/
def Obligations.AddHlPair : Prop :=
  ∀ (s : State) (rr : Reg16),
    Decodes [0b00#2 ++ reg16Code rr ++ 0b1001#4] (.addHlRr rr) ∧
      ∃ t, exec (.addHlRr rr) s = .next t ∧ Costs s t [0b00#2 ++ reg16Code rr ++ 0b1001#4] 2 ∧
        SetsPair s t .hl (BitVec.ofNat 16 (s.hl.toNat + (s.pair rr).toNat)) ∧
        FlagsAre t.flags (s.flags.z = true) False (s.hl.toNat % 4096 + (s.pair rr).toNat % 4096 > 4095)
          (s.hl.toNat + (s.pair rr).toNat > 65535)

/-- R221, R222, R223: `INC rr`, `DEC rr` (no flag) and `ADD SP,e` (flags of the low byte). -/
def Obligations.PairIncDecAndAddSp : Prop :=
  ∀ (s : State) (rr : Reg16) (e : Byte),
    (Decodes [0b00#2 ++ reg16Code rr ++ 0b0011#4] (.incRr rr) ∧
      ∃ t, exec (.incRr rr) s = .next t ∧ Costs s t [0b00#2 ++ reg16Code rr ++ 0b0011#4] 2 ∧
        SetsPair s t rr (BitVec.ofNat 16 ((s.pair rr).toNat + 1)) ∧
        t.flags = s.flags) ∧
    (Decodes [0b00#2 ++ reg16Code rr ++ 0b1011#4] (.decRr rr) ∧
      ∃ t, exec (.decRr rr) s = .next t ∧ Costs s t [0b00#2 ++ reg16Code rr ++ 0b1011#4] 2 ∧
        SetsPair s t rr (BitVec.ofNat 16 ((s.pair rr).toNat + 65535)) ∧
        t.flags = s.flags) ∧
    (Decodes [0xE8, e] (.addSpE e) ∧
      ∃ t, exec (.addSpE e) s = .next t ∧ Costs s t [0xE8, e] 4 ∧
        SetsPair s t .sp (BitVec.ofInt 16 ((s.sp.toNat : Int) + e.toInt)) ∧
        FlagsAre t.flags False False (s.sp.toNat % 16 + e.toNat % 16 > 15) (s.sp.toNat % 256 + e.toNat > 255))

/-! ## Rotates, shifts, bits -/

/-- R230 to R233: the accumulator rotates; fZ is 0 whatever the result. -/
def Obligations.AccumulatorRotates : Prop :=
  ∀ s : State,
    ∀ row ∈ [((0x07 : Byte), Instr.rlca, RotOp.rlc), (0x0F, .rrca, .rrc), (0x17, .rla, .rl), (0x1F, .rra, .rr)],
      Decodes [row.1] row.2.1 ∧
        ∃ t, exec row.2.1 s = .next t ∧ Costs s t [row.1] 1 ∧ RotResult row.2.2 s.regs.a s.flags.c t.regs.a ∧
          SetsReg s t .a t.regs.a ∧ FlagsAre t.flags False False False (rotOut row.2.2 s.regs.a = true)

/-- R256 and the register form of each of the eight rotates and shifts. -/
def Obligations.RotateRegisterForms : Prop :=
  ∀ (s : State) (op : RotOp) (r : Reg8),
    Decodes [0xCB, 0b00#2 ++ rotCode op ++ reg8Code r] (rotReg r op) ∧
      ∃ t, exec (rotReg r op) s = .next t ∧ Costs s t [0xCB, 0b00#2 ++ rotCode op ++ reg8Code r] 2 ∧
        RotResult op (s.reg r) s.flags.c (t.reg r) ∧
        SetsReg s t r (t.reg r) ∧ FlagsAre t.flags (t.reg r = 0) False False (rotOut op (s.reg r) = true)

/-- R256 and the `(HL)` form of each of the eight; a dropped write still sets the flags. -/
def Obligations.RotateMemoryForms : Prop :=
  ∀ (s : State) (op : RotOp), Memory.wf s.mem →
    Decodes [0xCB, 0b00#2 ++ rotCode op ++ 0b110#3] (rotAtHl op) ∧
      ∃ t res, exec (rotAtHl op) s = .next t ∧ Costs s t [0xCB, 0b00#2 ++ rotCode op ++ 0b110#3] 4 ∧
        RotResult op (readByte s s.hl) s.flags.c res ∧
        StoresByte s t s.hl res ∧ FlagsAre t.flags (res = 0) False False (rotOut op (readByte s s.hl) = true) ∧
        t.regs = s.regs ∧ SamePointers s t

/-- R250 to R255: `BIT b` writes flags alone and keeps fC; `RES b` and `SET b` change one bit of a register or of the byte at HL and
no flag. -/
def Obligations.BitInstructions : Prop :=
  ∀ (s : State) (b : Fin 8) (r : Reg8), Memory.wf s.mem →
    (Decodes [0xCB, 0b01#2 ++ BitVec.ofNat 3 b.val ++ reg8Code r] (.bitBR b r) ∧
      ∃ t, exec (.bitBR b r) s = .next t ∧ Costs s t [0xCB, 0b01#2 ++ BitVec.ofNat 3 b.val ++ reg8Code r] 2 ∧ SetsFlagsOnly s t ∧
        FlagsAre t.flags ((s.reg r).getLsbD b.val = false) False True (s.flags.c = true)) ∧
    (Decodes [0xCB, 0b01#2 ++ BitVec.ofNat 3 b.val ++ 0b110#3] (.bitBAtHl b) ∧
      ∃ t, exec (.bitBAtHl b) s = .next t ∧ Costs s t [0xCB, 0b01#2 ++ BitVec.ofNat 3 b.val ++ 0b110#3] 3 ∧ SetsFlagsOnly s t ∧
        FlagsAre t.flags ((readByte s s.hl).getLsbD b.val = false) False True (s.flags.c = true)) ∧
    (Decodes [0xCB, 0b10#2 ++ BitVec.ofNat 3 b.val ++ reg8Code r] (.resBR b r) ∧
      ∃ t, exec (.resBR b r) s = .next t ∧ Costs s t [0xCB, 0b10#2 ++ BitVec.ofNat 3 b.val ++ reg8Code r] 2 ∧
        SetsReg s t r (t.reg r) ∧ t.flags = s.flags ∧
        ∀ k, k < 8 → (t.reg r).getLsbD k = if k = b.val then false else (s.reg r).getLsbD k) ∧
    (Decodes [0xCB, 0b11#2 ++ BitVec.ofNat 3 b.val ++ reg8Code r] (.setBR b r) ∧
      ∃ t, exec (.setBR b r) s = .next t ∧ Costs s t [0xCB, 0b11#2 ++ BitVec.ofNat 3 b.val ++ reg8Code r] 2 ∧
        SetsReg s t r (t.reg r) ∧ t.flags = s.flags ∧
        ∀ k, k < 8 → (t.reg r).getLsbD k = if k = b.val then true else (s.reg r).getLsbD k) ∧
    (Decodes [0xCB, 0b10#2 ++ BitVec.ofNat 3 b.val ++ 0b110#3] (.resBAtHl b) ∧
      ∃ t v, exec (.resBAtHl b) s = .next t ∧ Costs s t [0xCB, 0b10#2 ++ BitVec.ofNat 3 b.val ++ 0b110#3] 4 ∧
        StoresByte s t s.hl v ∧ t.regs = s.regs ∧ t.flags = s.flags ∧
        SamePointers s t ∧ ∀ k, k < 8 → v.getLsbD k = if k = b.val then false else (readByte s s.hl).getLsbD k) ∧
    (Decodes [0xCB, 0b11#2 ++ BitVec.ofNat 3 b.val ++ 0b110#3] (.setBAtHl b) ∧
      ∃ t v, exec (.setBAtHl b) s = .next t ∧ Costs s t [0xCB, 0b11#2 ++ BitVec.ofNat 3 b.val ++ 0b110#3] 4 ∧
        StoresByte s t s.hl v ∧ t.regs = s.regs ∧ t.flags = s.flags ∧
        SamePointers s t ∧ ∀ k, k < 8 → v.getLsbD k = if k = b.val then true else (readByte s s.hl).getLsbD k)

/-! ## Control transfer -/

/-- R260 to R265: the jumps. PC in `s` already points past the instruction. -/
def Obligations.JumpsGoToTheirTargets : Prop :=
  ∀ (s : State) (cc : Cond) (l h e : Byte) (holds : Bool),
    holds = (match cc with | .nz => !s.flags.z | .z => s.flags.z | .nc => !s.flags.c | .c => s.flags.c) →
    (Decodes [0xC3, l, h] (.jpNn (h ++ l)) ∧
      ∃ t, exec (.jpNn (h ++ l)) s = .next t ∧ Costs s t [0xC3, l, h] 4 ∧ Jumps s t (h ++ l)) ∧
    (Decodes [0b110#3 ++ condCode cc ++ 0b010#3, l, h] (.jpCcNn cc (h ++ l)) ∧
      ∃ t, exec (.jpCcNn cc (h ++ l)) s = .next t ∧
        Costs s t [0b110#3 ++ condCode cc ++ 0b010#3, l, h] (if holds then 4 else 3) holds ∧
        Jumps s t (if holds then h ++ l else s.pc)) ∧
    (Decodes [0x18, e] (.jrE e) ∧
      ∃ t, exec (.jrE e) s = .next t ∧ Costs s t [0x18, e] 3 ∧ Jumps s t (BitVec.ofInt 16 ((s.pc.toNat : Int) + e.toInt))) ∧
    (Decodes [0b001#3 ++ condCode cc ++ 0b000#3, e] (.jrCcE cc e) ∧
      ∃ t, exec (.jrCcE cc e) s = .next t ∧ Costs s t [0b001#3 ++ condCode cc ++ 0b000#3, e] (if holds then 3 else 2) holds ∧
        Jumps s t (if holds then BitVec.ofInt 16 ((s.pc.toNat : Int) + e.toInt) else s.pc)) ∧
    (Decodes [0xE9] .jpHl ∧ ∃ t, exec .jpHl s = .next t ∧ Costs s t [0xE9] 1 ∧ Jumps s t s.hl)

/-- R266, R267, R271: the calls and restarts push the address of the next instruction; a call not taken touches neither SP nor
memory. -/
def Obligations.CallsPushTheReturnAddress : Prop :=
  ∀ (s : State) (cc : Cond) (l h : Byte) (n : Fin 8) (holds : Bool), Memory.wf s.mem →
    holds = (match cc with | .nz => !s.flags.z | .z => s.flags.z | .nc => !s.flags.c | .c => s.flags.c) →
    (Decodes [0xCD, l, h] (.callNn (h ++ l)) ∧
      ∃ t, exec (.callNn (h ++ l)) s = .next t ∧ Costs s t [0xCD, l, h] 6 ∧ Calls s t (h ++ l)) ∧
    (Decodes [0b110#3 ++ condCode cc ++ 0b100#3, l, h] (.callCcNn cc (h ++ l)) ∧
      ∃ t, exec (.callCcNn cc (h ++ l)) s = .next t ∧
        Costs s t [0b110#3 ++ condCode cc ++ 0b100#3, l, h] (if holds then 6 else 3) holds ∧
        (holds = true → Calls s t (h ++ l)) ∧ (holds = false → Jumps s t s.pc)) ∧
    (Decodes [0b11#2 ++ BitVec.ofNat 3 n.val ++ 0b111#3] (.rstT n) ∧
      ∃ t, exec (.rstT n) s = .next t ∧ Costs s t [0b11#2 ++ BitVec.ofNat 3 n.val ++ 0b111#3] 4 ∧
        Calls s t (BitVec.ofNat 16 (8 * n.val)))

/-- R268, R269, R270: the returns; `RETI` also sets IME at once and drops a pending `EI`. -/
def Obligations.ReturnsPopThePc : Prop :=
  ∀ (s : State) (cc : Cond) (holds : Bool),
    holds = (match cc with | .nz => !s.flags.z | .z => s.flags.z | .nc => !s.flags.c | .c => s.flags.c) →
    (Decodes [0xC9] .ret ∧
      ∃ t, exec .ret s = .next t ∧ Costs s t [0xC9] 4 ∧ Returns s t ∧ OnlyRegisters s t) ∧
    (Decodes [0b110#3 ++ condCode cc ++ 0b000#3] (.retCc cc) ∧
      ∃ t, exec (.retCc cc) s = .next t ∧ Costs s t [0b110#3 ++ condCode cc ++ 0b000#3] (if holds then 5 else 2) holds ∧
        OnlyRegisters s t ∧
        (holds = true → Returns s t) ∧ (holds = false → Jumps s t s.pc)) ∧
    (Decodes [0xD9] .reti ∧
      ∃ t, exec .reti s = .next t ∧ Costs s t [0xD9] 4 ∧ Returns s t ∧ t.ime = true ∧ t.imePending = false ∧
        OnlyRegisters { s with ime := true, imePending := false } t)

/-! ## System instructions -/

/-- R280, R282, R283 and what executing `HALT` (R281) and `EI` (R284) does to the state. -/
def Obligations.SystemInstructionEffects : Prop :=
  ∀ (s : State) (n : Byte),
    (Decodes [0x00] .nop ∧ ∃ t, exec .nop s = .next t ∧ Costs s t [0x00] 1 ∧ t = { s with quanta := t.quanta }) ∧
    (Decodes [0x76] .halt ∧
      ∃ t, exec .halt s = .next t ∧ Costs s t [0x76] 1 ∧ t = { s with halted := true, quanta := t.quanta }) ∧
    (Decodes [0x10, n] (.stop n) ∧
      ∃ t, exec (.stop n) s = .next t ∧ Costs s t [0x10, n] 1 ∧ t = { s with status := .stopped, quanta := t.quanta }) ∧
    (Decodes [0xF3] .di ∧
      ∃ t, exec .di s = .next t ∧ Costs s t [0xF3] 1 ∧ t = { s with ime := false, imePending := false, quanta := t.quanta }) ∧
    (Decodes [0xFB] .ei ∧
      ∃ t, exec .ei s = .next t ∧ Costs s t [0xFB] 1 ∧
        (s.cfg.eiDelay = true → t = { s with imePending := true, quanta := t.quanta }) ∧
        (s.cfg.eiDelay = false → t = { s with ime := true, quanta := t.quanta }))

/-- R112, R285, R286: the bytes 0xCB and `op2` decode to the instruction `op2` selects, and no second byte leads to a decode error;
exactly eleven first bytes decode to `ILLEGAL`, whose whole effect is status STOPPED at cost 0. That the constructor `prefixCb`,
which R285 says is no instruction and decode never answers, has the selected instruction's effect is the model's choice (log
entry 12). -/
def Obligations.PrefixAndUnassignedOpcodes : Prop :=
  ∀ (s : State) (op n1 n2 op2 : Byte) (u : Unassigned),
    (Decodes [0xCB, op2] (decodeCbPage op2) ∧ (∀ v, decodeCbPage op2 ≠ .illegal v) ∧
      ∃ t, exec (.prefixCb op2) s = .next t ∧ exec (decodeCbPage op2) s = .next t) ∧
    ((∃ v, decodeBytes op n1 n2 = .illegal v) ↔
      op ∈ [(0xD3 : Byte), 0xDB, 0xDD, 0xE3, 0xE4, 0xEB, 0xEC, 0xED, 0xF4, 0xFC, 0xFD]) ∧
    exec (.illegal u) s = .next { s with status := .stopped, quanta := 0 }

/-! ## Encoding -/

/-- Decoding the encoding of any well-formed instruction gives it back, whatever follows it. -/
def Obligations.DecodeOfEncode : Prop :=
  ∀ (i : Instr) (rest : List Byte), i.wellFormed = true → decode (encode i ++ rest) = .ok (i, rest)

/-- The other direction (R102, R117): every first byte decodes, to a well-formed instruction of 1 to 3 bytes whose encoding is
those very bytes, so each byte string has one meaning and no bit is dropped; the first byte alone fixes the length (R100). -/
def Obligations.EncodeOfDecode : Prop :=
  ∀ op n1 n2 m1 m2 : Byte,
    (decodeBytes op n1 n2).wellFormed = true ∧
      encode (decodeBytes op n1 n2) = [op, n1, n2].take (decodeBytes op n1 n2).length ∧
      1 ≤ (decodeBytes op n1 n2).length ∧ (decodeBytes op n1 n2).length ≤ 3 ∧
      (decodeBytes op m1 m2).length = (decodeBytes op n1 n2).length

/-- Words written out from the rules' encodings (R131, R161, R181, R220, R246, R262, R271, R282). -/
def Obligations.DecodesSampleWords : Prop :=
  decode [0b00111110, 0x42] = .ok (.ldRN .a 0x42, []) ∧
    decode [0b00001000, 0x00, 0xC1] = .ok (.ldNnSp 0xC100, []) ∧
    decode [0b10000101] = .ok (.addAR .l, []) ∧
    decode [0b00111001] = .ok (.addHlRr .sp, []) ∧
    decode [0b11001011, 0b00110001] = .ok (.swapR .c, []) ∧
    decode [0b11001011, 0b11111110] = .ok (.setBAtHl 7, []) ∧
    decode [0b11011010, 0x34, 0x12] = .ok (.jpCcNn .c 0x1234, []) ∧
    decode [0b11101111] = .ok (.rstT 5, []) ∧
    decode [0b00010000, 0x55, 0x99] = .ok (.stop 0x55, [0x99]) ∧
    decode [0b11001011] = .error .truncated

/-! ## The machine step -/

/-- A MachineStep that fetches runs the instruction at PC with PC moved past it, then arms a delayed `EI`, ticks the devices and
dispatches at most one interrupt (R300, R301). -/
def Obligations.StepRunsTheDecodedInstruction : Prop :=
  ∀ (s : State) (i : Instr) (rest : List Byte), fetches s →
    decode [readByte s s.pc, readByte s (s.pc + 1), readByte s (s.pc + 2)] = .ok (i, rest) →
    i.wellFormed = true ∧
      ∀ t, exec i { s with halted := false, pc := s.pc + BitVec.ofNat 16 (3 - rest.length) } = .next t →
        ∃ u, (((∃ op, i = .illegal op) ∨ ¬ (s.imePending = true ∧ t.imePending = true)) → u = t) ∧
          ((∀ op, i ≠ .illegal op) → s.imePending = true → t.imePending = true → u = { t with ime := true, imePending := false }) ∧
          step s = .next (dispatchPhase (videoTick (4 * t.quanta) (timerTick (4 * t.quanta) u)))

/-- R300, R301, R302, R338, R67, R281: the steps that execute nothing. While the status is not RUNNING, `CPU.Step` returns 0 and
changes nothing, no MachineStep happens, and the run consumes no clock tick and shows no frame, so none follows once a run is over
(R448); a step without an image sets STOPPED, fetches nothing and costs nothing; a halted CPU with no enabled request costs one quantum
and changes nothing, and with one it wakes in the same step, whatever IME is. That `step` of a machine at rest answers what that
`CPU.Step` answers is the model's reading (log entry 6); the no-image step still compares LY with LYC (log entry 18). -/
def Obligations.RestNoImageAndHaltedSteps : Prop :=
  ∀ s : State,
    (s.status ≠ .running →
      step s = .next { s with quanta := 0 } ∧ cpuStep s = .next { s with quanta := 0 } ∧
        ∀ n, runTicks n s = 0 ∧ runFrames n s = []) ∧
    (∀ n m t, runEndsAt s n t → runTicks (n + m) s = runTicks n s ∧ runFrames (n + m) s = runFrames n s) ∧
    (s.status = .running → s.romLoaded = false →
      ∃ t, step s = .next t ∧ t.status = .stopped ∧ t.quanta = 0 ∧ t.pc = s.pc ∧ t.sp = s.sp ∧ t.regs = s.regs ∧
        t.flags = s.flags ∧ t.ime = s.ime ∧ t.halted = s.halted ∧ t.mem = s.mem) ∧
    (s.status = .running → s.romLoaded = true → s.halted = true →
      (s.ie &&& s.ifl &&& 0x1F = 0 → cpuStep s = .next { s with quanta := 1 }) ∧
      (s.ie &&& s.ifl &&& 0x1F ≠ 0 → cpuStep s = cpuStep { s with halted := false }))

/-- R301, R330, R331: every step of every state answers a next state; nothing faults and nothing is refused. At rest that is the
model's reading (log entry 6). -/
def Obligations.EveryStepAnswersNext : Prop := ∀ s : State, ∃ t, step s = .next t

/-- R330: the step that fetches an unassigned opcode leaves status STOPPED, PC just past the opcode, every register, flag and
memory byte as it was (the devices receive 0 ticks), takes no interrupt and costs nothing; a pending `EI` stays pending (log
entry 19). -/
def Obligations.DecodeErrorStepStops : Prop :=
  ∀ s : State, s.Inv → fetches s →
    readByte s s.pc ∈ [(0xD3 : Byte), 0xDB, 0xDD, 0xE3, 0xE4, 0xEB, 0xEC, 0xED, 0xF4, 0xFC, 0xFD] →
    ∃ t, step s = .next t ∧ t.status = .stopped ∧ t.pc = s.pc + 1 ∧ t.quanta = 0 ∧ t.regs = s.regs ∧ t.flags = s.flags ∧
      t.sp = s.sp ∧ t.ime = s.ime ∧ t.imePending = s.imePending ∧ t.ie = s.ie ∧ t.mem = s.mem ∧ t.timer.div = s.timer.div ∧
      t.video.ly = s.video.ly ∧ t.video.mode = s.video.mode ∧ t.video.framebuffer = s.video.framebuffer

/-- R281, R444: a halted CPU stays halted for ever, still RUNNING, if no class is enabled, or if nothing is pending and the gate is
closed (`IF_GATED_BY_IME` with IME = 0). -/
def Obligations.HaltWithoutWakeLastsForEver : Prop :=
  ∀ (s : State) (n : Nat), s.status = .running → s.romLoaded = true → s.halted = true →
    (s.ie &&& 0x1F = 0 ∨ (s.cfg.ifGatedByIme = true ∧ s.ime = false ∧ s.ie &&& s.ifl &&& 0x1F = 0)) →
    ∃ t, stepsFrom n s = some t ∧ t.status = .running ∧ t.halted = true ∧ t.pc = s.pc ∧ t.sp = s.sp ∧ t.regs = s.regs ∧
      t.flags = s.flags ∧ t.mem = s.mem

/-- R284, R301: with `EI_DELAY` = 1 the step of `EI` itself dispatches nothing, and the CPU step of the instruction after it ends
with IME = 1 unless that instruction is `DI` or the decode error. -/
def Obligations.EnableInterruptsWaitsOneInstruction : Prop :=
  ∀ s : State, fetches s → s.cfg.eiDelay = true →
    (s.ime = false → s.imePending = false → fetchInstr s = .ei →
      ∃ t, step s = .next t ∧ t.ime = false ∧ t.imePending = true ∧ t.pc = s.pc + 1 ∧ t.sp = s.sp ∧ t.mem = s.mem) ∧
    (s.imePending = true → fetchInstr s ≠ .di → (∀ op, fetchInstr s ≠ .illegal op) →
      ∃ t, cpuStep s = .next t ∧ t.ime = true ∧ t.imePending = false) ∧
    (s.imePending = true → fetchInstr s = .di → ∃ t, cpuStep s = .next t ∧ t.ime = false ∧ t.imePending = false)

/-! ## Interrupts -/

/-- R313: `GetPending` answers the least class whose bit is 1 in both IE and IF, and none if there is none. -/
def Obligations.LowestPendingClassWins : Prop :=
  ∀ (s : State),
    (∀ k, getPending s = some k ↔
      (s.ie.getLsbD (intBit k) = true ∧ s.ifl.getLsbD (intBit k) = true ∧
        ∀ j, intBit j < intBit k → ¬ (s.ie.getLsbD (intBit j) = true ∧ s.ifl.getLsbD (intBit j) = true))) ∧
    (getPending s = none ↔ s.ie &&& s.ifl &&& 0x1F = 0)

/-- R311, R312, R444: a request sets its bit unless the gate is closed, and then it is lost; a clear takes the gate the caller gives;
while the gate is closed no tick of any length changes IF. -/
def Obligations.RequestsAndClearsAreGated : Prop :=
  ∀ (s : State) (k : IntClass) (gate : Bool) (n : Nat),
    (s.cfg.ifGatedByIme = true → s.ime = false →
      requestInterrupt k s = s ∧ (timerTick n s).ifl = s.ifl ∧ (videoTick n s).ifl = s.ifl) ∧
    (s.cfg.ifGatedByIme = false ∨ s.ime = true →
      requestInterrupt k s = { s with ifl := s.ifl ||| BitVec.ofNat 8 (2 ^ intBit k) }) ∧
    (s.cfg.ifGatedByIme = true → gate = false → clearInterrupt k gate s = s) ∧
    (s.cfg.ifGatedByIme = false ∨ gate = true →
      ∃ v, clearInterrupt k gate s = { s with ifl := v } ∧
        ∀ b, b < 8 → v.getLsbD b = if b = intBit k then false else s.ifl.getLsbD b)

/-- R320, R321: taking an interrupt. IME, `ime_pending`, `halted` become 0, PC is pushed and becomes `0x40 + 8 k`, only bit k of IF
is cleared before the push; no flag and no other register changes, and no address the push does not reach, IF apart. -/
def Obligations.DispatchEntersTheHandler : Prop :=
  ∀ (s : State) (k : IntClass), Memory.wf s.mem → s.ime = true →
    let t := dispatchInterrupt k s
    t.pc = BitVec.ofNat 16 (0x40 + 8 * intBit k) ∧ t.sp = s.sp - 2 ∧ t.ime = false ∧ t.imePending = false ∧ t.halted = false ∧
      t.regs = s.regs ∧ t.flags = s.flags ∧ t.status = s.status ∧ t.quanta = s.quanta ∧ SameHidden s t ∧
      (plainRam (s.sp - 1) → readByte t (s.sp - 1) = s.pc.extractLsb' 8 8) ∧
      (plainRam (s.sp - 2) → readByte t (s.sp - 2) = s.pc.extractLsb' 0 8) ∧
      (s.sp ≠ 0xFF10 → s.sp ≠ 0xFF11 →
        ∀ b, b < 8 → t.ifl.getLsbD b = if b = intBit k then false else s.ifl.getLsbD b) ∧
      (∀ a, a ≠ 0xFF0F → ¬ storeReaches (s.sp - 1) a → ¬ storeReaches (s.sp - 2) a → readByte t a = readByte s a)

/-- R300, R315, R316: the dispatch phase takes the lowest pending class, once, only while RUNNING with IME = 1. -/
def Obligations.DispatchPhaseTakesAtMostOne : Prop :=
  ∀ s : State,
    (∀ k, s.status = .running → s.ime = true → getPending s = some k →
      dispatchPhase s = dispatchInterrupt k s ∧ dispatchPhase (dispatchPhase s) = dispatchPhase s) ∧
    (s.status ≠ .running ∨ s.ime = false ∨ s.ie &&& s.ifl &&& 0x1F = 0 → dispatchPhase s = s)

/-! ## The timer -/

/-- R341, R342: one tick in closed form: the divider, the delayed reload with its request, the counter with its threshold. The model
counts crossings by a division where R341 writes a loop (log entry 15). -/
def Obligations.TimerTickInClosedForm : Prop :=
  ∀ (s : State) (n base threshold crossings : Nat),
    base = (if s.timer.overflow then s.timer.tma.toNat else s.timer.tima.toNat) →
    (s.timer.tac.toNat % 4, threshold) ∈ [(0, 1024), (1, 16), (2, 64), (3, 256)] →
    crossings = (if s.timer.tac.getLsbD 2 then (s.timer.timaAcc + n) / threshold else 0) →
    let t := timerTick n s
    t.timer.div.toNat = (s.timer.div.toNat + (s.timer.divAcc + n) / 256) % 256 ∧
      t.timer.divAcc = (s.timer.divAcc + n) % 256 ∧
      t.timer.tima.toNat = (base + crossings) % 256 ∧
      (t.timer.overflow = true ↔ base + crossings > 255) ∧
      t.timer.timaAcc = (if s.timer.tac.getLsbD 2 then (s.timer.timaAcc + n) % threshold else s.timer.timaAcc) ∧
      t.ifl = (if s.timer.overflow then (requestInterrupt .timer s).ifl else s.ifl) ∧
      t = { s with ifl := t.ifl, timer := { t.timer with tma := s.timer.tma, tac := s.timer.tac } }

/-- R341: however the ticks are grouped, counting is exact: two calls with no overflow waiting between them are one call of the
sum. -/
def Obligations.TimerTicksAdd : Prop :=
  ∀ (s : State) (n m : Nat), (timerTick n s).timer.overflow = false →
    timerTick m (timerTick n s) = timerTick (n + m) s

/-! ## The video unit -/

/-- R385, R386: one transition out of each mode, by its duration; a state whose mode has not run its duration has none. -/
def Obligations.ModeTransitions : Prop :=
  ∀ (s : State) (c : Nat), s.video.ly.toNat ≤ 153 → s.video.modeClock = c →
    (s.video.mode = .oamSearch →
      (c < 80 → transition s = none) ∧
      (80 ≤ c → transition s = some { s with video := { s.video with mode := .pixelTransfer, modeClock := c - 80 } })) ∧
    (s.video.mode = .pixelTransfer →
      (c < 172 → transition s = none) ∧
      (172 ≤ c → ∃ u, u = { s with video := { (renderScanline s s.video.ly.toNat).video with mode := .hblank, modeClock := c - 172 } } ∧
        transition s = some (if s.video.statEnable.getLsbD 0 then requestInterrupt .status u else u))) ∧
    (s.video.mode = .hblank →
      (c < 204 → transition s = none) ∧
      (204 ≤ c → s.video.ly.toNat = 143 →
        ∃ u, u = requestInterrupt .vblank { s with video := { s.video with ly := 144, mode := .vblank, modeClock := c - 204 } } ∧
          transition s = some (if s.video.statEnable.getLsbD 1 then requestInterrupt .status u else u)) ∧
      (204 ≤ c → s.video.ly.toNat ≠ 143 →
        ∃ u, u = { s with video := { s.video with ly := BitVec.ofNat 8 (s.video.ly.toNat + 1), mode := .oamSearch, modeClock := c - 204 } } ∧
          transition s = some (if s.video.statEnable.getLsbD 2 then requestInterrupt .status u else u))) ∧
    (s.video.mode = .vblank →
      (c < 456 → transition s = none) ∧
      (456 ≤ c → s.video.ly.toNat < 153 →
        transition s = some { s with video := { s.video with ly := BitVec.ofNat 8 (s.video.ly.toNat + 1), modeClock := c - 456 } }) ∧
      (456 ≤ c → s.video.ly.toNat = 153 →
        ∃ u, u = { s with video := { s.video with ly := 0, mode := .oamSearch, modeClock := c - 456 } } ∧
          transition s = some (if s.video.statEnable.getLsbD 2 then requestInterrupt .status u else u)))

/-- R384, R388, R448: however the clock ticks are grouped, the place in the frame advances by their sum modulo 70,224; from the
reset video unit the total alone gives LY and the mode. So along every run the place advances by the run's total of clock
ticks, one framebuffer is shown each time it passes the start of line 144 (4,560 ticks before the end of the frame), and a step that
enters vertical-blank shows the framebuffer it leaves. -/
def Obligations.FrameTakes70224Ticks : Prop :=
  ∀ (s : State) (ns : List Nat), VideoInv s.video →
    (let t := ns.foldl (fun u n => videoTick n u) s
     VideoInv t.video ∧ framePosition t.video = (framePosition s.video + ns.sum) % 70224 ∧
      (s.video = Video.reset →
        t.video.ly.toNat = ns.sum % 70224 / 456 ∧
        (t.video.mode = .oamSearch ↔ t.video.ly.toNat < 144 ∧ ns.sum % 456 < 80) ∧
        (t.video.mode = .pixelTransfer ↔ t.video.ly.toNat < 144 ∧ 80 ≤ ns.sum % 456 ∧ ns.sum % 456 < 252) ∧
        (t.video.mode = .hblank ↔ t.video.ly.toNat < 144 ∧ 252 ≤ ns.sum % 456) ∧
        (t.video.mode = .vblank ↔ 144 ≤ t.video.ly.toNat))) ∧
    (∀ n u, stepsFrom n s = some u →
      framePosition u.video = (framePosition s.video + runTicks n s) % 70224 ∧
        (runFrames n s).length + (framePosition s.video + 4560) / 70224 = (framePosition s.video + runTicks n s + 4560) / 70224) ∧
    ∀ u, step s = .next u → s.video.ly.toNat < 144 → 144 ≤ u.video.ly.toNat → stepTicks s < 70224 →
      stepFrames s = [u.video.framebuffer]

/-- R387, R389: every tick ends with the comparison of LY with LYC; `PPU.Tick(0)` is that comparison alone. -/
def Obligations.LineCompareEndsEveryTick : Prop :=
  ∀ (s : State) (n : Nat),
    ((videoTick n s).video.coincidence = true ↔ (videoTick n s).video.ly = s.video.lyc) ∧
    (s.video.modeClock < modeDuration s.video.mode → videoTick 0 s = compareLine s) ∧
    (s.video.ly = s.video.lyc → s.video.coincidence = false → s.video.statEnable.getLsbD 3 = true →
      compareLine s = { requestInterrupt .status s with video := { s.video with coincidence := true } }) ∧
    (s.video.ly ≠ s.video.lyc ∨ s.video.coincidence = true ∨ s.video.statEnable.getLsbD 3 = false →
      compareLine s = { s with video := { s.video with coincidence := decide (s.video.ly = s.video.lyc) } })

/-- R391 to R394, R398, R399: rendering line `ly` writes the 160 pixels of that row, leaves the other rows and changes nothing else;
each pixel is the sprites' shade where a sprite supplies one, else the background's, whose colour index and shade are those of R393:
0 with LCDC[0] = 0, else a pixel of the tile that the window's or the background's map names, on the unsigned or the signed base,
through BGP. The state holds shades; a pixel is the colour of its shade (log entry 8). -/
def Obligations.RenderingWritesOneRow : Prop :=
  ∀ (s : State) (ly : Nat), framebufferWf s.video.framebuffer → ly < 144 →
    let v := s.video
    let t := renderScanline s ly
    t = { s with video := { v with framebuffer := t.video.framebuffer } } ∧ framebufferWf t.video.framebuffer ∧
      (∀ y x, y ≠ ly → t.pixel y x = s.pixel y x) ∧
      ∀ x, x < 160 →
        t.pixel ly x = s.cfg.shadeRgba.toArray.getD
          ((spritePixel s ly x (backgroundIndex s ly x) (selectSprites s ly)).getD (backgroundShade s ly x)).toNat 0 ∧
        (v.lcdc.getLsbD 0 = false → backgroundIndex s ly x = 0 ∧ backgroundShade s ly x = 0) ∧
        (v.lcdc.getLsbD 0 = true →
          ShadeIs v.bgp (backgroundIndex s ly x) (backgroundShade s ly x) ∧
          ∀ (map px py base : Nat) (tile : Byte),
            (map, px, py) = (if v.lcdc.getLsbD 5 = true ∧ v.wy.toNat ≤ ly ∧ v.wx.toNat ≤ x + 7 then
                (if v.lcdc.getLsbD 6 then 0x1C00 else 0x1800, x + 7 - v.wx.toNat, ly - v.wy.toNat)
              else (if v.lcdc.getLsbD 3 then 0x1C00 else 0x1800, (x + v.scx.toNat) % 256, (ly + v.scy.toNat) % 256)) →
            tile = readByte s (BitVec.ofNat 16 (0x8000 + (map + py / 8 * 32 + px / 8))) →
            (base : Int) = (if v.lcdc.getLsbD 4 then (tile.toNat : Int) * 16 else 0x1000 + tile.toInt * 16) →
            TilePixelIs s base (py % 8) (px % 8) (backgroundIndex s ly x))

/-- R396: the sprites of a line are its OAM entries whose rows cover it, in ascending order, at most ten, the first ten. -/
def Obligations.TenFirstSpritesAreSelected : Prop :=
  ∀ (s : State) (ly : Nat),
    (s.video.lcdc.getLsbD 1 = false → selectSprites s ly = []) ∧
    (selectSprites s ly).length ≤ 10 ∧ (selectSprites s ly).Pairwise (· < ·) ∧
    (s.video.lcdc.getLsbD 1 = true →
      ∀ i, i ∈ selectSprites s ly ↔
        (i < 40 ∧ ((oamByte s (4 * i)).toNat : Int) - 16 ≤ ly ∧
          (ly : Int) < ((oamByte s (4 * i)).toNat : Int) - 16 + (if s.video.lcdc.getLsbD 2 then 16 else 8) ∧
          ((List.range i).filter (spriteOnLine s ly)).length < 10))

/-- R397, R391, R394, R395: the first selected sprite whose pixel is not index 0 decides, through its palette; behind a background
index that is not 0 it yields, if its flag bit 7 is set, and no later sprite is consulted. The index of entry `i` is 0 outside its
eight columns; on its rows it is the pixel of its tile, flipped by flag bits 5 and 6, a 16-row sprite taking the pair of tiles. -/
def Obligations.FirstOpaqueSpriteDecides : Prop :=
  ∀ (s : State) (ly x : Nat) (bgci : Shade) (before after : List Nat) (i : Nat),
    let y := (oamByte s (4 * i)).toNat
    let left := (oamByte s (4 * i + 1)).toNat
    let tile := (oamByte s (4 * i + 2)).toNat
    let f := oamByte s (4 * i + 3)
    let index := spriteIndex s ly x i
    let pixel := spritePixel s ly x bgci (before ++ i :: after)
    ((∀ j ∈ before, spriteIndex s ly x j = 0) →
      ((∀ j ∈ after, spriteIndex s ly x j = 0) → index = 0 → pixel = none) ∧
      (index ≠ 0 → f.getLsbD 7 = true ∧ bgci ≠ 0 → pixel = none) ∧
      (index ≠ 0 → ¬ (f.getLsbD 7 = true ∧ bgci ≠ 0) →
        ∃ shade, pixel = some shade ∧ ShadeIs (if f.getLsbD 4 then s.video.obp1 else s.video.obp0) index shade)) ∧
    (∀ k, k < 4 → i < 40 → oamByte s (4 * i + k) = readByte s (BitVec.ofNat 16 (0xFE00 + (4 * i + k)))) ∧
    (x + 8 < left ∨ left ≤ x → index = 0) ∧
    ∀ h t dx dy : Nat, (h, t) = (if s.video.lcdc.getLsbD 2 then (16, tile / 2 * 2) else (8, tile)) →
      dx < 8 → x + 8 = left + dx → dy < h → ly + 16 = y + dy →
      TilePixelIs s (t * 16) (if f.getLsbD 6 then h - 1 - dy else dy) (if f.getLsbD 5 then 7 - dx else dx) index

/-- R378: a write of DMA copies 160 bytes from page v, read through the bus as it is after DMA took v, into OAM; the copy adds no
other effect. -/
def Obligations.DmaWriteCopiesAPageToOam : Prop :=
  ∀ (s : State) (v : Byte), Memory.wf s.mem →
    let s' := { s with video := { s.video with dma := v } }
    let t := writeByte s 0xFF46 v
    t = { s' with mem := t.mem } ∧ readByte t 0xFF46 = v ∧
      (∀ i, i < 160 → readByte t (BitVec.ofNat 16 (0xFE00 + i)) = readByte s' (BitVec.ofNat 16 (v.toNat * 256 + i))) ∧
      ∀ a : Word, a.toNat < 0xFE00 ∨ 0xFEA0 ≤ a.toNat → readByte t a = readByte s' a

/-! ## The bus -/

/-- R62, R69 to R73, R76, R88: plain RAM reads back what was stored, and every address the store does not reach reads as before;
echo RAM is an alias of work RAM for reads and for writes. -/
def Obligations.ReadAfterWriteAndEcho : Prop :=
  ∀ (s : State) (a w e : Word) (v : Byte),
    (Memory.wf s.mem → StoresByte s (writeByte s a v) a v) ∧
    (isEcho w e → readByte s e = readByte s w ∧ writeByte s e v = writeByte s w v ∧
      (Memory.wf s.mem → readByte (writeByte s w v) e = v ∧ readByte (writeByte s e v) w = v))

/-- R62, R64, R65, R74, R376: writes to ROM, to an address without an owner and to LY change nothing; an address without an owner
reads 0xFF. -/
def Obligations.DroppedWritesAndUnmappedReads : Prop :=
  ∀ (s : State) (a : Word) (v : Byte),
    (a.toNat < 0x8000 ∨ unmappedAddr a ∨ a = 0xFF44 → writeByte s a v = s) ∧ (unmappedAddr a → readByte s a = 0xFF)

/-- R75, R77, R79, R80, R81, R83, R345 to R348, R373: what a write of each register window leaves and what it then reads. -/
def Obligations.RegisterWindowsReadBack : Prop :=
  ∀ (s : State) (v : Byte),
    (∀ a ∈ [(0xFF00 : Word), 0xFF05, 0xFF06, 0xFF07, 0xFF0F, 0xFF40, 0xFF42, 0xFF43, 0xFF45, 0xFF46, 0xFF47, 0xFF48, 0xFF49,
        0xFF4A, 0xFF4B, 0xFFFF], readByte (writeByte s a v) a = v) ∧
    (writeByte s 0xFF04 v = { s with timer := { s.timer with div := 0, divAcc := 0 } } ∧ readByte s 0xFF04 = s.timer.div) ∧
    (writeByte s 0xFF05 v = { s with timer := { s.timer with tima := v } }) ∧
    (writeByte s 0xFF07 v = { s with timer := { s.timer with tac := v } }) ∧
    (writeByte s 0xFF0F v = { s with ifl := v } ∧ writeByte s 0xFFFF v = { s with ie := v }) ∧
    (readByte (writeByte s 0xFF41 v) 0xFF41 = (v &&& 0x78) ||| (readByte s 0xFF41 &&& 0x07) ∧
      (writeByte s 0xFF41 v).ifl = s.ifl) ∧
    (readByte (writeByte s 0xFF50 v) 0xFF50 = 0xFF ∧ writeByte s 0xFF50 v = { s with bootEnabled := false }) ∧
    (∀ off, (h : off < 48) → Memory.wf s.mem →
      readByte (writeByte s (BitVec.ofNat 16 (0xFF10 + off)) v) (BitVec.ofNat 16 (0xFF10 + off)) = v &&& s.cfg.audioWmask[off])

/-- R68, R65: while enabled, the overlay supplies the lowest 256 bytes and nothing else; every other read of 0x0000 to 0x7FFF is
the cartridge's byte, every one of them if BOOT is absent (with `boot_enabled` = 1, which no run reaches then, that is log
entry 13); a write of any value to 0xFF50 uncovers ROM. -/
def Obligations.BootOverlayCoversTheLowestPage : Prop :=
  ∀ (s : State) (a : Word) (v : Byte), a.toNat < 0x8000 →
    (∀ image, s.cfg.boot = some image → (h : a.toNat < 256) → s.bootEnabled = true → readByte s a = image[a.toNat]) ∧
    (s.cfg.boot = none ∨ s.bootEnabled = false ∨ 256 ≤ a.toNat → readByte s a = memRead s.mem a.toNat) ∧
    readByte (writeByte s 0xFF50 v) a = memRead s.mem a.toNat

/-! ## Whole-machine rules -/

/-- R89, R442: the timer and the video unit stand still during an instruction: no instruction changes LY, the mode, the mode
clock, the coincidence flag, the framebuffer, `tima_acc` or the overflow flag. `div_acc` is not among them: a store to DIV clears it
(R345). -/
def Obligations.DevicesStandStillDuringAnInstruction : Prop :=
  ∀ (i : Instr) (s t : State), exec i s = .next t → SameHidden s t

/-- R42, R62, R65: no step changes a byte of the program image, the parameters (fields of the state, log entry 2) or `ROM_LOADED`,
and no step turns the boot overlay on. -/
def Obligations.ProgramImageAndParametersAreConstant : Prop :=
  ∀ s t : State, MemoryInv s.mem → step s = .next t →
    (∀ k, k < 0x8000 → memRead t.mem k = memRead s.mem k) ∧ t.cfg = s.cfg ∧ t.romLoaded = s.romLoaded ∧
      (t.bootEnabled = true → s.bootEnabled = true)

/-- R30, R31, R33, R302: no instruction but `EI` and `RETI` raises IME, only `EI` raises `ime_pending`, and none but `STOP` and the
unassigned opcodes changes the status, which those set to STOPPED; no step of a RUNNING machine enters PAUSED. -/
def Obligations.ControlStateChangesOnlyWhereListed : Prop :=
  (∀ (i : Instr) (s t : State), exec i s = .next t →
    (t.ime = true → s.ime = true ∨ i = .reti ∨ (i = .ei ∧ s.cfg.eiDelay = false)) ∧
    (t.imePending = true → s.imePending = true ∨ (i = .ei ∧ s.cfg.eiDelay = true)) ∧
    (t.status = s.status ∨ (t.status = .stopped ∧ ((∃ n, i = .stop n) ∨ ∃ op, i = .illegal op)))) ∧
  ∀ s t : State, step s = .next t → s.status = .running → t.status = .running ∨ t.status = .stopped

/-- R23: an instruction that R23 does not list leaves all four flags. -/
def Obligations.OnlyListedInstructionsWriteFlags : Prop :=
  ∀ (i : Instr) (s t : State), exec i s = .next t → writesFlags i = false → t.flags = s.flags

/-! ## Soundness, reset and the host -/

/-- The reset state, the model's one with an image of zeros loaded (log entry 4), and the power-on state of any parameters are
sound. -/
def Obligations.ResetStateIsSound : Prop := State.reset.Inv ∧ ∀ cfg, (State.powerOn cfg).Inv

/-- R46 with the bounds of R31, R37, R68, R389 and the canonical forms: every step keeps a sound state sound. -/
def Obligations.StepKeepsSoundState : Prop := ∀ s t : State, s.Inv → step s = .next t → t.Inv

/-- R44, R45, R446: what the reset leaves in every register and device, from any state, and what survives it. -/
def Obligations.ResetZeroesRegistersAndDevices : Prop :=
  ∀ s : State,
    let t := hostReset s
    t.regs = { a := 0, b := 0, c := 0, d := 0, e := 0, h := 0, l := 0 } ∧
      t.flags = { z := false, n := false, h := false, c := false } ∧ t.pc = 0 ∧ t.sp = 0 ∧ t.status = .running ∧
      t.ime = false ∧ t.imePending = false ∧ t.halted = false ∧ t.ie = 0 ∧ t.ifl = 0 ∧
      t.timer = { div := 0, tima := 0, tma := 0, tac := 0, divAcc := 0, timaAcc := 0, overflow := false } ∧
      t.video = { lcdc := 0, statEnable := 0, scy := 0, scx := 0, ly := 0, lyc := 0, dma := 0, bgp := 0, obp0 := 0, obp1 := 0, wy := 0, wx := 0, mode := .oamSearch, modeClock := 0, coincidence := false, framebuffer := s.video.framebuffer } ∧
      t.mem = s.mem ∧ t.joyp = s.joyp ∧ t.bootEnabled = s.bootEnabled ∧ t.romLoaded = s.romLoaded ∧ t.cfg = s.cfg

/-- R446, R66: the host's operations; `loadRom` fills the 32 KB image from the bytes, zero-padded, keeps the other arrays, and ends
in the reset state. -/
def Obligations.HostOperations : Prop :=
  ∀ (s : State) (bytes : List Byte),
    hostStart s = { s with status := .running } ∧ hostPause s = { s with status := .paused } ∧
      hostStop s = { hostReset s with status := .stopped } ∧
      (let t := hostLoadRom bytes s
       t = { hostReset s with mem := t.mem, romLoaded := true } ∧
         (∀ k, k < 0x8000 → memRead t.mem k = bytes.getD k 0) ∧ (∀ k, 0x8000 ≤ k → memRead t.mem k = memRead s.mem k) ∧
         (MemoryInv s.mem → MemoryInv t.mem))
end

