-- ==== Sys2Proof/Laws/Memory.lean ====
section
/-! SUPPORT. The laws of the canonical form: a read after a write, and that every write keeps the form. -/

namespace Sys2Proof.Machine

section Sparse

variable {α : Type} [DecidableEq α] {dflt : α}

theorem sparseCons_read (cell : Nat × α) (m : List (Nat × α)) (k : Nat) (hm : cell.1 = k → sparseRead dflt m k = dflt) :
    sparseRead dflt (sparseCons dflt cell m) k = if cell.1 = k then cell.2 else sparseRead dflt m k := by
  unfold sparseCons
  split
  next hv =>
    split
    next hk => rw [hm hk, hv]
    next => rfl
  next => rfl

omit [DecidableEq α] in
/-- A key below every listed key is not listed. -/
theorem sparseRead_of_lt (m : List (Nat × α)) (k : Nat) (h : ∀ cell ∈ m, k < cell.1) : sparseRead dflt m k = dflt := by
  induction m with
  | nil => rfl
  | cons cell m ih =>
    have hc := h cell (List.mem_cons_self ..)
    rw [sparseRead, if_neg (by omega)]
    exact ih fun c hmem => h c (List.mem_cons_of_mem _ hmem)

/-- A read after a write: the key written holds the value, every other key what it held (canonical form assumed). -/
theorem sparseRead_sparseWrite (m : List (Nat × α)) (hm : m.Pairwise (fun x y => x.1 < y.1)) (k j : Nat) (v : α) :
    sparseRead dflt (sparseWrite dflt m k v) j = if j = k then v else sparseRead dflt m j := by
  induction m with
  | nil =>
    rw [sparseWrite, sparseCons_read _ _ _ (fun _ => rfl)]
    by_cases h : k = j
    · simp [h]
    · simp [h, Ne.symm h]
  | cons cell m ih =>
    obtain ⟨hc, hm'⟩ := List.pairwise_cons.mp hm
    rw [sparseWrite]
    split
    next hlt =>
      have hnot : sparseRead dflt (cell :: m) k = dflt := by
        refine sparseRead_of_lt _ _ fun c hmem => ?_
        rcases List.mem_cons.mp hmem with rfl | hmem'
        · exact hlt
        · exact lt_trans hlt (hc c hmem')
      rw [sparseCons_read _ _ _ (fun h => by rw [← h]; exact hnot)]
      by_cases h : k = j
      · simp [h]
      · simp [h, Ne.symm h]
    next hge =>
      split
      next heq =>
        rw [sparseCons_read _ _ _ (fun h => by
          refine sparseRead_of_lt _ _ fun c hmem => ?_
          have := hc c hmem
          simp only at h
          omega)]
        by_cases h : k = j
        · simp [h]
        · rw [sparseRead]
          simp only [if_neg h, if_neg (Ne.symm h)]
          rw [if_neg (by omega)]
      next hne =>
        rw [sparseRead]
        split
        next hcj =>
          subst hcj
          rw [if_neg (Ne.symm hne), sparseRead, if_pos rfl]
        next hcj =>
          rw [ih hm', sparseRead, if_neg hcj]

/-- Every key of the result of a write is the key written or was listed. -/
theorem mem_sparseWrite {m : List (Nat × α)} {k : Nat} {v : α} {c : Nat × α} (h : c ∈ sparseWrite dflt m k v) :
    (c = (k, v) ∧ v ≠ dflt) ∨ c ∈ m := by
  have cons {l : List (Nat × α)} (h : c ∈ sparseCons dflt (k, v) l) : (c = (k, v) ∧ v ≠ dflt) ∨ c ∈ l := by
    unfold sparseCons at h
    split at h
    · exact .inr h
    · next hv =>
      rcases List.mem_cons.mp h with rfl | h'
      · exact .inl ⟨rfl, hv⟩
      · exact .inr h'
  induction m with
  | nil => exact cons h
  | cons cell m ih =>
    rw [sparseWrite] at h
    split at h
    · exact cons h
    · split at h
      · rcases cons h with h' | h'
        · exact .inl h'
        · exact .inr (List.mem_cons_of_mem _ h')
      · rcases List.mem_cons.mp h with rfl | h'
        · exact .inr (List.mem_cons_self ..)
        · rcases ih h' with h'' | h''
          · exact .inl h''
          · exact .inr (List.mem_cons_of_mem _ h'')

/-- A write keeps the canonical form. -/
theorem sparseWrite_wf {m : List (Nat × α)} (hm : sparseWf dflt m) (k : Nat) (v : α) : sparseWf dflt (sparseWrite dflt m k v) := by
  refine ⟨?_, fun c hc => ?_⟩
  · obtain ⟨hsort, -⟩ := hm
    have cons {l : List (Nat × α)} (hl : l.Pairwise (fun x y => x.1 < y.1)) (hk : ∀ c ∈ l, k < c.1) :
        (sparseCons dflt (k, v) l).Pairwise (fun x y => x.1 < y.1) := by
      unfold sparseCons
      split
      · exact hl
      · exact List.pairwise_cons.mpr ⟨hk, hl⟩
    induction m with
    | nil => exact cons List.Pairwise.nil (by simp)
    | cons cell m ih =>
      obtain ⟨hc, hm'⟩ := List.pairwise_cons.mp hsort
      rw [sparseWrite]
      split
      next hlt =>
        refine cons hsort fun c hmem => ?_
        rcases List.mem_cons.mp hmem with rfl | hmem'
        · exact hlt
        · exact lt_trans hlt (hc c hmem')
      next hge =>
        split
        next heq => exact cons hm' fun c hmem => heq ▸ hc c hmem
        next hne =>
          refine List.pairwise_cons.mpr ⟨fun c hmem => ?_, ih hm'⟩
          rcases mem_sparseWrite hmem with ⟨rfl, -⟩ | hmem'
          · simp only
            omega
          · exact hc c hmem'
  · rcases mem_sparseWrite hc with ⟨rfl, hv⟩ | hmem
    · exact hv
    · exact hm.2 c hmem

end Sparse

/-! ### The byte arrays -/

/-- A store keeps the canonical form. -/
theorem memWrite_wf {m : Memory} (hm : Memory.wf m) (k : Nat) (v : Byte) : Memory.wf (memWrite m k v) := sparseWrite_wf hm k v

/-- A read after a store (R88). -/
theorem memRead_memWrite {m : Memory} (hm : Memory.wf m) (k j : Nat) (v : Byte) :
    memRead (memWrite m k v) j = if j = k then v else memRead m j := sparseRead_sparseWrite m hm.1 k j v

/-- Reset's memory lists nothing, which is canonical. -/
theorem reset_memory_wf : Memory.wf State.reset.mem := ⟨List.Pairwise.nil, by simp [State.reset]⟩

/-! ### The framebuffer -/

/-- A row after a row is replaced (R399). -/
theorem rowRead_rowWrite {fb : List (Nat × List Shade)} (hfb : sparseWf blankRow fb) (y z : Nat) (row : List Shade) :
    rowRead (rowWrite fb y row) z = if z = y then row else rowRead fb z := sparseRead_sparseWrite fb hfb.1 y z row

/-- Replacing a visible row by 160 pixels keeps the canonical form. -/
theorem rowWrite_wf {fb : List (Nat × List Shade)} (hfb : framebufferWf fb) {y : Nat} (hy : y < 144) {row : List Shade}
    (hrow : row.length = 160) : framebufferWf (rowWrite fb y row) := by
  refine ⟨sparseWrite_wf hfb.1 y row, fun c hc => ?_⟩
  rcases mem_sparseWrite hc with ⟨rfl, -⟩ | hmem
  · exact ⟨hy, hrow⟩
  · exact hfb.2 c hmem

end Sys2Proof.Machine
end

