-- ==== Sys2Proof/Laws/State.lean ====
section
/-! SUPPORT. What each register update leaves in each field of the state: one simp lemma per field and update, so that no later
proof unfolds a record update. -/

namespace Sys2Proof.Machine

/-! ### `State.setReg` -/

@[simp] theorem State.setReg_flags (s : State) (r : Reg8) (v : Byte) : (s.setReg r v).flags = s.flags := by cases r <;> rfl
@[simp] theorem State.setReg_pc (s : State) (r : Reg8) (v : Byte) : (s.setReg r v).pc = s.pc := by cases r <;> rfl
@[simp] theorem State.setReg_sp (s : State) (r : Reg8) (v : Byte) : (s.setReg r v).sp = s.sp := by cases r <;> rfl
@[simp] theorem State.setReg_ime (s : State) (r : Reg8) (v : Byte) : (s.setReg r v).ime = s.ime := by cases r <;> rfl
@[simp] theorem State.setReg_imePending (s : State) (r : Reg8) (v : Byte) : (s.setReg r v).imePending = s.imePending := by cases r <;> rfl
@[simp] theorem State.setReg_halted (s : State) (r : Reg8) (v : Byte) : (s.setReg r v).halted = s.halted := by cases r <;> rfl
@[simp] theorem State.setReg_status (s : State) (r : Reg8) (v : Byte) : (s.setReg r v).status = s.status := by cases r <;> rfl
@[simp] theorem State.setReg_ie (s : State) (r : Reg8) (v : Byte) : (s.setReg r v).ie = s.ie := by cases r <;> rfl
@[simp] theorem State.setReg_ifl (s : State) (r : Reg8) (v : Byte) : (s.setReg r v).ifl = s.ifl := by cases r <;> rfl
@[simp] theorem State.setReg_timer (s : State) (r : Reg8) (v : Byte) : (s.setReg r v).timer = s.timer := by cases r <;> rfl
@[simp] theorem State.setReg_video (s : State) (r : Reg8) (v : Byte) : (s.setReg r v).video = s.video := by cases r <;> rfl
@[simp] theorem State.setReg_mem (s : State) (r : Reg8) (v : Byte) : (s.setReg r v).mem = s.mem := by cases r <;> rfl
@[simp] theorem State.setReg_joyp (s : State) (r : Reg8) (v : Byte) : (s.setReg r v).joyp = s.joyp := by cases r <;> rfl
@[simp] theorem State.setReg_bootEnabled (s : State) (r : Reg8) (v : Byte) : (s.setReg r v).bootEnabled = s.bootEnabled := by cases r <;> rfl
@[simp] theorem State.setReg_romLoaded (s : State) (r : Reg8) (v : Byte) : (s.setReg r v).romLoaded = s.romLoaded := by cases r <;> rfl
@[simp] theorem State.setReg_cfg (s : State) (r : Reg8) (v : Byte) : (s.setReg r v).cfg = s.cfg := by cases r <;> rfl
@[simp] theorem State.setReg_quanta (s : State) (r : Reg8) (v : Byte) : (s.setReg r v).quanta = s.quanta := by cases r <;> rfl

/-! ### `State.setBc` -/

@[simp] theorem State.setBc_regs (s : State) (w : Word) : (s.setBc w).regs = { s.regs with b := hi w, c := lo w } := rfl
@[simp] theorem State.setBc_flags (s : State) (w : Word) : (s.setBc w).flags = s.flags := rfl
@[simp] theorem State.setBc_pc (s : State) (w : Word) : (s.setBc w).pc = s.pc := rfl
@[simp] theorem State.setBc_sp (s : State) (w : Word) : (s.setBc w).sp = s.sp := rfl
@[simp] theorem State.setBc_ime (s : State) (w : Word) : (s.setBc w).ime = s.ime := rfl
@[simp] theorem State.setBc_imePending (s : State) (w : Word) : (s.setBc w).imePending = s.imePending := rfl
@[simp] theorem State.setBc_halted (s : State) (w : Word) : (s.setBc w).halted = s.halted := rfl
@[simp] theorem State.setBc_status (s : State) (w : Word) : (s.setBc w).status = s.status := rfl
@[simp] theorem State.setBc_ie (s : State) (w : Word) : (s.setBc w).ie = s.ie := rfl
@[simp] theorem State.setBc_ifl (s : State) (w : Word) : (s.setBc w).ifl = s.ifl := rfl
@[simp] theorem State.setBc_timer (s : State) (w : Word) : (s.setBc w).timer = s.timer := rfl
@[simp] theorem State.setBc_video (s : State) (w : Word) : (s.setBc w).video = s.video := rfl
@[simp] theorem State.setBc_mem (s : State) (w : Word) : (s.setBc w).mem = s.mem := rfl
@[simp] theorem State.setBc_joyp (s : State) (w : Word) : (s.setBc w).joyp = s.joyp := rfl
@[simp] theorem State.setBc_bootEnabled (s : State) (w : Word) : (s.setBc w).bootEnabled = s.bootEnabled := rfl
@[simp] theorem State.setBc_romLoaded (s : State) (w : Word) : (s.setBc w).romLoaded = s.romLoaded := rfl
@[simp] theorem State.setBc_cfg (s : State) (w : Word) : (s.setBc w).cfg = s.cfg := rfl
@[simp] theorem State.setBc_quanta (s : State) (w : Word) : (s.setBc w).quanta = s.quanta := rfl

/-! ### `State.setDe` -/

@[simp] theorem State.setDe_regs (s : State) (w : Word) : (s.setDe w).regs = { s.regs with d := hi w, e := lo w } := rfl
@[simp] theorem State.setDe_flags (s : State) (w : Word) : (s.setDe w).flags = s.flags := rfl
@[simp] theorem State.setDe_pc (s : State) (w : Word) : (s.setDe w).pc = s.pc := rfl
@[simp] theorem State.setDe_sp (s : State) (w : Word) : (s.setDe w).sp = s.sp := rfl
@[simp] theorem State.setDe_ime (s : State) (w : Word) : (s.setDe w).ime = s.ime := rfl
@[simp] theorem State.setDe_imePending (s : State) (w : Word) : (s.setDe w).imePending = s.imePending := rfl
@[simp] theorem State.setDe_halted (s : State) (w : Word) : (s.setDe w).halted = s.halted := rfl
@[simp] theorem State.setDe_status (s : State) (w : Word) : (s.setDe w).status = s.status := rfl
@[simp] theorem State.setDe_ie (s : State) (w : Word) : (s.setDe w).ie = s.ie := rfl
@[simp] theorem State.setDe_ifl (s : State) (w : Word) : (s.setDe w).ifl = s.ifl := rfl
@[simp] theorem State.setDe_timer (s : State) (w : Word) : (s.setDe w).timer = s.timer := rfl
@[simp] theorem State.setDe_video (s : State) (w : Word) : (s.setDe w).video = s.video := rfl
@[simp] theorem State.setDe_mem (s : State) (w : Word) : (s.setDe w).mem = s.mem := rfl
@[simp] theorem State.setDe_joyp (s : State) (w : Word) : (s.setDe w).joyp = s.joyp := rfl
@[simp] theorem State.setDe_bootEnabled (s : State) (w : Word) : (s.setDe w).bootEnabled = s.bootEnabled := rfl
@[simp] theorem State.setDe_romLoaded (s : State) (w : Word) : (s.setDe w).romLoaded = s.romLoaded := rfl
@[simp] theorem State.setDe_cfg (s : State) (w : Word) : (s.setDe w).cfg = s.cfg := rfl
@[simp] theorem State.setDe_quanta (s : State) (w : Word) : (s.setDe w).quanta = s.quanta := rfl

/-! ### `State.setHl` -/

@[simp] theorem State.setHl_regs (s : State) (w : Word) : (s.setHl w).regs = { s.regs with h := hi w, l := lo w } := rfl
@[simp] theorem State.setHl_flags (s : State) (w : Word) : (s.setHl w).flags = s.flags := rfl
@[simp] theorem State.setHl_pc (s : State) (w : Word) : (s.setHl w).pc = s.pc := rfl
@[simp] theorem State.setHl_sp (s : State) (w : Word) : (s.setHl w).sp = s.sp := rfl
@[simp] theorem State.setHl_ime (s : State) (w : Word) : (s.setHl w).ime = s.ime := rfl
@[simp] theorem State.setHl_imePending (s : State) (w : Word) : (s.setHl w).imePending = s.imePending := rfl
@[simp] theorem State.setHl_halted (s : State) (w : Word) : (s.setHl w).halted = s.halted := rfl
@[simp] theorem State.setHl_status (s : State) (w : Word) : (s.setHl w).status = s.status := rfl
@[simp] theorem State.setHl_ie (s : State) (w : Word) : (s.setHl w).ie = s.ie := rfl
@[simp] theorem State.setHl_ifl (s : State) (w : Word) : (s.setHl w).ifl = s.ifl := rfl
@[simp] theorem State.setHl_timer (s : State) (w : Word) : (s.setHl w).timer = s.timer := rfl
@[simp] theorem State.setHl_video (s : State) (w : Word) : (s.setHl w).video = s.video := rfl
@[simp] theorem State.setHl_mem (s : State) (w : Word) : (s.setHl w).mem = s.mem := rfl
@[simp] theorem State.setHl_joyp (s : State) (w : Word) : (s.setHl w).joyp = s.joyp := rfl
@[simp] theorem State.setHl_bootEnabled (s : State) (w : Word) : (s.setHl w).bootEnabled = s.bootEnabled := rfl
@[simp] theorem State.setHl_romLoaded (s : State) (w : Word) : (s.setHl w).romLoaded = s.romLoaded := rfl
@[simp] theorem State.setHl_cfg (s : State) (w : Word) : (s.setHl w).cfg = s.cfg := rfl
@[simp] theorem State.setHl_quanta (s : State) (w : Word) : (s.setHl w).quanta = s.quanta := rfl

/-! ### `State.setPair` -/

@[simp] theorem State.setPair_flags (s : State) (rr : Reg16) (w : Word) : (s.setPair rr w).flags = s.flags := by cases rr <;> rfl
@[simp] theorem State.setPair_pc (s : State) (rr : Reg16) (w : Word) : (s.setPair rr w).pc = s.pc := by cases rr <;> rfl
@[simp] theorem State.setPair_ime (s : State) (rr : Reg16) (w : Word) : (s.setPair rr w).ime = s.ime := by cases rr <;> rfl
@[simp] theorem State.setPair_imePending (s : State) (rr : Reg16) (w : Word) : (s.setPair rr w).imePending = s.imePending := by cases rr <;> rfl
@[simp] theorem State.setPair_halted (s : State) (rr : Reg16) (w : Word) : (s.setPair rr w).halted = s.halted := by cases rr <;> rfl
@[simp] theorem State.setPair_status (s : State) (rr : Reg16) (w : Word) : (s.setPair rr w).status = s.status := by cases rr <;> rfl
@[simp] theorem State.setPair_ie (s : State) (rr : Reg16) (w : Word) : (s.setPair rr w).ie = s.ie := by cases rr <;> rfl
@[simp] theorem State.setPair_ifl (s : State) (rr : Reg16) (w : Word) : (s.setPair rr w).ifl = s.ifl := by cases rr <;> rfl
@[simp] theorem State.setPair_timer (s : State) (rr : Reg16) (w : Word) : (s.setPair rr w).timer = s.timer := by cases rr <;> rfl
@[simp] theorem State.setPair_video (s : State) (rr : Reg16) (w : Word) : (s.setPair rr w).video = s.video := by cases rr <;> rfl
@[simp] theorem State.setPair_mem (s : State) (rr : Reg16) (w : Word) : (s.setPair rr w).mem = s.mem := by cases rr <;> rfl
@[simp] theorem State.setPair_joyp (s : State) (rr : Reg16) (w : Word) : (s.setPair rr w).joyp = s.joyp := by cases rr <;> rfl
@[simp] theorem State.setPair_bootEnabled (s : State) (rr : Reg16) (w : Word) : (s.setPair rr w).bootEnabled = s.bootEnabled := by cases rr <;> rfl
@[simp] theorem State.setPair_romLoaded (s : State) (rr : Reg16) (w : Word) : (s.setPair rr w).romLoaded = s.romLoaded := by cases rr <;> rfl
@[simp] theorem State.setPair_cfg (s : State) (rr : Reg16) (w : Word) : (s.setPair rr w).cfg = s.cfg := by cases rr <;> rfl
@[simp] theorem State.setPair_quanta (s : State) (rr : Reg16) (w : Word) : (s.setPair rr w).quanta = s.quanta := by cases rr <;> rfl

/-! ### `State.setStkPair` -/

@[simp] theorem State.setStkPair_flags (s : State) (qq : StkReg) (w : Word) : (s.setStkPair qq w).flags = s.flags := by cases qq <;> rfl
@[simp] theorem State.setStkPair_pc (s : State) (qq : StkReg) (w : Word) : (s.setStkPair qq w).pc = s.pc := by cases qq <;> rfl
@[simp] theorem State.setStkPair_sp (s : State) (qq : StkReg) (w : Word) : (s.setStkPair qq w).sp = s.sp := by cases qq <;> rfl
@[simp] theorem State.setStkPair_ime (s : State) (qq : StkReg) (w : Word) : (s.setStkPair qq w).ime = s.ime := by cases qq <;> rfl
@[simp] theorem State.setStkPair_imePending (s : State) (qq : StkReg) (w : Word) : (s.setStkPair qq w).imePending = s.imePending := by cases qq <;> rfl
@[simp] theorem State.setStkPair_halted (s : State) (qq : StkReg) (w : Word) : (s.setStkPair qq w).halted = s.halted := by cases qq <;> rfl
@[simp] theorem State.setStkPair_status (s : State) (qq : StkReg) (w : Word) : (s.setStkPair qq w).status = s.status := by cases qq <;> rfl
@[simp] theorem State.setStkPair_ie (s : State) (qq : StkReg) (w : Word) : (s.setStkPair qq w).ie = s.ie := by cases qq <;> rfl
@[simp] theorem State.setStkPair_ifl (s : State) (qq : StkReg) (w : Word) : (s.setStkPair qq w).ifl = s.ifl := by cases qq <;> rfl
@[simp] theorem State.setStkPair_timer (s : State) (qq : StkReg) (w : Word) : (s.setStkPair qq w).timer = s.timer := by cases qq <;> rfl
@[simp] theorem State.setStkPair_video (s : State) (qq : StkReg) (w : Word) : (s.setStkPair qq w).video = s.video := by cases qq <;> rfl
@[simp] theorem State.setStkPair_mem (s : State) (qq : StkReg) (w : Word) : (s.setStkPair qq w).mem = s.mem := by cases qq <;> rfl
@[simp] theorem State.setStkPair_joyp (s : State) (qq : StkReg) (w : Word) : (s.setStkPair qq w).joyp = s.joyp := by cases qq <;> rfl
@[simp] theorem State.setStkPair_bootEnabled (s : State) (qq : StkReg) (w : Word) : (s.setStkPair qq w).bootEnabled = s.bootEnabled := by cases qq <;> rfl
@[simp] theorem State.setStkPair_romLoaded (s : State) (qq : StkReg) (w : Word) : (s.setStkPair qq w).romLoaded = s.romLoaded := by cases qq <;> rfl
@[simp] theorem State.setStkPair_cfg (s : State) (qq : StkReg) (w : Word) : (s.setStkPair qq w).cfg = s.cfg := by cases qq <;> rfl
@[simp] theorem State.setStkPair_quanta (s : State) (qq : StkReg) (w : Word) : (s.setStkPair qq w).quanta = s.quanta := by cases qq <;> rfl

/-! ### `State.setAf` -/

@[simp] theorem State.setAf_regs (s : State) (w : Word) : (s.setAf w).regs = { s.regs with a := hi w } := rfl
@[simp] theorem State.setAf_flags (s : State) (w : Word) : (s.setAf w).flags = flagsOfByte (lo w) := rfl
@[simp] theorem State.setAf_pc (s : State) (w : Word) : (s.setAf w).pc = s.pc := rfl
@[simp] theorem State.setAf_sp (s : State) (w : Word) : (s.setAf w).sp = s.sp := rfl
@[simp] theorem State.setAf_ime (s : State) (w : Word) : (s.setAf w).ime = s.ime := rfl
@[simp] theorem State.setAf_imePending (s : State) (w : Word) : (s.setAf w).imePending = s.imePending := rfl
@[simp] theorem State.setAf_halted (s : State) (w : Word) : (s.setAf w).halted = s.halted := rfl
@[simp] theorem State.setAf_status (s : State) (w : Word) : (s.setAf w).status = s.status := rfl
@[simp] theorem State.setAf_ie (s : State) (w : Word) : (s.setAf w).ie = s.ie := rfl
@[simp] theorem State.setAf_ifl (s : State) (w : Word) : (s.setAf w).ifl = s.ifl := rfl
@[simp] theorem State.setAf_timer (s : State) (w : Word) : (s.setAf w).timer = s.timer := rfl
@[simp] theorem State.setAf_video (s : State) (w : Word) : (s.setAf w).video = s.video := rfl
@[simp] theorem State.setAf_mem (s : State) (w : Word) : (s.setAf w).mem = s.mem := rfl
@[simp] theorem State.setAf_joyp (s : State) (w : Word) : (s.setAf w).joyp = s.joyp := rfl
@[simp] theorem State.setAf_bootEnabled (s : State) (w : Word) : (s.setAf w).bootEnabled = s.bootEnabled := rfl
@[simp] theorem State.setAf_romLoaded (s : State) (w : Word) : (s.setAf w).romLoaded = s.romLoaded := rfl
@[simp] theorem State.setAf_cfg (s : State) (w : Word) : (s.setAf w).cfg = s.cfg := rfl
@[simp] theorem State.setAf_quanta (s : State) (w : Word) : (s.setAf w).quanta = s.quanta := rfl

/-! ### `State.setFlags` -/

@[simp] theorem State.setFlags_regs (s : State) (f : Flags) : (s.setFlags f).regs = s.regs := rfl
@[simp] theorem State.setFlags_flags (s : State) (f : Flags) : (s.setFlags f).flags = f := rfl
@[simp] theorem State.setFlags_pc (s : State) (f : Flags) : (s.setFlags f).pc = s.pc := rfl
@[simp] theorem State.setFlags_sp (s : State) (f : Flags) : (s.setFlags f).sp = s.sp := rfl
@[simp] theorem State.setFlags_ime (s : State) (f : Flags) : (s.setFlags f).ime = s.ime := rfl
@[simp] theorem State.setFlags_imePending (s : State) (f : Flags) : (s.setFlags f).imePending = s.imePending := rfl
@[simp] theorem State.setFlags_halted (s : State) (f : Flags) : (s.setFlags f).halted = s.halted := rfl
@[simp] theorem State.setFlags_status (s : State) (f : Flags) : (s.setFlags f).status = s.status := rfl
@[simp] theorem State.setFlags_ie (s : State) (f : Flags) : (s.setFlags f).ie = s.ie := rfl
@[simp] theorem State.setFlags_ifl (s : State) (f : Flags) : (s.setFlags f).ifl = s.ifl := rfl
@[simp] theorem State.setFlags_timer (s : State) (f : Flags) : (s.setFlags f).timer = s.timer := rfl
@[simp] theorem State.setFlags_video (s : State) (f : Flags) : (s.setFlags f).video = s.video := rfl
@[simp] theorem State.setFlags_mem (s : State) (f : Flags) : (s.setFlags f).mem = s.mem := rfl
@[simp] theorem State.setFlags_joyp (s : State) (f : Flags) : (s.setFlags f).joyp = s.joyp := rfl
@[simp] theorem State.setFlags_bootEnabled (s : State) (f : Flags) : (s.setFlags f).bootEnabled = s.bootEnabled := rfl
@[simp] theorem State.setFlags_romLoaded (s : State) (f : Flags) : (s.setFlags f).romLoaded = s.romLoaded := rfl
@[simp] theorem State.setFlags_cfg (s : State) (f : Flags) : (s.setFlags f).cfg = s.cfg := rfl
@[simp] theorem State.setFlags_quanta (s : State) (f : Flags) : (s.setFlags f).quanta = s.quanta := rfl

/-! ### `State.setPc` -/

@[simp] theorem State.setPc_regs (s : State) (target : Word) : (s.setPc target).regs = s.regs := rfl
@[simp] theorem State.setPc_flags (s : State) (target : Word) : (s.setPc target).flags = s.flags := rfl
@[simp] theorem State.setPc_pc (s : State) (target : Word) : (s.setPc target).pc = target := rfl
@[simp] theorem State.setPc_sp (s : State) (target : Word) : (s.setPc target).sp = s.sp := rfl
@[simp] theorem State.setPc_ime (s : State) (target : Word) : (s.setPc target).ime = s.ime := rfl
@[simp] theorem State.setPc_imePending (s : State) (target : Word) : (s.setPc target).imePending = s.imePending := rfl
@[simp] theorem State.setPc_halted (s : State) (target : Word) : (s.setPc target).halted = s.halted := rfl
@[simp] theorem State.setPc_status (s : State) (target : Word) : (s.setPc target).status = s.status := rfl
@[simp] theorem State.setPc_ie (s : State) (target : Word) : (s.setPc target).ie = s.ie := rfl
@[simp] theorem State.setPc_ifl (s : State) (target : Word) : (s.setPc target).ifl = s.ifl := rfl
@[simp] theorem State.setPc_timer (s : State) (target : Word) : (s.setPc target).timer = s.timer := rfl
@[simp] theorem State.setPc_video (s : State) (target : Word) : (s.setPc target).video = s.video := rfl
@[simp] theorem State.setPc_mem (s : State) (target : Word) : (s.setPc target).mem = s.mem := rfl
@[simp] theorem State.setPc_joyp (s : State) (target : Word) : (s.setPc target).joyp = s.joyp := rfl
@[simp] theorem State.setPc_bootEnabled (s : State) (target : Word) : (s.setPc target).bootEnabled = s.bootEnabled := rfl
@[simp] theorem State.setPc_romLoaded (s : State) (target : Word) : (s.setPc target).romLoaded = s.romLoaded := rfl
@[simp] theorem State.setPc_cfg (s : State) (target : Word) : (s.setPc target).cfg = s.cfg := rfl
@[simp] theorem State.setPc_quanta (s : State) (target : Word) : (s.setPc target).quanta = s.quanta := rfl

/-! ### `State.cost` -/

@[simp] theorem State.cost_regs (s : State) (q : Nat) : (s.cost q).regs = s.regs := rfl
@[simp] theorem State.cost_flags (s : State) (q : Nat) : (s.cost q).flags = s.flags := rfl
@[simp] theorem State.cost_pc (s : State) (q : Nat) : (s.cost q).pc = s.pc := rfl
@[simp] theorem State.cost_sp (s : State) (q : Nat) : (s.cost q).sp = s.sp := rfl
@[simp] theorem State.cost_ime (s : State) (q : Nat) : (s.cost q).ime = s.ime := rfl
@[simp] theorem State.cost_imePending (s : State) (q : Nat) : (s.cost q).imePending = s.imePending := rfl
@[simp] theorem State.cost_halted (s : State) (q : Nat) : (s.cost q).halted = s.halted := rfl
@[simp] theorem State.cost_status (s : State) (q : Nat) : (s.cost q).status = s.status := rfl
@[simp] theorem State.cost_ie (s : State) (q : Nat) : (s.cost q).ie = s.ie := rfl
@[simp] theorem State.cost_ifl (s : State) (q : Nat) : (s.cost q).ifl = s.ifl := rfl
@[simp] theorem State.cost_timer (s : State) (q : Nat) : (s.cost q).timer = s.timer := rfl
@[simp] theorem State.cost_video (s : State) (q : Nat) : (s.cost q).video = s.video := rfl
@[simp] theorem State.cost_mem (s : State) (q : Nat) : (s.cost q).mem = s.mem := rfl
@[simp] theorem State.cost_joyp (s : State) (q : Nat) : (s.cost q).joyp = s.joyp := rfl
@[simp] theorem State.cost_bootEnabled (s : State) (q : Nat) : (s.cost q).bootEnabled = s.bootEnabled := rfl
@[simp] theorem State.cost_romLoaded (s : State) (q : Nat) : (s.cost q).romLoaded = s.romLoaded := rfl
@[simp] theorem State.cost_cfg (s : State) (q : Nat) : (s.cost q).cfg = s.cfg := rfl
@[simp] theorem State.cost_quanta (s : State) (q : Nat) : (s.cost q).quanta = q := rfl

/-! ### `State.advance` -/

@[simp] theorem State.advance_regs (s : State) (n : Nat) : (s.advance n).regs = s.regs := rfl
@[simp] theorem State.advance_flags (s : State) (n : Nat) : (s.advance n).flags = s.flags := rfl
@[simp] theorem State.advance_pc (s : State) (n : Nat) : (s.advance n).pc = s.pc + BitVec.ofNat 16 n := rfl
@[simp] theorem State.advance_sp (s : State) (n : Nat) : (s.advance n).sp = s.sp := rfl
@[simp] theorem State.advance_ime (s : State) (n : Nat) : (s.advance n).ime = s.ime := rfl
@[simp] theorem State.advance_imePending (s : State) (n : Nat) : (s.advance n).imePending = s.imePending := rfl
@[simp] theorem State.advance_halted (s : State) (n : Nat) : (s.advance n).halted = s.halted := rfl
@[simp] theorem State.advance_status (s : State) (n : Nat) : (s.advance n).status = s.status := rfl
@[simp] theorem State.advance_ie (s : State) (n : Nat) : (s.advance n).ie = s.ie := rfl
@[simp] theorem State.advance_ifl (s : State) (n : Nat) : (s.advance n).ifl = s.ifl := rfl
@[simp] theorem State.advance_timer (s : State) (n : Nat) : (s.advance n).timer = s.timer := rfl
@[simp] theorem State.advance_video (s : State) (n : Nat) : (s.advance n).video = s.video := rfl
@[simp] theorem State.advance_mem (s : State) (n : Nat) : (s.advance n).mem = s.mem := rfl
@[simp] theorem State.advance_joyp (s : State) (n : Nat) : (s.advance n).joyp = s.joyp := rfl
@[simp] theorem State.advance_bootEnabled (s : State) (n : Nat) : (s.advance n).bootEnabled = s.bootEnabled := rfl
@[simp] theorem State.advance_romLoaded (s : State) (n : Nat) : (s.advance n).romLoaded = s.romLoaded := rfl
@[simp] theorem State.advance_cfg (s : State) (n : Nat) : (s.advance n).cfg = s.cfg := rfl
@[simp] theorem State.advance_quanta (s : State) (n : Nat) : (s.advance n).quanta = s.quanta := rfl

/-! ### `State.storeKey` -/

@[simp] theorem State.storeKey_regs (s : State) (k : Nat) (v : Byte) : (s.storeKey k v).regs = s.regs := rfl
@[simp] theorem State.storeKey_flags (s : State) (k : Nat) (v : Byte) : (s.storeKey k v).flags = s.flags := rfl
@[simp] theorem State.storeKey_pc (s : State) (k : Nat) (v : Byte) : (s.storeKey k v).pc = s.pc := rfl
@[simp] theorem State.storeKey_sp (s : State) (k : Nat) (v : Byte) : (s.storeKey k v).sp = s.sp := rfl
@[simp] theorem State.storeKey_ime (s : State) (k : Nat) (v : Byte) : (s.storeKey k v).ime = s.ime := rfl
@[simp] theorem State.storeKey_imePending (s : State) (k : Nat) (v : Byte) : (s.storeKey k v).imePending = s.imePending := rfl
@[simp] theorem State.storeKey_halted (s : State) (k : Nat) (v : Byte) : (s.storeKey k v).halted = s.halted := rfl
@[simp] theorem State.storeKey_status (s : State) (k : Nat) (v : Byte) : (s.storeKey k v).status = s.status := rfl
@[simp] theorem State.storeKey_ie (s : State) (k : Nat) (v : Byte) : (s.storeKey k v).ie = s.ie := rfl
@[simp] theorem State.storeKey_ifl (s : State) (k : Nat) (v : Byte) : (s.storeKey k v).ifl = s.ifl := rfl
@[simp] theorem State.storeKey_timer (s : State) (k : Nat) (v : Byte) : (s.storeKey k v).timer = s.timer := rfl
@[simp] theorem State.storeKey_video (s : State) (k : Nat) (v : Byte) : (s.storeKey k v).video = s.video := rfl
@[simp] theorem State.storeKey_mem (s : State) (k : Nat) (v : Byte) : (s.storeKey k v).mem = memWrite s.mem k v := rfl
@[simp] theorem State.storeKey_joyp (s : State) (k : Nat) (v : Byte) : (s.storeKey k v).joyp = s.joyp := rfl
@[simp] theorem State.storeKey_bootEnabled (s : State) (k : Nat) (v : Byte) : (s.storeKey k v).bootEnabled = s.bootEnabled := rfl
@[simp] theorem State.storeKey_romLoaded (s : State) (k : Nat) (v : Byte) : (s.storeKey k v).romLoaded = s.romLoaded := rfl
@[simp] theorem State.storeKey_cfg (s : State) (k : Nat) (v : Byte) : (s.storeKey k v).cfg = s.cfg := rfl
@[simp] theorem State.storeKey_quanta (s : State) (k : Nat) (v : Byte) : (s.storeKey k v).quanta = s.quanta := rfl

/-! ### `dropWord` -/

@[simp] theorem dropWord_regs (s : State) : (dropWord s).regs = s.regs := rfl
@[simp] theorem dropWord_flags (s : State) : (dropWord s).flags = s.flags := rfl
@[simp] theorem dropWord_pc (s : State) : (dropWord s).pc = s.pc := rfl
@[simp] theorem dropWord_sp (s : State) : (dropWord s).sp = s.sp + 2 := rfl
@[simp] theorem dropWord_ime (s : State) : (dropWord s).ime = s.ime := rfl
@[simp] theorem dropWord_imePending (s : State) : (dropWord s).imePending = s.imePending := rfl
@[simp] theorem dropWord_halted (s : State) : (dropWord s).halted = s.halted := rfl
@[simp] theorem dropWord_status (s : State) : (dropWord s).status = s.status := rfl
@[simp] theorem dropWord_ie (s : State) : (dropWord s).ie = s.ie := rfl
@[simp] theorem dropWord_ifl (s : State) : (dropWord s).ifl = s.ifl := rfl
@[simp] theorem dropWord_timer (s : State) : (dropWord s).timer = s.timer := rfl
@[simp] theorem dropWord_video (s : State) : (dropWord s).video = s.video := rfl
@[simp] theorem dropWord_mem (s : State) : (dropWord s).mem = s.mem := rfl
@[simp] theorem dropWord_joyp (s : State) : (dropWord s).joyp = s.joyp := rfl
@[simp] theorem dropWord_bootEnabled (s : State) : (dropWord s).bootEnabled = s.bootEnabled := rfl
@[simp] theorem dropWord_romLoaded (s : State) : (dropWord s).romLoaded = s.romLoaded := rfl
@[simp] theorem dropWord_cfg (s : State) : (dropWord s).cfg = s.cfg := rfl
@[simp] theorem dropWord_quanta (s : State) : (dropWord s).quanta = s.quanta := rfl

/-! ### `disableInterrupts` -/

@[simp] theorem disableInterrupts_regs (s : State) : (disableInterrupts s).regs = s.regs := rfl
@[simp] theorem disableInterrupts_flags (s : State) : (disableInterrupts s).flags = s.flags := rfl
@[simp] theorem disableInterrupts_pc (s : State) : (disableInterrupts s).pc = s.pc := rfl
@[simp] theorem disableInterrupts_sp (s : State) : (disableInterrupts s).sp = s.sp := rfl
@[simp] theorem disableInterrupts_ime (s : State) : (disableInterrupts s).ime = false := rfl
@[simp] theorem disableInterrupts_imePending (s : State) : (disableInterrupts s).imePending = false := rfl
@[simp] theorem disableInterrupts_halted (s : State) : (disableInterrupts s).halted = s.halted := rfl
@[simp] theorem disableInterrupts_status (s : State) : (disableInterrupts s).status = s.status := rfl
@[simp] theorem disableInterrupts_ie (s : State) : (disableInterrupts s).ie = s.ie := rfl
@[simp] theorem disableInterrupts_ifl (s : State) : (disableInterrupts s).ifl = s.ifl := rfl
@[simp] theorem disableInterrupts_timer (s : State) : (disableInterrupts s).timer = s.timer := rfl
@[simp] theorem disableInterrupts_video (s : State) : (disableInterrupts s).video = s.video := rfl
@[simp] theorem disableInterrupts_mem (s : State) : (disableInterrupts s).mem = s.mem := rfl
@[simp] theorem disableInterrupts_joyp (s : State) : (disableInterrupts s).joyp = s.joyp := rfl
@[simp] theorem disableInterrupts_bootEnabled (s : State) : (disableInterrupts s).bootEnabled = s.bootEnabled := rfl
@[simp] theorem disableInterrupts_romLoaded (s : State) : (disableInterrupts s).romLoaded = s.romLoaded := rfl
@[simp] theorem disableInterrupts_cfg (s : State) : (disableInterrupts s).cfg = s.cfg := rfl
@[simp] theorem disableInterrupts_quanta (s : State) : (disableInterrupts s).quanta = s.quanta := rfl

/-! ### `raiseDecodeError` -/

@[simp] theorem raiseDecodeError_regs (s : State) : (raiseDecodeError s).regs = s.regs := rfl
@[simp] theorem raiseDecodeError_flags (s : State) : (raiseDecodeError s).flags = s.flags := rfl
@[simp] theorem raiseDecodeError_pc (s : State) : (raiseDecodeError s).pc = s.pc := rfl
@[simp] theorem raiseDecodeError_sp (s : State) : (raiseDecodeError s).sp = s.sp := rfl
@[simp] theorem raiseDecodeError_ime (s : State) : (raiseDecodeError s).ime = s.ime := rfl
@[simp] theorem raiseDecodeError_imePending (s : State) : (raiseDecodeError s).imePending = s.imePending := rfl
@[simp] theorem raiseDecodeError_halted (s : State) : (raiseDecodeError s).halted = s.halted := rfl
@[simp] theorem raiseDecodeError_status (s : State) : (raiseDecodeError s).status = .stopped := rfl
@[simp] theorem raiseDecodeError_ie (s : State) : (raiseDecodeError s).ie = s.ie := rfl
@[simp] theorem raiseDecodeError_ifl (s : State) : (raiseDecodeError s).ifl = s.ifl := rfl
@[simp] theorem raiseDecodeError_timer (s : State) : (raiseDecodeError s).timer = s.timer := rfl
@[simp] theorem raiseDecodeError_video (s : State) : (raiseDecodeError s).video = s.video := rfl
@[simp] theorem raiseDecodeError_mem (s : State) : (raiseDecodeError s).mem = s.mem := rfl
@[simp] theorem raiseDecodeError_joyp (s : State) : (raiseDecodeError s).joyp = s.joyp := rfl
@[simp] theorem raiseDecodeError_bootEnabled (s : State) : (raiseDecodeError s).bootEnabled = s.bootEnabled := rfl
@[simp] theorem raiseDecodeError_romLoaded (s : State) : (raiseDecodeError s).romLoaded = s.romLoaded := rfl
@[simp] theorem raiseDecodeError_cfg (s : State) : (raiseDecodeError s).cfg = s.cfg := rfl
@[simp] theorem raiseDecodeError_quanta (s : State) : (raiseDecodeError s).quanta = 0 := rfl

/-! ### Registers by code -/

@[simp] theorem State.setReg_reg_self (s : State) (r : Reg8) (v : Byte) : (s.setReg r v).reg r = v := by cases r <;> rfl

/-- Writing one register leaves the others (R24). -/
theorem State.setReg_reg_other (s : State) {r x : Reg8} (v : Byte) (h : x ≠ r) : (s.setReg r v).reg x = s.reg x := by
  cases r <;> cases x <;> first | rfl | exact absurd rfl h

/-- A register's value depends on the registers alone. -/
theorem State.reg_congr {s t : State} (h : t.regs = s.regs) (r : Reg8) : t.reg r = s.reg r := by
  cases r <;> simp [State.reg, h]

@[simp] theorem State.setFlags_reg (s : State) (f : Flags) (r : Reg8) : (s.setFlags f).reg r = s.reg r := by cases r <;> rfl

@[simp] theorem State.cost_reg (s : State) (q : Nat) (r : Reg8) : (s.cost q).reg r = s.reg r := by cases r <;> rfl

@[simp] theorem State.setReg_a_regs (s : State) (v : Byte) : (s.setReg .a v).regs = { s.regs with a := v } := rfl

@[simp] theorem State.reg_a (s : State) : s.reg .a = s.regs.a := rfl

/-! ### Halves of a word (R10, R11, R21) -/

theorem join_toNat (h l : Byte) : (join h l).toNat = h.toNat * 256 + l.toNat := by
  have := l.isLt
  show (BitVec.append h l).toNat = _
  rw [show BitVec.append h l = h ++ l from rfl, BitVec.toNat_append, Nat.shiftLeft_eq, Nat.mul_comm, ← Nat.two_pow_add_eq_or_of_lt l.isLt]

theorem hi_toNat (w : Word) : (hi w).toNat = w.toNat / 256 := by
  have := w.isLt
  simp [hi, Nat.shiftRight_eq_div_pow]; omega

theorem lo_toNat (w : Word) : (lo w).toNat = w.toNat % 256 := by
  simp [lo]

@[simp] theorem hi_join (h l : Byte) : hi (join h l) = h := by
  apply BitVec.eq_of_toNat_eq; rw [hi_toNat, join_toNat]; omega

@[simp] theorem lo_join (h l : Byte) : lo (join h l) = l := by
  apply BitVec.eq_of_toNat_eq; rw [lo_toNat, join_toNat]; omega

@[simp] theorem join_hi_lo (w : Word) : join (hi w) (lo w) = w := by
  apply BitVec.eq_of_toNat_eq; rw [join_toNat, hi_toNat, lo_toNat]; omega

@[simp] theorem State.setHl_hl (s : State) (w : Word) : (s.setHl w).hl = w := by simp [State.hl]

/-- Reading back a written pair (R21, R26). -/
@[simp] theorem State.setPair_pair (s : State) (rr : Reg16) (w : Word) : (s.setPair rr w).pair rr = w := by
  cases rr <;> simp [State.setPair, State.pair, State.bc, State.de, State.hl]

/-- Reading back a written stack pair (R21, R25). -/
@[simp] theorem State.setStkPair_stkPair (s : State) (qq : StkReg) (w : Word) : (s.setStkPair qq w).stkPair qq = w := by
  cases qq <;> simp [State.setStkPair, State.stkPair, State.bc, State.de, State.hl]

/-! ### The flags byte (R22, R25) -/

/-- The low nibble of F is 0 (R22). -/
theorem Flags.toByte_low (f : Flags) : f.toByte &&& 0x0F = 0 := by
  obtain ⟨z, n, h, c⟩ := f
  cases z <;> cases n <;> cases h <;> cases c <;> decide

@[simp] theorem flagsOfByte_toByte (f : Flags) : flagsOfByte f.toByte = f := by
  obtain ⟨z, n, h, c⟩ := f
  cases z <;> cases n <;> cases h <;> cases c <;> decide

/-- Writing F drops the low nibble (R25). -/
theorem toByte_flagsOfByte (v : Byte) : (flagsOfByte v).toByte = v &&& 0xF0 := by
  revert v; decide

end Sys2Proof.Machine
end

