-- ==== Sys2Proof/Laws/Bus.lean ====
section
/-! SUPPORT. What a bus access can do: where addresses lead, what a store leaves alone, what a read after it answers. -/

namespace Sys2Proof.Machine

/-! ### The decoder -/

/-- The address of a register (R75, R77). -/
def portAddr : Port → Word
  | .joyp => 0xFF00 | .div => 0xFF04 | .tima => 0xFF05 | .tma => 0xFF06 | .tac => 0xFF07 | .ifl => 0xFF0F
  | .lcdc => 0xFF40 | .stat => 0xFF41 | .scy => 0xFF42 | .scx => 0xFF43 | .ly => 0xFF44 | .lyc => 0xFF45 | .dma => 0xFF46
  | .bgp => 0xFF47 | .obp0 => 0xFF48 | .obp1 => 0xFF49 | .wy => 0xFF4A | .wx => 0xFF4B | .bootOff => 0xFF50 | .ie => 0xFFFF

theorem busTarget_portAddr (p : Port) : busTarget (portAddr p) = .port p := by cases p <;> decide

theorem busTarget_cases (a : Word) :
    (a.toNat < 0x8000 ∧ busTarget a = .rom a.toNat) ∨
    (0x8000 ≤ a.toNat ∧ a.toNat < 0xE000 ∧ busTarget a = .ram a.toNat) ∨
    (0xE000 ≤ a.toNat ∧ a.toNat < 0xFE00 ∧ busTarget a = .ram (a.toNat - 0x2000)) ∨
    (0xFE00 ≤ a.toNat ∧ a.toNat < 0xFEA0 ∧ busTarget a = .ram a.toNat) ∨
    (0xFF10 ≤ a.toNat ∧ a.toNat < 0xFF40 ∧ busTarget a = .audio (a.toNat - 0xFF10)) ∨
    (0xFF80 ≤ a.toNat ∧ a.toNat < 0xFFFF ∧ busTarget a = .ram a.toNat) ∨
    (∃ p, a = portAddr p ∧ busTarget a = .port p) ∨
    (unmappedAddr a ∧ busTarget a = .unmapped) := by
  by_cases hport : ∃ p, a = portAddr p
  · obtain ⟨p, rfl⟩ := hport
    exact .inr (.inr (.inr (.inr (.inr (.inr (.inl ⟨p, rfl, busTarget_portAddr p⟩))))))
  · have ne (n : Nat) (p : Port) (h : portAddr p = BitVec.ofNat 16 n) (hn : n < 65536) : a.toNat ≠ n := by
      intro hne
      refine hport ⟨p, ?_⟩
      rw [h, ← hne, BitVec.ofNat_toNat, BitVec.setWidth_eq]
    have h0 := ne 0xFF00 .joyp rfl (by decide)
    have h1 := ne 0xFF04 .div rfl (by decide)
    have h2 := ne 0xFF05 .tima rfl (by decide)
    have h3 := ne 0xFF06 .tma rfl (by decide)
    have h4 := ne 0xFF07 .tac rfl (by decide)
    have h5 := ne 0xFF0F .ifl rfl (by decide)
    have h6 := ne 0xFF40 .lcdc rfl (by decide)
    have h7 := ne 0xFF41 .stat rfl (by decide)
    have h8 := ne 0xFF42 .scy rfl (by decide)
    have h9 := ne 0xFF43 .scx rfl (by decide)
    have h10 := ne 0xFF44 .ly rfl (by decide)
    have h11 := ne 0xFF45 .lyc rfl (by decide)
    have h12 := ne 0xFF46 .dma rfl (by decide)
    have h13 := ne 0xFF47 .bgp rfl (by decide)
    have h14 := ne 0xFF48 .obp0 rfl (by decide)
    have h15 := ne 0xFF49 .obp1 rfl (by decide)
    have h16 := ne 0xFF4A .wy rfl (by decide)
    have h17 := ne 0xFF4B .wx rfl (by decide)
    have h18 := ne 0xFF50 .bootOff rfl (by decide)
    have h19 := ne 0xFFFF .ie rfl (by decide)
    have hlt := a.isLt
    simp only [busTarget, ioTarget]
    by_cases c1 : a.toNat < 0x8000
    · simp [c1]
    by_cases c2 : a.toNat < 0xE000
    · simp [c1, c2]; omega
    by_cases c3 : a.toNat < 0xFE00
    · simp [c1, c2, c3]; omega
    by_cases c4 : a.toNat < 0xFEA0
    · simp [c1, c2, c3, c4]; omega
    by_cases c5 : a.toNat < 0xFF00
    · simp [c1, c2, c3, c4, c5, unmappedAddr]; omega
    by_cases c6 : a.toNat < 0xFF80
    · have e (n : Nat) (h : a.toNat ≠ 0xFF00 + n) : ¬ (a.toNat - 0xFF00 = n) := by omega
      simp only [c1, c2, c3, c4, c5, c6, e 0 h0, e 4 h1, e 5 h2, e 6 h3, e 7 h4, e 0xF h5, e 0x40 h6, e 0x41 h7, e 0x42 h8,
        e 0x43 h9, e 0x44 h10, e 0x45 h11, e 0x46 h12, e 0x47 h13, e 0x48 h14, e 0x49 h15, e 0x4A h16, e 0x4B h17, e 0x50 h18,
        if_true, if_false]
      by_cases c7 : 0x10 ≤ a.toNat - 0xFF00 ∧ a.toNat - 0xFF00 ≤ 0x3F
      · rw [if_pos c7]
        refine .inr (.inr (.inr (.inr (.inl ⟨by omega, by omega, ?_⟩))))
        exact congrArg Target.audio (by omega)
      · rw [if_neg c7]
        refine .inr (.inr (.inr (.inr (.inr (.inr (.inr ⟨?_, rfl⟩))))))
        unfold unmappedAddr; omega
    · simp only [c1, c2, c3, c4, c5, c6, if_false]
      rw [if_pos (by omega)]
      exact .inr (.inr (.inr (.inr (.inr (.inl ⟨by omega, by omega, rfl⟩)))))

/-! ### Reads -/

/-- What the bus reads depends on these parts of the state alone (R61). -/
theorem readByte_congr {s t : State} (hm : t.mem = s.mem) (ht : t.timer = s.timer) (hv : t.video = s.video)
    (hf : t.ifl = s.ifl) (he : t.ie = s.ie) (hj : t.joyp = s.joyp) (hb : t.bootEnabled = s.bootEnabled) (hc : t.cfg = s.cfg)
    (a : Word) : readByte t a = readByte s a := by
  have hp (p : Port) : readPort p t = readPort p s := by cases p <;> simp [readPort, ht, hv, hf, he, hj]
  have hr (k : Nat) : readRom t k = readRom s k := by simp [readRom, hm, hb, hc]
  unfold readByte
  split <;> simp [hp, hr, hm]

@[simp] theorem State.setReg_readByte (s : State) (r : Reg8) (v : Byte) (a : Word) : readByte (s.setReg r v) a = readByte s a :=
  readByte_congr (by simp) (by simp) (by simp) (by simp) (by simp) (by simp) (by simp) (by simp) a

@[simp] theorem State.setHl_readByte (s : State) (w : Word) (a : Word) : readByte (s.setHl w) a = readByte s a :=
  readByte_congr (by simp) (by simp) (by simp) (by simp) (by simp) (by simp) (by simp) (by simp) a

@[simp] theorem State.setPair_readByte (s : State) (rr : Reg16) (w : Word) (a : Word) : readByte (s.setPair rr w) a = readByte s a :=
  readByte_congr (by simp) (by simp) (by simp) (by simp) (by simp) (by simp) (by simp) (by simp) a

@[simp] theorem State.setStkPair_readByte (s : State) (qq : StkReg) (w : Word) (a : Word) : readByte (s.setStkPair qq w) a = readByte s a :=
  readByte_congr (by simp) (by simp) (by simp) (by simp) (by simp) (by simp) (by simp) (by simp) a

@[simp] theorem State.setAf_readByte (s : State) (w : Word) (a : Word) : readByte (s.setAf w) a = readByte s a :=
  readByte_congr (by simp) (by simp) (by simp) (by simp) (by simp) (by simp) (by simp) (by simp) a

@[simp] theorem State.setFlags_readByte (s : State) (f : Flags) (a : Word) : readByte (s.setFlags f) a = readByte s a :=
  readByte_congr (by simp) (by simp) (by simp) (by simp) (by simp) (by simp) (by simp) (by simp) a

@[simp] theorem State.setPc_readByte (s : State) (w : Word) (a : Word) : readByte (s.setPc w) a = readByte s a :=
  readByte_congr (by simp) (by simp) (by simp) (by simp) (by simp) (by simp) (by simp) (by simp) a

@[simp] theorem State.cost_readByte (s : State) (q : Nat) (a : Word) : readByte (s.cost q) a = readByte s a :=
  readByte_congr (by simp) (by simp) (by simp) (by simp) (by simp) (by simp) (by simp) (by simp) a

@[simp] theorem State.advance_readByte (s : State) (n : Nat) (a : Word) : readByte (s.advance n) a = readByte s a :=
  readByte_congr (by simp) (by simp) (by simp) (by simp) (by simp) (by simp) (by simp) (by simp) a

@[simp] theorem dropWord_readByte (s : State) (a : Word) : readByte (dropWord s) a = readByte s a :=
  readByte_congr (by simp) (by simp) (by simp) (by simp) (by simp) (by simp) (by simp) (by simp) a

@[simp] theorem disableInterrupts_readByte (s : State) (a : Word) : readByte (disableInterrupts s) a = readByte s a :=
  readByte_congr (by simp) (by simp) (by simp) (by simp) (by simp) (by simp) (by simp) (by simp) a

@[simp] theorem raiseDecodeError_readByte (s : State) (a : Word) : readByte (raiseDecodeError s) a = readByte s a :=
  readByte_congr (by simp) (by simp) (by simp) (by simp) (by simp) (by simp) (by simp) (by simp) a

/-! ### The OAM copy (R378) -/

theorem oamCopyFold_eq (v : Byte) (l : List Nat) (s : State) :
    l.foldl (oamCopyByte v) s = { s with mem := (l.foldl (oamCopyByte v) s).mem } := by
  induction l generalizing s with
  | nil => rfl
  | cons i l ih => rw [List.foldl_cons, ih]; rfl

/-- The copy changes the byte arrays and nothing else. -/
theorem oamCopy_eq (v : Byte) (s : State) : oamCopy v s = { s with mem := (oamCopy v s).mem } := oamCopyFold_eq v _ s

/-! ### What a store leaves alone -/

@[simp] theorem writePort_regs (p : Port) (v : Byte) (s : State) : (writePort p v s).regs = s.regs := by
  cases p <;> simp only [writePort]
  rw [oamCopy_eq]

@[simp] theorem writeByte_regs (s : State) (a : Word) (v : Byte) : (writeByte s a v).regs = s.regs := by
  unfold writeByte
  split <;> simp

@[simp] theorem writePort_flags (p : Port) (v : Byte) (s : State) : (writePort p v s).flags = s.flags := by
  cases p <;> simp only [writePort]
  rw [oamCopy_eq]

@[simp] theorem writeByte_flags (s : State) (a : Word) (v : Byte) : (writeByte s a v).flags = s.flags := by
  unfold writeByte
  split <;> simp

@[simp] theorem writePort_pc (p : Port) (v : Byte) (s : State) : (writePort p v s).pc = s.pc := by
  cases p <;> simp only [writePort]
  rw [oamCopy_eq]

@[simp] theorem writeByte_pc (s : State) (a : Word) (v : Byte) : (writeByte s a v).pc = s.pc := by
  unfold writeByte
  split <;> simp

@[simp] theorem writePort_sp (p : Port) (v : Byte) (s : State) : (writePort p v s).sp = s.sp := by
  cases p <;> simp only [writePort]
  rw [oamCopy_eq]

@[simp] theorem writeByte_sp (s : State) (a : Word) (v : Byte) : (writeByte s a v).sp = s.sp := by
  unfold writeByte
  split <;> simp

@[simp] theorem writePort_ime (p : Port) (v : Byte) (s : State) : (writePort p v s).ime = s.ime := by
  cases p <;> simp only [writePort]
  rw [oamCopy_eq]

@[simp] theorem writeByte_ime (s : State) (a : Word) (v : Byte) : (writeByte s a v).ime = s.ime := by
  unfold writeByte
  split <;> simp

@[simp] theorem writePort_imePending (p : Port) (v : Byte) (s : State) : (writePort p v s).imePending = s.imePending := by
  cases p <;> simp only [writePort]
  rw [oamCopy_eq]

@[simp] theorem writeByte_imePending (s : State) (a : Word) (v : Byte) : (writeByte s a v).imePending = s.imePending := by
  unfold writeByte
  split <;> simp

@[simp] theorem writePort_halted (p : Port) (v : Byte) (s : State) : (writePort p v s).halted = s.halted := by
  cases p <;> simp only [writePort]
  rw [oamCopy_eq]

@[simp] theorem writeByte_halted (s : State) (a : Word) (v : Byte) : (writeByte s a v).halted = s.halted := by
  unfold writeByte
  split <;> simp

@[simp] theorem writePort_status (p : Port) (v : Byte) (s : State) : (writePort p v s).status = s.status := by
  cases p <;> simp only [writePort]
  rw [oamCopy_eq]

@[simp] theorem writeByte_status (s : State) (a : Word) (v : Byte) : (writeByte s a v).status = s.status := by
  unfold writeByte
  split <;> simp

@[simp] theorem writePort_romLoaded (p : Port) (v : Byte) (s : State) : (writePort p v s).romLoaded = s.romLoaded := by
  cases p <;> simp only [writePort]
  rw [oamCopy_eq]

@[simp] theorem writeByte_romLoaded (s : State) (a : Word) (v : Byte) : (writeByte s a v).romLoaded = s.romLoaded := by
  unfold writeByte
  split <;> simp

@[simp] theorem writePort_cfg (p : Port) (v : Byte) (s : State) : (writePort p v s).cfg = s.cfg := by
  cases p <;> simp only [writePort]
  rw [oamCopy_eq]

@[simp] theorem writeByte_cfg (s : State) (a : Word) (v : Byte) : (writeByte s a v).cfg = s.cfg := by
  unfold writeByte
  split <;> simp

@[simp] theorem writePort_quanta (p : Port) (v : Byte) (s : State) : (writePort p v s).quanta = s.quanta := by
  cases p <;> simp only [writePort]
  rw [oamCopy_eq]

@[simp] theorem writeByte_quanta (s : State) (a : Word) (v : Byte) : (writeByte s a v).quanta = s.quanta := by
  unfold writeByte
  split <;> simp

@[simp] theorem writePort_timer_timaAcc (p : Port) (v : Byte) (s : State) : (writePort p v s).timer.timaAcc = s.timer.timaAcc := by
  cases p <;> simp only [writePort]
  rw [oamCopy_eq]

@[simp] theorem writeByte_timer_timaAcc (s : State) (a : Word) (v : Byte) : (writeByte s a v).timer.timaAcc = s.timer.timaAcc := by
  unfold writeByte
  split <;> simp

@[simp] theorem writePort_timer_overflow (p : Port) (v : Byte) (s : State) : (writePort p v s).timer.overflow = s.timer.overflow := by
  cases p <;> simp only [writePort]
  rw [oamCopy_eq]

@[simp] theorem writeByte_timer_overflow (s : State) (a : Word) (v : Byte) : (writeByte s a v).timer.overflow = s.timer.overflow := by
  unfold writeByte
  split <;> simp

@[simp] theorem writePort_video_ly (p : Port) (v : Byte) (s : State) : (writePort p v s).video.ly = s.video.ly := by
  cases p <;> simp only [writePort]
  rw [oamCopy_eq]

@[simp] theorem writeByte_video_ly (s : State) (a : Word) (v : Byte) : (writeByte s a v).video.ly = s.video.ly := by
  unfold writeByte
  split <;> simp

@[simp] theorem writePort_video_mode (p : Port) (v : Byte) (s : State) : (writePort p v s).video.mode = s.video.mode := by
  cases p <;> simp only [writePort]
  rw [oamCopy_eq]

@[simp] theorem writeByte_video_mode (s : State) (a : Word) (v : Byte) : (writeByte s a v).video.mode = s.video.mode := by
  unfold writeByte
  split <;> simp

@[simp] theorem writePort_video_modeClock (p : Port) (v : Byte) (s : State) : (writePort p v s).video.modeClock = s.video.modeClock := by
  cases p <;> simp only [writePort]
  rw [oamCopy_eq]

@[simp] theorem writeByte_video_modeClock (s : State) (a : Word) (v : Byte) : (writeByte s a v).video.modeClock = s.video.modeClock := by
  unfold writeByte
  split <;> simp

@[simp] theorem writePort_video_coincidence (p : Port) (v : Byte) (s : State) : (writePort p v s).video.coincidence = s.video.coincidence := by
  cases p <;> simp only [writePort]
  rw [oamCopy_eq]

@[simp] theorem writeByte_video_coincidence (s : State) (a : Word) (v : Byte) : (writeByte s a v).video.coincidence = s.video.coincidence := by
  unfold writeByte
  split <;> simp

@[simp] theorem writePort_video_framebuffer (p : Port) (v : Byte) (s : State) : (writePort p v s).video.framebuffer = s.video.framebuffer := by
  cases p <;> simp only [writePort]
  rw [oamCopy_eq]

@[simp] theorem writeByte_video_framebuffer (s : State) (a : Word) (v : Byte) : (writeByte s a v).video.framebuffer = s.video.framebuffer := by
  unfold writeByte
  split <;> simp

theorem writeByte_sameControl (s : State) (a : Word) (v : Byte) : SameControl s (writeByte s a v) := by
  constructor <;> simp

theorem writeByte_sameHidden (s : State) (a : Word) (v : Byte) : SameHidden s (writeByte s a v) := by
  constructor <;> simp

/-! ### A store does not look at the CPU's registers -/

/-- `s` with other CPU registers and cost. -/
abbrev withRegisters (r : Regs) (f : Flags) (pc sp : Word) (q : Nat) (s : State) : State :=
  { s with regs := r, flags := f, pc := pc, sp := sp, quanta := q }

theorem oamCopyFold_withRegisters (v : Byte) (r : Regs) (f : Flags) (pc sp : Word) (q : Nat) (l : List Nat) (s : State) :
    l.foldl (oamCopyByte v) (withRegisters r f pc sp q s) = withRegisters r f pc sp q (l.foldl (oamCopyByte v) s) := by
  induction l generalizing s with
  | nil => rfl
  | cons i l ih =>
    rw [List.foldl_cons, List.foldl_cons, ← ih]
    congr 1

theorem oamCopy_withRegisters (v : Byte) (r : Regs) (f : Flags) (pc sp : Word) (q : Nat) (s : State) :
    oamCopy v (withRegisters r f pc sp q s) = withRegisters r f pc sp q (oamCopy v s) := by
  unfold oamCopy
  rw [oamCopyFold_withRegisters]

theorem writeByte_withRegisters (r : Regs) (f : Flags) (pc sp : Word) (q : Nat) (s : State) (a : Word) (v : Byte) :
    writeByte (withRegisters r f pc sp q s) a v = withRegisters r f pc sp q (writeByte s a v) := by
  unfold writeByte
  split
  · rfl
  · rfl
  · rfl
  · next p _ =>
    cases p
    case dma => exact oamCopy_withRegisters v r f pc sp q { s with video := { s.video with dma := v } }
    all_goals rfl
  · rfl

/-! ### Which backing byte an address reads -/

/-- The key of the backing byte that a read of `a` may look at. -/
def readsKey (a : Word) (k : Nat) : Prop := busTarget a = .rom k ∨ busTarget a = .ram k ∨ busTarget a = .audio (k - audioBase) ∧ audioBase ≤ k

/-- With other byte arrays, an address reads the same if its backing byte is the same. -/
theorem readByte_mem (s : State) (m : Memory) (a : Word) (h : ∀ k, readsKey a k → memRead m k = memRead s.mem k) :
    readByte { s with mem := m } a = readByte s a := by
  unfold readByte
  split
  next k hk =>
    simp only [readRom]
    rw [h k (.inl hk)]
  next k hk => exact h k (.inr (.inl hk))
  next off hoff => exact h (audioBase + off) (.inr (.inr ⟨by rw [hoff]; simp, by omega⟩))
  next p hp => cases p <;> rfl
  next => rfl

/-- The backing byte of an address, by its number. -/
theorem readsKey_range {a : Word} {k : Nat} (h : readsKey a k) :
    (k = a.toNat ∧ backedKey k) ∨ (k + 0x2000 = a.toNat ∧ 0xC000 ≤ k ∧ k < 0xDE00) := by
  have ha := a.isLt
  unfold readsKey at h
  unfold backedKey audioBase at *
  rcases busTarget_cases a with ⟨_, e⟩ | ⟨_, _, e⟩ | ⟨_, _, e⟩ | ⟨_, _, e⟩ | ⟨_, _, e⟩ | ⟨_, _, e⟩ | ⟨p, _, e⟩ | ⟨_, e⟩ <;>
    simp only [e, Target.rom.injEq, Target.ram.injEq, Target.audio.injEq, reduceCtorEq, false_or, or_false, false_and] at h <;>
    omega

/-! ### The OAM copy, byte by byte (R378) -/

/-- The source address of byte `i` of the copy from page `v`. -/
theorem oamSource_toNat (v : Byte) {i : Nat} (hi : i < 160) : (join v 0 + BitVec.ofNat 16 i).toNat = v.toNat * 256 + i := by
  have := v.isLt
  rw [BitVec.toNat_add, join_toNat]
  simp
  omega

theorem oamCopyFold_mem {s : State} (hs : Memory.wf s.mem) (v : Byte) (n : Nat) (hn : n ≤ 160) :
    Memory.wf ((List.range n).foldl (oamCopyByte v) s).mem ∧
    ∀ k, memRead ((List.range n).foldl (oamCopyByte v) s).mem k =
      if oamBase ≤ k ∧ k < oamBase + n then readByte s (join v 0 + BitVec.ofNat 16 (k - oamBase)) else memRead s.mem k := by
  induction n with
  | zero =>
    refine ⟨hs, fun k => ?_⟩
    rw [if_neg (by omega)]
    rfl
  | succ n ih =>
    obtain ⟨hwf, hread⟩ := ih (by omega)
    have hsrc : readByte ((List.range n).foldl (oamCopyByte v) s) (join v 0 + BitVec.ofNat 16 n) =
        readByte s (join v 0 + BitVec.ofNat 16 n) := by
      rw [oamCopyFold_eq]
      refine readByte_mem s _ _ fun k hk => ?_
      rw [hread, if_neg]
      have hsource := oamSource_toNat v (i := n) (by omega)
      rcases readsKey_range hk with ⟨h, -⟩ | ⟨h, h', h''⟩
      · rw [hsource] at h
        unfold oamBase
        omega
      · unfold oamBase
        omega
    rw [List.range_succ, List.foldl_append, List.foldl_cons, List.foldl_nil]
    rw [oamCopyByte.eq_def _ (List.foldl _ _ _), State.storeKey_mem, hsrc]
    refine ⟨memWrite_wf hwf _ _, fun k => ?_⟩
    rw [memRead_memWrite hwf, hread]
    by_cases hk : k = oamBase + n
    · rw [if_pos hk, if_pos (by omega), hk, Nat.add_sub_cancel_left]
    · rw [if_neg hk]
      by_cases hk' : oamBase ≤ k ∧ k < oamBase + n
      · rw [if_pos hk', if_pos (by omega)]
      · rw [if_neg hk', if_neg (by omega)]

theorem oamCopy_wf {s : State} (hs : Memory.wf s.mem) (v : Byte) : Memory.wf (oamCopy v s).mem :=
  (oamCopyFold_mem hs v 160 (le_refl _)).1

/-- The backing bytes after the copy: OAM from the source page, the others as before. -/
theorem memRead_oamCopy {s : State} (hs : Memory.wf s.mem) (v : Byte) (k : Nat) :
    memRead (oamCopy v s).mem k =
      if oamBase ≤ k ∧ k < oamBase + 160 then readByte s (join v 0 + BitVec.ofNat 16 (k - oamBase)) else memRead s.mem k :=
  (oamCopyFold_mem hs v 160 (le_refl _)).2 k

/-! ### The canonical form -/

/-- Every store keeps the canonical form of the byte arrays. -/
theorem writeByte_wf {s : State} (hs : Memory.wf s.mem) (a : Word) (v : Byte) : Memory.wf (writeByte s a v).mem := by
  unfold writeByte
  split
  · exact hs
  · exact memWrite_wf hs _ _
  · exact memWrite_wf hs _ _
  · next p _ =>
    cases p
    case dma => exact oamCopy_wf (s := { s with video := { s.video with dma := v } }) hs v
    all_goals exact hs
  · exact hs

/-- A store lists only keys of bytes that exist. -/
theorem memWrite_backed {m : Memory} (hm : ∀ c ∈ m, backedKey c.1) {k : Nat} (hk : backedKey k) (v : Byte) :
    ∀ c ∈ memWrite m k v, backedKey c.1 := by
  intro c hc
  rcases mem_sparseWrite hc with ⟨rfl, -⟩ | hmem
  · exact hk
  · exact hm c hmem

theorem oamCopyFold_backed (v : Byte) (l : List Nat) (hl : ∀ i ∈ l, i < 160) (s : State) (hs : ∀ c ∈ s.mem, backedKey c.1) :
    ∀ c ∈ (l.foldl (oamCopyByte v) s).mem, backedKey c.1 := by
  induction l generalizing s with
  | nil => exact hs
  | cons i l ih =>
    refine ih (fun j hj => hl j (List.mem_cons_of_mem _ hj)) _ ?_
    have := hl i (List.mem_cons_self ..)
    refine memWrite_backed hs ?_ _
    unfold backedKey oamBase
    omega

/-- Every store keeps what memory must satisfy. -/
theorem writeByte_memoryInv {s : State} (hs : MemoryInv s.mem) (a : Word) (v : Byte) : MemoryInv (writeByte s a v).mem := by
  refine ⟨writeByte_wf hs.canonical a v, ?_⟩
  have ha := a.isLt
  rcases busTarget_cases a with ⟨_, e⟩ | ⟨_, _, e⟩ | ⟨_, _, e⟩ | ⟨_, _, e⟩ | ⟨_, _, e⟩ | ⟨_, _, e⟩ | ⟨p, _, e⟩ | ⟨_, e⟩ <;>
    simp only [writeByte, e]
  · exact hs.backed
  · exact memWrite_backed hs.backed (by unfold backedKey; omega) v
  · exact memWrite_backed hs.backed (by unfold backedKey; omega) v
  · exact memWrite_backed hs.backed (by unfold backedKey; omega) v
  · exact memWrite_backed hs.backed (by unfold backedKey audioBase; omega) _
  · exact memWrite_backed hs.backed (by unfold backedKey; omega) v
  · cases p
    case dma =>
      exact oamCopyFold_backed v (List.range 160) (fun i hi => List.mem_range.mp hi)
        { s with video := { s.video with dma := v } } hs.backed
    all_goals exact hs.backed
  · exact hs.backed

/-! ### Read after write (R62, R88) -/

theorem toNat_eq_of_portAddr {a : Word} {p : Port} (h : a = portAddr p) : a.toNat = (portAddr p).toNat := by rw [h]

/-- Two addresses that read one backing byte are one location. -/
theorem sameLocation_of_readsKey {a b : Word} {k : Nat} (ha : readsKey a k) (hb : readsKey b k) : sameLocation a b := by
  unfold sameLocation isEcho
  rcases readsKey_range ha with ⟨h1, -⟩ | h1 <;> rcases readsKey_range hb with ⟨h2, -⟩ | h2
  · exact .inl (BitVec.eq_of_toNat_eq (by omega))
  · exact .inr (.inl (by omega))
  · exact .inr (.inr (by omega))
  · exact .inl (BitVec.eq_of_toNat_eq (by omega))

/-- A stored backing byte, read at another location. -/
theorem readByte_storeKey_other {s : State} (hs : Memory.wf s.mem) {k : Nat} {v : Byte} {b : Word} (hb : ¬ readsKey b k) :
    readByte (s.storeKey k v) b = readByte s b := by
  refine readByte_mem s _ b fun j hj => ?_
  rw [memRead_memWrite hs, if_neg]
  rintro rfl
  exact hb hj

/-- The address of a register, from its target. -/
theorem eq_portAddr {a : Word} {p : Port} (h : busTarget a = .port p) : a = portAddr p := by
  rcases busTarget_cases a with ⟨_, e⟩ | ⟨_, _, e⟩ | ⟨_, _, e⟩ | ⟨_, _, e⟩ | ⟨_, _, e⟩ | ⟨_, _, e⟩ | ⟨r, hr, e⟩ | ⟨_, e⟩ <;>
    rw [h] at e <;> cases e
  exact hr

/-- The write of a register other than DMA and the boot-overlay disable, read elsewhere. -/
theorem readByte_writePort_other (s : State) {p : Port} (v : Byte) {b : Word} (hb : portAddr p ≠ b) (hd : p ≠ .dma) (ho : p ≠ .bootOff) :
    readByte (writePort p v s) b = readByte s b := by
  unfold readByte
  split
  next =>
    cases p
    case dma => exact absurd rfl hd
    case bootOff => exact absurd rfl ho
    all_goals rfl
  next =>
    cases p
    case dma => exact absurd rfl hd
    all_goals rfl
  next =>
    cases p
    case dma => exact absurd rfl hd
    all_goals rfl
  next q hq =>
    have hne : p ≠ q := fun h => hb (h ▸ (eq_portAddr hq).symm)
    cases p
    case dma => exact absurd rfl hd
    all_goals cases q <;> first | rfl | exact absurd rfl hne
  next => rfl

/-- The overlay disable leaves everything from 0x0100 on (R68, R83). -/
theorem readByte_bootOff_other (s : State) {b : Word} (hb : 0x100 ≤ b.toNat) :
    readByte { s with bootEnabled := false } b = readByte s b := by
  unfold readByte
  split
  next k hk =>
    have hk' : 0x100 ≤ k := by
      rcases readsKey_range (.inl hk) with ⟨h, -⟩ | h <;> omega
    simp only [readRom]
    split
    · rw [if_neg (by simp), if_neg (by omega)]
    · rfl
  next => rfl
  next => rfl
  next q _ => cases q <;> rfl
  next => rfl

/-- Every address a store does not reach reads as before. -/
theorem readByte_writeByte_elsewhere {s : State} (hs : Memory.wf s.mem) {a b : Word} (v : Byte) (hb : ¬ storeReaches a b) :
    readByte (writeByte s a v) b = readByte s b := by
  have hloc : ¬ sameLocation a b := fun h => hb (.inl h)
  have store (k : Nat) (w : Byte) (hk : readsKey a k) : readByte (s.storeKey k w) b = readByte s b :=
    readByte_storeKey_other hs fun h => hloc (sameLocation_of_readsKey hk h)
  unfold writeByte
  split
  next => rfl
  next k hk => exact store k v (.inr (.inl hk))
  next off hoff =>
    refine store _ _ (.inr (.inr ⟨?_, Nat.le_add_right ..⟩))
    rw [hoff, Nat.add_sub_cancel_left]
  next p hp =>
    have hpa : a = portAddr p := eq_portAddr hp
    by_cases hd : p = .dma
    · subst hd
      have hnd : portAddr .dma ≠ b := fun h => hloc (.inl (hpa.trans h))
      simp only [writePort]
      rw [oamCopy_eq]
      have hwf : Memory.wf ({ s with video := { s.video with dma := v } } : State).mem := hs
      refine (readByte_mem { s with video := { s.video with dma := v } } _ b fun k hk => ?_).trans ?_
      · rw [memRead_oamCopy hwf, if_neg]
        rintro ⟨h1, h2⟩
        unfold oamBase at h1 h2
        refine hb (.inr (.inl ⟨hpa, ?_⟩))
        rcases readsKey_range hk with ⟨h, -⟩ | ⟨h, h', h''⟩ <;> omega
      · unfold readByte
        split
        · rfl
        · rfl
        · rfl
        · next q hq =>
          cases q
          case dma =>
            exact absurd (eq_portAddr hq).symm hnd
          all_goals rfl
        · rfl
    · by_cases ho : p = .bootOff
      · subst ho
        refine readByte_bootOff_other s ?_
        by_contra h
        exact hb (.inr (.inr ⟨hpa, by omega⟩))
      · exact readByte_writePort_other s v (fun h => hloc (.inl (hpa.trans h))) hd ho
  next => rfl

/-- Plain RAM reads back the byte stored. -/
theorem readByte_writeByte_ram {s : State} (hs : Memory.wf s.mem) {a : Word} (v : Byte) (ha : plainRam a) :
    readByte (writeByte s a v) a = v := by
  have ram {k : Nat} (hk : busTarget a = .ram k) : readByte (writeByte s a v) a = v := by
    simp only [writeByte, readByte, hk, State.storeKey_mem]
    rw [memRead_memWrite hs, if_pos rfl]
  unfold plainRam at ha
  rcases busTarget_cases a with ⟨_, e⟩ | ⟨_, _, e⟩ | ⟨_, _, e⟩ | ⟨_, _, e⟩ | ⟨_, _, e⟩ | ⟨_, _, e⟩ | ⟨p, hp, e⟩ | ⟨h, e⟩
  · omega
  · exact ram e
  · exact ram e
  · exact ram e
  · omega
  · exact ram e
  · cases p <;> simp only [portAddr] at hp <;> subst hp <;> simp at ha
  · unfold unmappedAddr at h
    omega

/-- What every byte store gives. -/
theorem storesByte_writeByte {s : State} (hs : Memory.wf s.mem) (a : Word) (v : Byte) : StoresByte s (writeByte s a v) a v where
  write := rfl
  value := readByte_writeByte_ram hs v
  elsewhere _ hb := readByte_writeByte_elsewhere hs v hb
  control := writeByte_sameControl s a v
  hidden := writeByte_sameHidden s a v

end Sys2Proof.Machine
end

