-- ==== Sys2Proof/Laws/Decode.lean ====
section
/-! SUPPORT. From the value of `decodeBytes` on an instruction's own bytes to `Decodes` and `decode`. -/

namespace Sys2Proof.Machine

/-- A one-byte instruction (format `OP`, R103). -/
theorem decodes_one {op : Byte} {i : Instr} (h : ∀ n1 n2, decodeBytes op n1 n2 = i) (hl : i.length = 1) : Decodes [op] i := by
  intro rest
  simp [decode, h, hl]

/-- A two-byte instruction (formats `OP_N`, `OP_E`, `CB_OP`, R103). -/
theorem decodes_two {op n : Byte} {i : Instr} (h : ∀ n2, decodeBytes op n n2 = i) (hl : i.length = 2) : Decodes [op, n] i := by
  intro rest
  simp [decode, h, hl]

/-- A three-byte instruction (format `OP_NN`, R103). -/
theorem decodes_three {op l h : Byte} {i : Instr} (hd : decodeBytes op l h = i) (hl : i.length = 3) : Decodes [op, l, h] i := by
  intro rest
  simp [decode, hd, hl]

/-- With three bytes at hand decoding never runs out of bytes. -/
theorem decode_three (op n1 n2 : Byte) (h : (decodeBytes op n1 n2).length ≤ 3) :
    decode [op, n1, n2] = .ok (decodeBytes op n1 n2, [n1, n2].drop ((decodeBytes op n1 n2).length - 1)) := by
  simp [decode, h]

end Sys2Proof.Machine
end

