-- ==== Sys2Proof/Laws/Ops.lean ====
section
/-! SUPPORT. What each shared operation of Machine/Ops.lean can do, said once. -/

namespace Sys2Proof.Machine

/-! ### Stores seen from the instruction's start -/

theorem storesByte_of {s t : State} (hs : Memory.wf s.mem) {a : Word} {v : Byte}
    (h : t = { writeByte s a v with regs := t.regs, flags := t.flags, pc := t.pc, sp := t.sp, quanta := t.quanta }) :
    StoresByte s t a v := by
  have hr (b : Word) : readByte t b = readByte (writeByte s a v) b := by
    rw [h]
    exact readByte_congr rfl rfl rfl rfl rfl rfl rfl rfl b
  have w := storesByte_writeByte hs a v
  refine ⟨h, fun ha => (hr a).trans (w.value ha), fun b hb => (hr b).trans (w.elsewhere b hb), ?_, ?_⟩
  · rw [h]
    constructor <;> simp
  · rw [h]
    constructor <;> simp

theorem storesTwo_of {s t : State} (hs : Memory.wf s.mem) {a1 a2 : Word} {v1 v2 : Byte}
    (h : t = { writeByte (writeByte s a1 v1) a2 v2 with
      regs := t.regs, flags := t.flags, pc := t.pc, sp := t.sp, quanta := t.quanta }) : StoresTwo s t a1 v1 a2 v2 := by
  have hs1 := writeByte_wf hs a1 v1
  have hr (b : Word) : readByte t b = readByte (writeByte (writeByte s a1 v1) a2 v2) b := by
    rw [h]
    exact readByte_congr rfl rfl rfl rfl rfl rfl rfl rfl b
  refine ⟨h, fun ha hn => ?_, fun ha => (hr a2).trans (readByte_writeByte_ram hs1 v2 ha), fun b h1 h2 => ?_, ?_, ?_⟩
  · rw [hr, readByte_writeByte_elsewhere hs1 v2 hn, readByte_writeByte_ram hs v1 ha]
  · rw [hr, readByte_writeByte_elsewhere hs1 v2 h2, readByte_writeByte_elsewhere hs v1 h1]
  · rw [h]
    constructor <;> simp
  · rw [h]
    constructor <;> simp

/-- A state that differs from `s` in the CPU's registers and the cost alone. -/
theorem onlyRegisters_of {s t : State}
    (h : t = { s with regs := t.regs, flags := t.flags, pc := t.pc, sp := t.sp, quanta := t.quanta }) : OnlyRegisters s t := by
  refine ⟨h, fun a => ?_⟩
  rw [h]
  exact readByte_congr rfl rfl rfl rfl rfl rfl rfl rfl a

/-! ### The stack (R15) -/

/-- `Push16`: the high byte one below SP, then the low byte two below it. -/
theorem push16_eq (w : Word) (s : State) :
    push16 w s = { writeByte (writeByte s (s.sp - 1) (hi w)) (s.sp - 2) (lo w) with sp := s.sp - 2 } := by
  have hsp : s.sp - 1 - 1 = s.sp - 2 := by bv_omega
  have h1 : pushByte (hi w) s = { writeByte s (s.sp - 1) (hi w) with sp := s.sp - 1 } := by
    have := writeByte_withRegisters s.regs s.flags s.pc (s.sp - 1) s.quanta s (s.sp - 1) (hi w)
    simpa [pushByte, withRegisters] using this
  have h2 (u : State) (v : Byte) : pushByte v { u with sp := s.sp - 1 } = { writeByte u (s.sp - 2) v with sp := s.sp - 2 } := by
    have := writeByte_withRegisters u.regs u.flags u.pc (s.sp - 2) u.quanta u (s.sp - 2) v
    rw [← hsp] at this ⊢
    simpa [pushByte, withRegisters] using this
  rw [push16, h1, h2]

@[simp] theorem push16_sp (w : Word) (s : State) : (push16 w s).sp = s.sp - 2 := by rw [push16_eq]

@[simp] theorem push16_regs (w : Word) (s : State) : (push16 w s).regs = s.regs := by simp [push16_eq]

@[simp] theorem push16_flags (w : Word) (s : State) : (push16 w s).flags = s.flags := by simp [push16_eq]

@[simp] theorem push16_pc (w : Word) (s : State) : (push16 w s).pc = s.pc := by simp [push16_eq]

@[simp] theorem push16_ime (w : Word) (s : State) : (push16 w s).ime = s.ime := by simp [push16_eq]

@[simp] theorem push16_imePending (w : Word) (s : State) : (push16 w s).imePending = s.imePending := by simp [push16_eq]

@[simp] theorem push16_halted (w : Word) (s : State) : (push16 w s).halted = s.halted := by simp [push16_eq]

@[simp] theorem push16_status (w : Word) (s : State) : (push16 w s).status = s.status := by simp [push16_eq]

@[simp] theorem push16_romLoaded (w : Word) (s : State) : (push16 w s).romLoaded = s.romLoaded := by simp [push16_eq]

@[simp] theorem push16_cfg (w : Word) (s : State) : (push16 w s).cfg = s.cfg := by simp [push16_eq]

@[simp] theorem push16_quanta (w : Word) (s : State) : (push16 w s).quanta = s.quanta := by simp [push16_eq]

theorem push16_memoryInv {s : State} (hs : MemoryInv s.mem) (w : Word) : MemoryInv (push16 w s).mem := by
  rw [push16_eq]
  exact writeByte_memoryInv (writeByte_memoryInv hs _ _) _ _

/-- A push, byte by byte. -/
theorem storesTwo_push16 {s : State} (hs : Memory.wf s.mem) (w : Word) :
    StoresTwo s (push16 w s) (s.sp - 1) (hi w) (s.sp - 2) (lo w) := storesTwo_of hs (by rw [push16_eq])

/-- The word at the top of the stack, low byte at SP (R15, R84). -/
theorem stackTop_eq (s : State) : stackTop s = join (readByte s (s.sp + 1)) (readByte s s.sp) := rfl

/-! ### Requests and clears (R311, R312) -/

/-- A request can only set its own bit of IF. -/
theorem requestInterrupt_eq (k : IntClass) (s : State) :
    requestInterrupt k s = s ∨ requestInterrupt k s = { s with ifl := s.ifl ||| bitMask (intBit k) } := by
  unfold requestInterrupt
  split
  · exact .inl rfl
  · exact .inr rfl

/-- A clear can only clear its own bit of IF. -/
theorem clearInterrupt_eq (k : IntClass) (gate : Bool) (s : State) :
    clearInterrupt k gate s = s ∨ clearInterrupt k gate s = { s with ifl := s.ifl &&& ~~~bitMask (intBit k) } := by
  unfold clearInterrupt
  split
  · exact .inl rfl
  · exact .inr rfl

@[simp] theorem requestInterrupt_regs (k : IntClass) (s : State) : (requestInterrupt k s).regs = s.regs := by
  rcases requestInterrupt_eq k s with h | h <;> rw [h]

@[simp] theorem clearInterrupt_regs (k : IntClass) (g : Bool) (s : State) : (clearInterrupt k g s).regs = s.regs := by
  rcases clearInterrupt_eq k g s with h | h <;> rw [h]

@[simp] theorem requestInterrupt_flags (k : IntClass) (s : State) : (requestInterrupt k s).flags = s.flags := by
  rcases requestInterrupt_eq k s with h | h <;> rw [h]

@[simp] theorem clearInterrupt_flags (k : IntClass) (g : Bool) (s : State) : (clearInterrupt k g s).flags = s.flags := by
  rcases clearInterrupt_eq k g s with h | h <;> rw [h]

@[simp] theorem requestInterrupt_pc (k : IntClass) (s : State) : (requestInterrupt k s).pc = s.pc := by
  rcases requestInterrupt_eq k s with h | h <;> rw [h]

@[simp] theorem clearInterrupt_pc (k : IntClass) (g : Bool) (s : State) : (clearInterrupt k g s).pc = s.pc := by
  rcases clearInterrupt_eq k g s with h | h <;> rw [h]

@[simp] theorem requestInterrupt_sp (k : IntClass) (s : State) : (requestInterrupt k s).sp = s.sp := by
  rcases requestInterrupt_eq k s with h | h <;> rw [h]

@[simp] theorem clearInterrupt_sp (k : IntClass) (g : Bool) (s : State) : (clearInterrupt k g s).sp = s.sp := by
  rcases clearInterrupt_eq k g s with h | h <;> rw [h]

@[simp] theorem requestInterrupt_ime (k : IntClass) (s : State) : (requestInterrupt k s).ime = s.ime := by
  rcases requestInterrupt_eq k s with h | h <;> rw [h]

@[simp] theorem clearInterrupt_ime (k : IntClass) (g : Bool) (s : State) : (clearInterrupt k g s).ime = s.ime := by
  rcases clearInterrupt_eq k g s with h | h <;> rw [h]

@[simp] theorem requestInterrupt_imePending (k : IntClass) (s : State) : (requestInterrupt k s).imePending = s.imePending := by
  rcases requestInterrupt_eq k s with h | h <;> rw [h]

@[simp] theorem clearInterrupt_imePending (k : IntClass) (g : Bool) (s : State) : (clearInterrupt k g s).imePending = s.imePending := by
  rcases clearInterrupt_eq k g s with h | h <;> rw [h]

@[simp] theorem requestInterrupt_halted (k : IntClass) (s : State) : (requestInterrupt k s).halted = s.halted := by
  rcases requestInterrupt_eq k s with h | h <;> rw [h]

@[simp] theorem clearInterrupt_halted (k : IntClass) (g : Bool) (s : State) : (clearInterrupt k g s).halted = s.halted := by
  rcases clearInterrupt_eq k g s with h | h <;> rw [h]

@[simp] theorem requestInterrupt_status (k : IntClass) (s : State) : (requestInterrupt k s).status = s.status := by
  rcases requestInterrupt_eq k s with h | h <;> rw [h]

@[simp] theorem clearInterrupt_status (k : IntClass) (g : Bool) (s : State) : (clearInterrupt k g s).status = s.status := by
  rcases clearInterrupt_eq k g s with h | h <;> rw [h]

@[simp] theorem requestInterrupt_ie (k : IntClass) (s : State) : (requestInterrupt k s).ie = s.ie := by
  rcases requestInterrupt_eq k s with h | h <;> rw [h]

@[simp] theorem clearInterrupt_ie (k : IntClass) (g : Bool) (s : State) : (clearInterrupt k g s).ie = s.ie := by
  rcases clearInterrupt_eq k g s with h | h <;> rw [h]

@[simp] theorem requestInterrupt_timer (k : IntClass) (s : State) : (requestInterrupt k s).timer = s.timer := by
  rcases requestInterrupt_eq k s with h | h <;> rw [h]

@[simp] theorem clearInterrupt_timer (k : IntClass) (g : Bool) (s : State) : (clearInterrupt k g s).timer = s.timer := by
  rcases clearInterrupt_eq k g s with h | h <;> rw [h]

@[simp] theorem requestInterrupt_video (k : IntClass) (s : State) : (requestInterrupt k s).video = s.video := by
  rcases requestInterrupt_eq k s with h | h <;> rw [h]

@[simp] theorem clearInterrupt_video (k : IntClass) (g : Bool) (s : State) : (clearInterrupt k g s).video = s.video := by
  rcases clearInterrupt_eq k g s with h | h <;> rw [h]

@[simp] theorem requestInterrupt_mem (k : IntClass) (s : State) : (requestInterrupt k s).mem = s.mem := by
  rcases requestInterrupt_eq k s with h | h <;> rw [h]

@[simp] theorem clearInterrupt_mem (k : IntClass) (g : Bool) (s : State) : (clearInterrupt k g s).mem = s.mem := by
  rcases clearInterrupt_eq k g s with h | h <;> rw [h]

@[simp] theorem requestInterrupt_joyp (k : IntClass) (s : State) : (requestInterrupt k s).joyp = s.joyp := by
  rcases requestInterrupt_eq k s with h | h <;> rw [h]

@[simp] theorem clearInterrupt_joyp (k : IntClass) (g : Bool) (s : State) : (clearInterrupt k g s).joyp = s.joyp := by
  rcases clearInterrupt_eq k g s with h | h <;> rw [h]

@[simp] theorem requestInterrupt_bootEnabled (k : IntClass) (s : State) : (requestInterrupt k s).bootEnabled = s.bootEnabled := by
  rcases requestInterrupt_eq k s with h | h <;> rw [h]

@[simp] theorem clearInterrupt_bootEnabled (k : IntClass) (g : Bool) (s : State) : (clearInterrupt k g s).bootEnabled = s.bootEnabled := by
  rcases clearInterrupt_eq k g s with h | h <;> rw [h]

@[simp] theorem requestInterrupt_romLoaded (k : IntClass) (s : State) : (requestInterrupt k s).romLoaded = s.romLoaded := by
  rcases requestInterrupt_eq k s with h | h <;> rw [h]

@[simp] theorem clearInterrupt_romLoaded (k : IntClass) (g : Bool) (s : State) : (clearInterrupt k g s).romLoaded = s.romLoaded := by
  rcases clearInterrupt_eq k g s with h | h <;> rw [h]

@[simp] theorem requestInterrupt_cfg (k : IntClass) (s : State) : (requestInterrupt k s).cfg = s.cfg := by
  rcases requestInterrupt_eq k s with h | h <;> rw [h]

@[simp] theorem clearInterrupt_cfg (k : IntClass) (g : Bool) (s : State) : (clearInterrupt k g s).cfg = s.cfg := by
  rcases clearInterrupt_eq k g s with h | h <;> rw [h]

@[simp] theorem requestInterrupt_quanta (k : IntClass) (s : State) : (requestInterrupt k s).quanta = s.quanta := by
  rcases requestInterrupt_eq k s with h | h <;> rw [h]

@[simp] theorem clearInterrupt_quanta (k : IntClass) (g : Bool) (s : State) : (clearInterrupt k g s).quanta = s.quanta := by
  rcases clearInterrupt_eq k g s with h | h <;> rw [h]

/-- A clear with an open gate clears the bit. -/
theorem clearInterrupt_open (k : IntClass) (s : State) :
    clearInterrupt k true s = { s with ifl := s.ifl &&& ~~~bitMask (intBit k) } := by simp [clearInterrupt]

/-! ### Taking an interrupt (R320) -/

/-- With IME = 1: IME and `ime_pending` 0, the class's bit of IF cleared, `halted` 0, PC pushed and replaced by the vector. -/
theorem dispatchInterrupt_eq (k : IntClass) {s : State} (h : s.ime = true) :
    dispatchInterrupt k s =
      { push16 s.pc { s with ime := false, imePending := false, halted := false, ifl := s.ifl &&& ~~~bitMask (intBit k) } with
        pc := intVector k } := by
  simp [dispatchInterrupt, h, clearInterrupt_open, disableInterrupts, State.setPc]

@[simp] theorem dispatchInterrupt_regs (k : IntClass) (s : State) : (dispatchInterrupt k s).regs = s.regs := by
  simp [dispatchInterrupt, disableInterrupts]

@[simp] theorem dispatchInterrupt_flags (k : IntClass) (s : State) : (dispatchInterrupt k s).flags = s.flags := by
  simp [dispatchInterrupt, disableInterrupts]

@[simp] theorem dispatchInterrupt_status (k : IntClass) (s : State) : (dispatchInterrupt k s).status = s.status := by
  simp [dispatchInterrupt, disableInterrupts]

@[simp] theorem dispatchInterrupt_romLoaded (k : IntClass) (s : State) : (dispatchInterrupt k s).romLoaded = s.romLoaded := by
  simp [dispatchInterrupt, disableInterrupts]

@[simp] theorem dispatchInterrupt_cfg (k : IntClass) (s : State) : (dispatchInterrupt k s).cfg = s.cfg := by
  simp [dispatchInterrupt, disableInterrupts]

@[simp] theorem dispatchInterrupt_quanta (k : IntClass) (s : State) : (dispatchInterrupt k s).quanta = s.quanta := by
  simp [dispatchInterrupt, disableInterrupts]

@[simp] theorem dispatchInterrupt_ime (k : IntClass) (s : State) : (dispatchInterrupt k s).ime = false := by
  simp [dispatchInterrupt, disableInterrupts]

@[simp] theorem dispatchInterrupt_imePending (k : IntClass) (s : State) : (dispatchInterrupt k s).imePending = false := by
  simp [dispatchInterrupt, disableInterrupts]

@[simp] theorem dispatchInterrupt_halted (k : IntClass) (s : State) : (dispatchInterrupt k s).halted = false := by
  simp [dispatchInterrupt, disableInterrupts]

@[simp] theorem dispatchInterrupt_pc (k : IntClass) (s : State) : (dispatchInterrupt k s).pc = intVector k := by
  simp [dispatchInterrupt, disableInterrupts]

@[simp] theorem dispatchInterrupt_sp (k : IntClass) (s : State) : (dispatchInterrupt k s).sp = s.sp - 2 := by
  simp [dispatchInterrupt, disableInterrupts]

end Sys2Proof.Machine
end

