-- ==== Sys2Proof/Laws/Operands.lean ====
section
/-! SUPPORT. What each shared effect of Machine/Operands.lean and each computation of Machine/Flags.lean does, said once, in the
vocabulary of Sys2Proof/Safety.lean. -/

namespace Sys2Proof.Machine

/-! ### The cost -/

/-- A recorded cost is the right one if it is `CYCLES`' entry for the bytes and the table of R450 has `q` there. -/
theorem costs_of {s t : State} {bytes : List Byte} {q : Nat} {taken : Bool} (h : t.quanta = s.cfg.cycles.quanta taken bytes)
    (hq : Cycles.reference.quanta taken bytes = q) : Costs s t bytes q taken :=
  ⟨h, fun hc => by rw [h, hc, hq]⟩

/-- The cost of an instruction depends on its first byte alone, unless that is the prefix (R451). -/
theorem quanta_base (c : Cycles) (taken : Bool) {op : Byte} (h : op ≠ 0xCB) (rest : List Byte) :
    c.quanta taken (op :: rest) = c.quanta taken [op] := by
  simp only [Cycles.quanta, if_neg h]

/-! ### Writing one register or pair -/

theorem setsReg_cost (s : State) (r : Reg8) (v : Byte) (q : Nat) : SetsReg s ((s.setReg r v).cost q) r v := by
  refine ⟨by simp, fun x hx => by simp [State.setReg_reg_other s v hx], ⟨by simp, by simp⟩, onlyRegisters_of ?_⟩
  cases r <;> rfl

theorem setsReg_flags_cost (s : State) (r : Reg8) (v : Byte) (f : Flags) (q : Nat) :
    SetsReg s (((s.setReg r v).setFlags f).cost q) r v := by
  refine ⟨by simp, fun x hx => by simp [State.setReg_reg_other s v hx], ⟨by simp, by simp⟩, onlyRegisters_of ?_⟩
  cases r <;> rfl

theorem setsPair_cost (s : State) (rr : Reg16) (w : Word) (q : Nat) : SetsPair s ((s.setPair rr w).cost q) rr w := by
  refine ⟨?_, fun x hx => ?_, by cases rr <;> rfl, by simp, onlyRegisters_of ?_⟩
  · have := State.setPair_pair s rr w
    cases rr <;> exact this
  · cases rr <;> cases x <;> first | rfl | exact absurd rfl hx
  · cases rr <;> rfl

theorem setsPair_flags_cost (s : State) (rr : Reg16) (w : Word) (f : Flags) (q : Nat) :
    SetsPair s (((s.setPair rr w).setFlags f).cost q) rr w := by
  refine ⟨?_, fun x hx => ?_, by cases rr <;> rfl, by simp, onlyRegisters_of ?_⟩
  · have := State.setPair_pair s rr w
    cases rr <;> exact this
  · cases rr <;> cases x <;> first | rfl | exact absurd rfl hx
  · cases rr <;> rfl

/-! ### Addresses -/

/-- `0xFF00 + n` as a sum (R104). -/
theorem highPage_eq (n : Byte) : highPage n = 0xFF00 + n.setWidth 16 := by
  revert n
  decide

/-- `SP + sext_16(e)` over integers (R163). -/
theorem spPlus_eq (sp : Word) (e : Byte) : spPlus sp e = BitVec.ofInt 16 ((sp.toNat : Int) + e.toInt) := by
  unfold spPlus sext16
  rw [BitVec.signExtend, BitVec.ofInt_add, BitVec.ofInt_natCast, BitVec.ofNat_toNat, BitVec.setWidth_eq]

/-- `PC + sext_16(e)` over integers (R263). -/
theorem jrTarget_eq (s : State) (e : Byte) : jrTarget e s = BitVec.ofInt 16 ((s.pc.toNat : Int) + e.toInt) := spPlus_eq s.pc e

/-! ### Control transfer -/

theorem jumps_cost (s : State) (w : Word) (q : Nat) : Jumps s ((s.setPc w).cost q) w :=
  ⟨rfl, rfl, rfl, rfl, onlyRegisters_of rfl⟩

theorem jumps_stay (s : State) (q : Nat) : Jumps s (s.cost q) s.pc := ⟨rfl, rfl, rfl, rfl, onlyRegisters_of rfl⟩

theorem calls_cost (s : State) (hs : Memory.wf s.mem) (w : Word) (q : Nat) : Calls s ((callTo w s).cost q) w := by
  refine ⟨rfl, by simp [callTo], by simp [callTo], by simp [callTo], storesTwo_of hs ?_⟩
  simp only [callTo]
  rw [push16_eq]
  rfl

theorem returns_cost (s : State) (q : Nat) : Returns s ((returnFromCall s).cost q) :=
  ⟨rfl, rfl, rfl, rfl, (onlyRegisters_of (s := s) rfl).memory⟩

/-! ### Subtraction (R17) -/

theorem toNat_ofInt8 (z : Int) : ((BitVec.ofInt 8 z).toNat : Int) = z % 256 := by
  rw [BitVec.toNat_ofInt]
  norm_num
  omega

/-- Adding back what was subtracted gives the first operand, modulo 256. -/
theorem sub8_res (a v : Byte) (c : Bool) : ((sub8 a v c).res.toNat + v.toNat + c.toNat) % 256 = a.toNat := by
  have h := toNat_ofInt8 ((a.toNat : Int) - v.toNat - c.toNat)
  have ha := a.isLt
  have hv := v.isLt
  have hc : c.toNat ≤ 1 := Bool.toNat_le c
  show ((BitVec.ofInt 8 ((a.toNat : Int) - v.toNat - c.toNat)).toNat + _ + _) % 256 = _
  omega

/-- The half borrow. -/
theorem sub8_h (a v : Byte) (c : Bool) : (sub8 a v c).h = true ↔ a.toNat % 16 < v.toNat % 16 + c.toNat := by
  simp [sub8, bitNat]
  omega

/-- The borrow. -/
theorem sub8_c (a v : Byte) (c : Bool) : (sub8 a v c).c = true ↔ a.toNat < v.toNat + c.toNat := by
  simp [sub8, bitNat]
  omega

/-- A difference without borrow-in is 0 exactly for equal operands. -/
theorem sub8_zero (a v : Byte) : (sub8 a v false).res = 0 ↔ a = v := by
  have h := sub8_res a v false
  have ha := a.isLt
  have hv := v.isLt
  rw [← BitVec.toNat_inj, ← BitVec.toNat_inj]
  simp only [Bool.toNat_false] at h
  show _ = 0 ↔ _
  generalize (sub8 a v false).res = r at *
  have := r.isLt
  omega

/-- The eight ALU operations meet the table of R180. -/
theorem aluOp_result (op : AluOp) (a v : Byte) (c : Bool) : AluResult op a v c (aluOp op a v c).a (aluOp op a v c).flags := by
  cases op
  case add => exact ⟨by simp [aluOp, add8, bitNat], by simp [FlagsAre, aluOp, sumFlags, add8, bitNat]⟩
  case adc => exact ⟨by simp [aluOp, add8, bitNat], by simp [FlagsAre, aluOp, sumFlags, add8, bitNat]⟩
  case sub =>
    exact ⟨sub8_res a v false, decide_eq_true_iff.trans (sub8_zero a v), by simp [aluOp, sumFlags], sub8_h a v false, sub8_c a v false⟩
  case sbc => exact ⟨sub8_res a v c, decide_eq_true_iff, by simp [aluOp, sumFlags], sub8_h a v c, sub8_c a v c⟩
  case cp => exact ⟨rfl, decide_eq_true_iff.trans (sub8_zero a v), by simp [aluOp, sumFlags], sub8_h a v false, sub8_c a v false⟩
  all_goals exact ⟨fun k hk => by simp [aluOp], by simp [aluOp, FlagsAre, logicFlags]⟩

/-! ### Bits -/

/-- The eight rotates and shifts, bit by bit (R256). -/
theorem rotResult_bits (op : RotOp) (v : Byte) (c : Bool) : RotResult op v c (rotResult op v c) := by
  show ∀ k, k < 8 → (rotResult op v c).getLsbD k = rotBit op v c k
  cases op <;> cases c <;> revert v <;> decide

/-- The bit that leaves (R256). -/
theorem rotOut_eq (op : RotOp) (v : Byte) : rotOut op v = rotCarry op v := by cases op <;> rfl

/-- A single bit set, bit by bit. -/
theorem bitMask_getLsbD {b : Nat} (hb : b < 8) (k : Nat) : (bitMask b).getLsbD k = decide (k = b) := by
  by_cases hk : k < 8
  · have h : ∀ b k : Fin 8, (bitMask b.val).getLsbD k.val = decide (k.val = b.val) := by decide
    exact h ⟨b, hb⟩ ⟨k, hk⟩
  · rw [BitVec.getLsbD_of_ge _ _ (by omega)]
    simp
    omega

/-- Bits of a byte with bit `b` cleared (R252, R312). -/
theorem and_not_bitMask {b : Nat} (hb : b < 8) (v : Byte) {k : Nat} (hk : k < 8) :
    (v &&& ~~~bitMask b).getLsbD k = if k = b then false else v.getLsbD k := by
  rw [BitVec.getLsbD_and, BitVec.getLsbD_not, bitMask_getLsbD hb]
  by_cases h : k = b <;> simp [h, hk]

/-- Bits of a byte with bit `b` set (R254, R311). -/
theorem or_bitMask {b : Nat} (hb : b < 8) (v : Byte) {k : Nat} : (v ||| bitMask b).getLsbD k = if k = b then true else v.getLsbD k := by
  rw [BitVec.getLsbD_or, bitMask_getLsbD hb]
  by_cases h : k = b <;> simp [h]

end Sys2Proof.Machine
end

