-- ==== Sys2Proof/Laws/Timer.lean ====
section
/-! SUPPORT. The timer's tick in closed form, and what it leaves alone. -/

namespace Sys2Proof.Machine

/-- `k` threshold crossings: TIMA counts modulo 256, and passing 0xFF marks the overflow (R341). -/
theorem timaCrossings_eq (k : Nat) (t : Timer) :
    timaCrossings k t =
      { t with tima := BitVec.ofNat 8 (t.tima.toNat + k), overflow := t.overflow || decide (255 < t.tima.toNat + k) } := by
  induction k generalizing t with
  | zero =>
    have h : ¬ 255 < t.tima.toNat := by have := t.tima.isLt; omega
    simp [timaCrossings, h]
  | succ k ih =>
    have hlt := t.tima.isLt
    rw [timaCrossings, ih]
    by_cases h : t.tima = 0xFF
    · simp only [timaCrossing, h, if_true]
      congr 1
      · apply BitVec.eq_of_toNat_eq
        simp
        omega
      · simp
    · have hne : t.tima.toNat ≠ 255 := fun h' => h (BitVec.eq_of_toNat_eq h')
      simp only [timaCrossing, h, if_false]
      have hadd : (t.tima + 1).toNat = t.tima.toNat + 1 := by
        rw [BitVec.toNat_add]
        simp
        omega
      rw [hadd, show t.tima.toNat + 1 + k = t.tima.toNat + (k + 1) by omega]

theorem timerThreshold_pos (tac : Byte) : 0 < timerThreshold tac := by
  unfold timerThreshold
  split <;> decide

theorem timerThreshold_le (tac : Byte) : timerThreshold tac ≤ 1024 := by
  unfold timerThreshold
  split <;> decide

/-! ### What a tick leaves alone (R340) -/

@[simp] theorem timerReload_regs (s : State) : (timerReload s).regs = s.regs := by unfold timerReload; split <;> simp

@[simp] theorem timerTick_regs (n : Nat) (s : State) : (timerTick n s).regs = s.regs := by simp [timerTick]

@[simp] theorem timerReload_flags (s : State) : (timerReload s).flags = s.flags := by unfold timerReload; split <;> simp

@[simp] theorem timerTick_flags (n : Nat) (s : State) : (timerTick n s).flags = s.flags := by simp [timerTick]

@[simp] theorem timerReload_pc (s : State) : (timerReload s).pc = s.pc := by unfold timerReload; split <;> simp

@[simp] theorem timerTick_pc (n : Nat) (s : State) : (timerTick n s).pc = s.pc := by simp [timerTick]

@[simp] theorem timerReload_sp (s : State) : (timerReload s).sp = s.sp := by unfold timerReload; split <;> simp

@[simp] theorem timerTick_sp (n : Nat) (s : State) : (timerTick n s).sp = s.sp := by simp [timerTick]

@[simp] theorem timerReload_ime (s : State) : (timerReload s).ime = s.ime := by unfold timerReload; split <;> simp

@[simp] theorem timerTick_ime (n : Nat) (s : State) : (timerTick n s).ime = s.ime := by simp [timerTick]

@[simp] theorem timerReload_imePending (s : State) : (timerReload s).imePending = s.imePending := by unfold timerReload; split <;> simp

@[simp] theorem timerTick_imePending (n : Nat) (s : State) : (timerTick n s).imePending = s.imePending := by simp [timerTick]

@[simp] theorem timerReload_halted (s : State) : (timerReload s).halted = s.halted := by unfold timerReload; split <;> simp

@[simp] theorem timerTick_halted (n : Nat) (s : State) : (timerTick n s).halted = s.halted := by simp [timerTick]

@[simp] theorem timerReload_status (s : State) : (timerReload s).status = s.status := by unfold timerReload; split <;> simp

@[simp] theorem timerTick_status (n : Nat) (s : State) : (timerTick n s).status = s.status := by simp [timerTick]

@[simp] theorem timerReload_ie (s : State) : (timerReload s).ie = s.ie := by unfold timerReload; split <;> simp

@[simp] theorem timerTick_ie (n : Nat) (s : State) : (timerTick n s).ie = s.ie := by simp [timerTick]

@[simp] theorem timerReload_video (s : State) : (timerReload s).video = s.video := by unfold timerReload; split <;> simp

@[simp] theorem timerTick_video (n : Nat) (s : State) : (timerTick n s).video = s.video := by simp [timerTick]

@[simp] theorem timerReload_mem (s : State) : (timerReload s).mem = s.mem := by unfold timerReload; split <;> simp

@[simp] theorem timerTick_mem (n : Nat) (s : State) : (timerTick n s).mem = s.mem := by simp [timerTick]

@[simp] theorem timerReload_joyp (s : State) : (timerReload s).joyp = s.joyp := by unfold timerReload; split <;> simp

@[simp] theorem timerTick_joyp (n : Nat) (s : State) : (timerTick n s).joyp = s.joyp := by simp [timerTick]

@[simp] theorem timerReload_bootEnabled (s : State) : (timerReload s).bootEnabled = s.bootEnabled := by unfold timerReload; split <;> simp

@[simp] theorem timerTick_bootEnabled (n : Nat) (s : State) : (timerTick n s).bootEnabled = s.bootEnabled := by simp [timerTick]

@[simp] theorem timerReload_romLoaded (s : State) : (timerReload s).romLoaded = s.romLoaded := by unfold timerReload; split <;> simp

@[simp] theorem timerTick_romLoaded (n : Nat) (s : State) : (timerTick n s).romLoaded = s.romLoaded := by simp [timerTick]

@[simp] theorem timerReload_cfg (s : State) : (timerReload s).cfg = s.cfg := by unfold timerReload; split <;> simp

@[simp] theorem timerTick_cfg (n : Nat) (s : State) : (timerTick n s).cfg = s.cfg := by simp [timerTick]

@[simp] theorem timerReload_quanta (s : State) : (timerReload s).quanta = s.quanta := by unfold timerReload; split <;> simp

@[simp] theorem timerTick_quanta (n : Nat) (s : State) : (timerTick n s).quanta = s.quanta := by simp [timerTick]

@[simp] theorem timerReload_timer_tma (s : State) : (timerReload s).timer.tma = s.timer.tma := by
  unfold timerReload; split <;> simp

@[simp] theorem timerReload_timer_tac (s : State) : (timerReload s).timer.tac = s.timer.tac := by
  unfold timerReload; split <;> simp

@[simp] theorem timerReload_timer_divAcc (s : State) : (timerReload s).timer.divAcc = s.timer.divAcc := by
  unfold timerReload; split <;> simp

@[simp] theorem timerReload_timer_timaAcc (s : State) : (timerReload s).timer.timaAcc = s.timer.timaAcc := by
  unfold timerReload; split <;> simp

@[simp] theorem timerReload_timer_div (s : State) : (timerReload s).timer.div = s.timer.div := by
  unfold timerReload; split <;> simp

@[simp] theorem counterTick_tma (n : Nat) (t : Timer) : (counterTick n t).tma = t.tma := by
  unfold counterTick; split <;> simp [timaCrossings_eq]

@[simp] theorem counterTick_tac (n : Nat) (t : Timer) : (counterTick n t).tac = t.tac := by
  unfold counterTick; split <;> simp [timaCrossings_eq]

@[simp] theorem counterTick_divAcc (n : Nat) (t : Timer) : (counterTick n t).divAcc = t.divAcc := by
  unfold counterTick; split <;> simp [timaCrossings_eq]

@[simp] theorem counterTick_div (n : Nat) (t : Timer) : (counterTick n t).div = t.div := by
  unfold counterTick; split <;> simp [timaCrossings_eq]

@[simp] theorem timerTick_timer_tma (n : Nat) (s : State) : (timerTick n s).timer.tma = s.timer.tma := by
  simp [timerTick, dividerTick]

@[simp] theorem timerTick_timer_tac (n : Nat) (s : State) : (timerTick n s).timer.tac = s.timer.tac := by
  simp [timerTick, dividerTick]

/-- A tick keeps the bounds of the accumulators (R37). -/
theorem timerTick_inv {s : State} (h : TimerInv s.timer) (n : Nat) : TimerInv (timerTick n s).timer := by
  refine ⟨?_, ?_⟩
  · simp only [timerTick, counterTick_divAcc, timerReload_timer_divAcc, dividerTick]
    omega
  · have hlt := Nat.mod_lt (s.timer.timaAcc + n) (timerThreshold_pos s.timer.tac)
    have hle := timerThreshold_le s.timer.tac
    simp only [timerTick, counterTick]
    split
    · rw [timaCrossings_eq]
      simp only [timerReload_timer_timaAcc, timerReload_timer_tac, dividerTick]
      omega
    · simp only [timerReload_timer_timaAcc, dividerTick]
      exact h.timaAcc

end Sys2Proof.Machine
end

