-- ==== Sys2Proof/Laws/Video.lean ====
section
/-! SUPPORT. The video unit's tick: what it leaves alone, that its loop ends, where in the frame it goes. -/

namespace Sys2Proof.Machine

/-! ### What a tick leaves alone (R370, R398) -/

@[simp] theorem statRequest_video (b : Nat) (s : State) : (statRequest b s).video = s.video := by
  unfold statRequest; split <;> simp

@[simp] theorem renderScanline_mem (s : State) (ly : Nat) : (renderScanline s ly).mem = s.mem := rfl

@[simp] theorem statRequest_regs (b : Nat) (s : State) : (statRequest b s).regs = s.regs := by
  unfold statRequest; split <;> simp

theorem leaveMode_regs (s : State) : (leaveMode s).regs = s.regs := by
  unfold leaveMode endHblank endVblankLine
  repeat' split
  all_goals simp [enterMode, State.setLy, renderScanline]

@[simp] theorem runTransitions_regs (fuel : Nat) (s : State) : (runTransitions fuel s).regs = s.regs := by
  induction fuel generalizing s with
  | zero => rfl
  | succ n ih =>
    rw [runTransitions]
    split
    · rfl
    · next t ht =>
      unfold transition at ht
      split at ht <;> cases ht
      rw [ih, leaveMode_regs]

@[simp] theorem videoTick_regs (n : Nat) (s : State) : (videoTick n s).regs = s.regs := by
  unfold videoTick compareLine State.addClock transitionFuel
  simp only
  split <;> simp

@[simp] theorem statRequest_flags (b : Nat) (s : State) : (statRequest b s).flags = s.flags := by
  unfold statRequest; split <;> simp

theorem leaveMode_flags (s : State) : (leaveMode s).flags = s.flags := by
  unfold leaveMode endHblank endVblankLine
  repeat' split
  all_goals simp [enterMode, State.setLy, renderScanline]

@[simp] theorem runTransitions_flags (fuel : Nat) (s : State) : (runTransitions fuel s).flags = s.flags := by
  induction fuel generalizing s with
  | zero => rfl
  | succ n ih =>
    rw [runTransitions]
    split
    · rfl
    · next t ht =>
      unfold transition at ht
      split at ht <;> cases ht
      rw [ih, leaveMode_flags]

@[simp] theorem videoTick_flags (n : Nat) (s : State) : (videoTick n s).flags = s.flags := by
  unfold videoTick compareLine State.addClock transitionFuel
  simp only
  split <;> simp

@[simp] theorem statRequest_pc (b : Nat) (s : State) : (statRequest b s).pc = s.pc := by
  unfold statRequest; split <;> simp

theorem leaveMode_pc (s : State) : (leaveMode s).pc = s.pc := by
  unfold leaveMode endHblank endVblankLine
  repeat' split
  all_goals simp [enterMode, State.setLy, renderScanline]

@[simp] theorem runTransitions_pc (fuel : Nat) (s : State) : (runTransitions fuel s).pc = s.pc := by
  induction fuel generalizing s with
  | zero => rfl
  | succ n ih =>
    rw [runTransitions]
    split
    · rfl
    · next t ht =>
      unfold transition at ht
      split at ht <;> cases ht
      rw [ih, leaveMode_pc]

@[simp] theorem videoTick_pc (n : Nat) (s : State) : (videoTick n s).pc = s.pc := by
  unfold videoTick compareLine State.addClock transitionFuel
  simp only
  split <;> simp

@[simp] theorem statRequest_sp (b : Nat) (s : State) : (statRequest b s).sp = s.sp := by
  unfold statRequest; split <;> simp

theorem leaveMode_sp (s : State) : (leaveMode s).sp = s.sp := by
  unfold leaveMode endHblank endVblankLine
  repeat' split
  all_goals simp [enterMode, State.setLy, renderScanline]

@[simp] theorem runTransitions_sp (fuel : Nat) (s : State) : (runTransitions fuel s).sp = s.sp := by
  induction fuel generalizing s with
  | zero => rfl
  | succ n ih =>
    rw [runTransitions]
    split
    · rfl
    · next t ht =>
      unfold transition at ht
      split at ht <;> cases ht
      rw [ih, leaveMode_sp]

@[simp] theorem videoTick_sp (n : Nat) (s : State) : (videoTick n s).sp = s.sp := by
  unfold videoTick compareLine State.addClock transitionFuel
  simp only
  split <;> simp

@[simp] theorem statRequest_ime (b : Nat) (s : State) : (statRequest b s).ime = s.ime := by
  unfold statRequest; split <;> simp

theorem leaveMode_ime (s : State) : (leaveMode s).ime = s.ime := by
  unfold leaveMode endHblank endVblankLine
  repeat' split
  all_goals simp [enterMode, State.setLy, renderScanline]

@[simp] theorem runTransitions_ime (fuel : Nat) (s : State) : (runTransitions fuel s).ime = s.ime := by
  induction fuel generalizing s with
  | zero => rfl
  | succ n ih =>
    rw [runTransitions]
    split
    · rfl
    · next t ht =>
      unfold transition at ht
      split at ht <;> cases ht
      rw [ih, leaveMode_ime]

@[simp] theorem videoTick_ime (n : Nat) (s : State) : (videoTick n s).ime = s.ime := by
  unfold videoTick compareLine State.addClock transitionFuel
  simp only
  split <;> simp

@[simp] theorem statRequest_imePending (b : Nat) (s : State) : (statRequest b s).imePending = s.imePending := by
  unfold statRequest; split <;> simp

theorem leaveMode_imePending (s : State) : (leaveMode s).imePending = s.imePending := by
  unfold leaveMode endHblank endVblankLine
  repeat' split
  all_goals simp [enterMode, State.setLy, renderScanline]

@[simp] theorem runTransitions_imePending (fuel : Nat) (s : State) : (runTransitions fuel s).imePending = s.imePending := by
  induction fuel generalizing s with
  | zero => rfl
  | succ n ih =>
    rw [runTransitions]
    split
    · rfl
    · next t ht =>
      unfold transition at ht
      split at ht <;> cases ht
      rw [ih, leaveMode_imePending]

@[simp] theorem videoTick_imePending (n : Nat) (s : State) : (videoTick n s).imePending = s.imePending := by
  unfold videoTick compareLine State.addClock transitionFuel
  simp only
  split <;> simp

@[simp] theorem statRequest_halted (b : Nat) (s : State) : (statRequest b s).halted = s.halted := by
  unfold statRequest; split <;> simp

theorem leaveMode_halted (s : State) : (leaveMode s).halted = s.halted := by
  unfold leaveMode endHblank endVblankLine
  repeat' split
  all_goals simp [enterMode, State.setLy, renderScanline]

@[simp] theorem runTransitions_halted (fuel : Nat) (s : State) : (runTransitions fuel s).halted = s.halted := by
  induction fuel generalizing s with
  | zero => rfl
  | succ n ih =>
    rw [runTransitions]
    split
    · rfl
    · next t ht =>
      unfold transition at ht
      split at ht <;> cases ht
      rw [ih, leaveMode_halted]

@[simp] theorem videoTick_halted (n : Nat) (s : State) : (videoTick n s).halted = s.halted := by
  unfold videoTick compareLine State.addClock transitionFuel
  simp only
  split <;> simp

@[simp] theorem statRequest_status (b : Nat) (s : State) : (statRequest b s).status = s.status := by
  unfold statRequest; split <;> simp

theorem leaveMode_status (s : State) : (leaveMode s).status = s.status := by
  unfold leaveMode endHblank endVblankLine
  repeat' split
  all_goals simp [enterMode, State.setLy, renderScanline]

@[simp] theorem runTransitions_status (fuel : Nat) (s : State) : (runTransitions fuel s).status = s.status := by
  induction fuel generalizing s with
  | zero => rfl
  | succ n ih =>
    rw [runTransitions]
    split
    · rfl
    · next t ht =>
      unfold transition at ht
      split at ht <;> cases ht
      rw [ih, leaveMode_status]

@[simp] theorem videoTick_status (n : Nat) (s : State) : (videoTick n s).status = s.status := by
  unfold videoTick compareLine State.addClock transitionFuel
  simp only
  split <;> simp

@[simp] theorem statRequest_ie (b : Nat) (s : State) : (statRequest b s).ie = s.ie := by
  unfold statRequest; split <;> simp

theorem leaveMode_ie (s : State) : (leaveMode s).ie = s.ie := by
  unfold leaveMode endHblank endVblankLine
  repeat' split
  all_goals simp [enterMode, State.setLy, renderScanline]

@[simp] theorem runTransitions_ie (fuel : Nat) (s : State) : (runTransitions fuel s).ie = s.ie := by
  induction fuel generalizing s with
  | zero => rfl
  | succ n ih =>
    rw [runTransitions]
    split
    · rfl
    · next t ht =>
      unfold transition at ht
      split at ht <;> cases ht
      rw [ih, leaveMode_ie]

@[simp] theorem videoTick_ie (n : Nat) (s : State) : (videoTick n s).ie = s.ie := by
  unfold videoTick compareLine State.addClock transitionFuel
  simp only
  split <;> simp

@[simp] theorem statRequest_timer (b : Nat) (s : State) : (statRequest b s).timer = s.timer := by
  unfold statRequest; split <;> simp

theorem leaveMode_timer (s : State) : (leaveMode s).timer = s.timer := by
  unfold leaveMode endHblank endVblankLine
  repeat' split
  all_goals simp [enterMode, State.setLy, renderScanline]

@[simp] theorem runTransitions_timer (fuel : Nat) (s : State) : (runTransitions fuel s).timer = s.timer := by
  induction fuel generalizing s with
  | zero => rfl
  | succ n ih =>
    rw [runTransitions]
    split
    · rfl
    · next t ht =>
      unfold transition at ht
      split at ht <;> cases ht
      rw [ih, leaveMode_timer]

@[simp] theorem videoTick_timer (n : Nat) (s : State) : (videoTick n s).timer = s.timer := by
  unfold videoTick compareLine State.addClock transitionFuel
  simp only
  split <;> simp

@[simp] theorem statRequest_mem (b : Nat) (s : State) : (statRequest b s).mem = s.mem := by
  unfold statRequest; split <;> simp

theorem leaveMode_mem (s : State) : (leaveMode s).mem = s.mem := by
  unfold leaveMode endHblank endVblankLine
  repeat' split
  all_goals simp [enterMode, State.setLy, renderScanline]

@[simp] theorem runTransitions_mem (fuel : Nat) (s : State) : (runTransitions fuel s).mem = s.mem := by
  induction fuel generalizing s with
  | zero => rfl
  | succ n ih =>
    rw [runTransitions]
    split
    · rfl
    · next t ht =>
      unfold transition at ht
      split at ht <;> cases ht
      rw [ih, leaveMode_mem]

@[simp] theorem videoTick_mem (n : Nat) (s : State) : (videoTick n s).mem = s.mem := by
  unfold videoTick compareLine State.addClock transitionFuel
  simp only
  split <;> simp

@[simp] theorem statRequest_joyp (b : Nat) (s : State) : (statRequest b s).joyp = s.joyp := by
  unfold statRequest; split <;> simp

theorem leaveMode_joyp (s : State) : (leaveMode s).joyp = s.joyp := by
  unfold leaveMode endHblank endVblankLine
  repeat' split
  all_goals simp [enterMode, State.setLy, renderScanline]

@[simp] theorem runTransitions_joyp (fuel : Nat) (s : State) : (runTransitions fuel s).joyp = s.joyp := by
  induction fuel generalizing s with
  | zero => rfl
  | succ n ih =>
    rw [runTransitions]
    split
    · rfl
    · next t ht =>
      unfold transition at ht
      split at ht <;> cases ht
      rw [ih, leaveMode_joyp]

@[simp] theorem videoTick_joyp (n : Nat) (s : State) : (videoTick n s).joyp = s.joyp := by
  unfold videoTick compareLine State.addClock transitionFuel
  simp only
  split <;> simp

@[simp] theorem statRequest_bootEnabled (b : Nat) (s : State) : (statRequest b s).bootEnabled = s.bootEnabled := by
  unfold statRequest; split <;> simp

theorem leaveMode_bootEnabled (s : State) : (leaveMode s).bootEnabled = s.bootEnabled := by
  unfold leaveMode endHblank endVblankLine
  repeat' split
  all_goals simp [enterMode, State.setLy, renderScanline]

@[simp] theorem runTransitions_bootEnabled (fuel : Nat) (s : State) : (runTransitions fuel s).bootEnabled = s.bootEnabled := by
  induction fuel generalizing s with
  | zero => rfl
  | succ n ih =>
    rw [runTransitions]
    split
    · rfl
    · next t ht =>
      unfold transition at ht
      split at ht <;> cases ht
      rw [ih, leaveMode_bootEnabled]

@[simp] theorem videoTick_bootEnabled (n : Nat) (s : State) : (videoTick n s).bootEnabled = s.bootEnabled := by
  unfold videoTick compareLine State.addClock transitionFuel
  simp only
  split <;> simp

@[simp] theorem statRequest_romLoaded (b : Nat) (s : State) : (statRequest b s).romLoaded = s.romLoaded := by
  unfold statRequest; split <;> simp

theorem leaveMode_romLoaded (s : State) : (leaveMode s).romLoaded = s.romLoaded := by
  unfold leaveMode endHblank endVblankLine
  repeat' split
  all_goals simp [enterMode, State.setLy, renderScanline]

@[simp] theorem runTransitions_romLoaded (fuel : Nat) (s : State) : (runTransitions fuel s).romLoaded = s.romLoaded := by
  induction fuel generalizing s with
  | zero => rfl
  | succ n ih =>
    rw [runTransitions]
    split
    · rfl
    · next t ht =>
      unfold transition at ht
      split at ht <;> cases ht
      rw [ih, leaveMode_romLoaded]

@[simp] theorem videoTick_romLoaded (n : Nat) (s : State) : (videoTick n s).romLoaded = s.romLoaded := by
  unfold videoTick compareLine State.addClock transitionFuel
  simp only
  split <;> simp

@[simp] theorem statRequest_cfg (b : Nat) (s : State) : (statRequest b s).cfg = s.cfg := by
  unfold statRequest; split <;> simp

theorem leaveMode_cfg (s : State) : (leaveMode s).cfg = s.cfg := by
  unfold leaveMode endHblank endVblankLine
  repeat' split
  all_goals simp [enterMode, State.setLy, renderScanline]

@[simp] theorem runTransitions_cfg (fuel : Nat) (s : State) : (runTransitions fuel s).cfg = s.cfg := by
  induction fuel generalizing s with
  | zero => rfl
  | succ n ih =>
    rw [runTransitions]
    split
    · rfl
    · next t ht =>
      unfold transition at ht
      split at ht <;> cases ht
      rw [ih, leaveMode_cfg]

@[simp] theorem videoTick_cfg (n : Nat) (s : State) : (videoTick n s).cfg = s.cfg := by
  unfold videoTick compareLine State.addClock transitionFuel
  simp only
  split <;> simp

@[simp] theorem statRequest_quanta (b : Nat) (s : State) : (statRequest b s).quanta = s.quanta := by
  unfold statRequest; split <;> simp

theorem leaveMode_quanta (s : State) : (leaveMode s).quanta = s.quanta := by
  unfold leaveMode endHblank endVblankLine
  repeat' split
  all_goals simp [enterMode, State.setLy, renderScanline]

@[simp] theorem runTransitions_quanta (fuel : Nat) (s : State) : (runTransitions fuel s).quanta = s.quanta := by
  induction fuel generalizing s with
  | zero => rfl
  | succ n ih =>
    rw [runTransitions]
    split
    · rfl
    · next t ht =>
      unfold transition at ht
      split at ht <;> cases ht
      rw [ih, leaveMode_quanta]

@[simp] theorem videoTick_quanta (n : Nat) (s : State) : (videoTick n s).quanta = s.quanta := by
  unfold videoTick compareLine State.addClock transitionFuel
  simp only
  split <;> simp

/-! ### The registers of the video unit a tick leaves alone -/

theorem leaveMode_video_lcdc (s : State) : (leaveMode s).video.lcdc = s.video.lcdc := by
  unfold leaveMode endHblank endVblankLine
  repeat' split
  all_goals simp [enterMode, State.setLy, renderScanline]

@[simp] theorem runTransitions_video_lcdc (fuel : Nat) (s : State) : (runTransitions fuel s).video.lcdc = s.video.lcdc := by
  induction fuel generalizing s with
  | zero => rfl
  | succ n ih =>
    rw [runTransitions]
    split
    · rfl
    · next t ht =>
      unfold transition at ht
      split at ht <;> cases ht
      rw [ih, leaveMode_video_lcdc]

@[simp] theorem videoTick_video_lcdc (n : Nat) (s : State) : (videoTick n s).video.lcdc = s.video.lcdc := by
  unfold videoTick compareLine State.addClock transitionFuel
  simp only
  split <;> simp

theorem leaveMode_video_statEnable (s : State) : (leaveMode s).video.statEnable = s.video.statEnable := by
  unfold leaveMode endHblank endVblankLine
  repeat' split
  all_goals simp [enterMode, State.setLy, renderScanline]

@[simp] theorem runTransitions_video_statEnable (fuel : Nat) (s : State) : (runTransitions fuel s).video.statEnable = s.video.statEnable := by
  induction fuel generalizing s with
  | zero => rfl
  | succ n ih =>
    rw [runTransitions]
    split
    · rfl
    · next t ht =>
      unfold transition at ht
      split at ht <;> cases ht
      rw [ih, leaveMode_video_statEnable]

@[simp] theorem videoTick_video_statEnable (n : Nat) (s : State) : (videoTick n s).video.statEnable = s.video.statEnable := by
  unfold videoTick compareLine State.addClock transitionFuel
  simp only
  split <;> simp

theorem leaveMode_video_scy (s : State) : (leaveMode s).video.scy = s.video.scy := by
  unfold leaveMode endHblank endVblankLine
  repeat' split
  all_goals simp [enterMode, State.setLy, renderScanline]

@[simp] theorem runTransitions_video_scy (fuel : Nat) (s : State) : (runTransitions fuel s).video.scy = s.video.scy := by
  induction fuel generalizing s with
  | zero => rfl
  | succ n ih =>
    rw [runTransitions]
    split
    · rfl
    · next t ht =>
      unfold transition at ht
      split at ht <;> cases ht
      rw [ih, leaveMode_video_scy]

@[simp] theorem videoTick_video_scy (n : Nat) (s : State) : (videoTick n s).video.scy = s.video.scy := by
  unfold videoTick compareLine State.addClock transitionFuel
  simp only
  split <;> simp

theorem leaveMode_video_scx (s : State) : (leaveMode s).video.scx = s.video.scx := by
  unfold leaveMode endHblank endVblankLine
  repeat' split
  all_goals simp [enterMode, State.setLy, renderScanline]

@[simp] theorem runTransitions_video_scx (fuel : Nat) (s : State) : (runTransitions fuel s).video.scx = s.video.scx := by
  induction fuel generalizing s with
  | zero => rfl
  | succ n ih =>
    rw [runTransitions]
    split
    · rfl
    · next t ht =>
      unfold transition at ht
      split at ht <;> cases ht
      rw [ih, leaveMode_video_scx]

@[simp] theorem videoTick_video_scx (n : Nat) (s : State) : (videoTick n s).video.scx = s.video.scx := by
  unfold videoTick compareLine State.addClock transitionFuel
  simp only
  split <;> simp

theorem leaveMode_video_lyc (s : State) : (leaveMode s).video.lyc = s.video.lyc := by
  unfold leaveMode endHblank endVblankLine
  repeat' split
  all_goals simp [enterMode, State.setLy, renderScanline]

@[simp] theorem runTransitions_video_lyc (fuel : Nat) (s : State) : (runTransitions fuel s).video.lyc = s.video.lyc := by
  induction fuel generalizing s with
  | zero => rfl
  | succ n ih =>
    rw [runTransitions]
    split
    · rfl
    · next t ht =>
      unfold transition at ht
      split at ht <;> cases ht
      rw [ih, leaveMode_video_lyc]

@[simp] theorem videoTick_video_lyc (n : Nat) (s : State) : (videoTick n s).video.lyc = s.video.lyc := by
  unfold videoTick compareLine State.addClock transitionFuel
  simp only
  split <;> simp

theorem leaveMode_video_dma (s : State) : (leaveMode s).video.dma = s.video.dma := by
  unfold leaveMode endHblank endVblankLine
  repeat' split
  all_goals simp [enterMode, State.setLy, renderScanline]

@[simp] theorem runTransitions_video_dma (fuel : Nat) (s : State) : (runTransitions fuel s).video.dma = s.video.dma := by
  induction fuel generalizing s with
  | zero => rfl
  | succ n ih =>
    rw [runTransitions]
    split
    · rfl
    · next t ht =>
      unfold transition at ht
      split at ht <;> cases ht
      rw [ih, leaveMode_video_dma]

@[simp] theorem videoTick_video_dma (n : Nat) (s : State) : (videoTick n s).video.dma = s.video.dma := by
  unfold videoTick compareLine State.addClock transitionFuel
  simp only
  split <;> simp

theorem leaveMode_video_bgp (s : State) : (leaveMode s).video.bgp = s.video.bgp := by
  unfold leaveMode endHblank endVblankLine
  repeat' split
  all_goals simp [enterMode, State.setLy, renderScanline]

@[simp] theorem runTransitions_video_bgp (fuel : Nat) (s : State) : (runTransitions fuel s).video.bgp = s.video.bgp := by
  induction fuel generalizing s with
  | zero => rfl
  | succ n ih =>
    rw [runTransitions]
    split
    · rfl
    · next t ht =>
      unfold transition at ht
      split at ht <;> cases ht
      rw [ih, leaveMode_video_bgp]

@[simp] theorem videoTick_video_bgp (n : Nat) (s : State) : (videoTick n s).video.bgp = s.video.bgp := by
  unfold videoTick compareLine State.addClock transitionFuel
  simp only
  split <;> simp

theorem leaveMode_video_obp0 (s : State) : (leaveMode s).video.obp0 = s.video.obp0 := by
  unfold leaveMode endHblank endVblankLine
  repeat' split
  all_goals simp [enterMode, State.setLy, renderScanline]

@[simp] theorem runTransitions_video_obp0 (fuel : Nat) (s : State) : (runTransitions fuel s).video.obp0 = s.video.obp0 := by
  induction fuel generalizing s with
  | zero => rfl
  | succ n ih =>
    rw [runTransitions]
    split
    · rfl
    · next t ht =>
      unfold transition at ht
      split at ht <;> cases ht
      rw [ih, leaveMode_video_obp0]

@[simp] theorem videoTick_video_obp0 (n : Nat) (s : State) : (videoTick n s).video.obp0 = s.video.obp0 := by
  unfold videoTick compareLine State.addClock transitionFuel
  simp only
  split <;> simp

theorem leaveMode_video_obp1 (s : State) : (leaveMode s).video.obp1 = s.video.obp1 := by
  unfold leaveMode endHblank endVblankLine
  repeat' split
  all_goals simp [enterMode, State.setLy, renderScanline]

@[simp] theorem runTransitions_video_obp1 (fuel : Nat) (s : State) : (runTransitions fuel s).video.obp1 = s.video.obp1 := by
  induction fuel generalizing s with
  | zero => rfl
  | succ n ih =>
    rw [runTransitions]
    split
    · rfl
    · next t ht =>
      unfold transition at ht
      split at ht <;> cases ht
      rw [ih, leaveMode_video_obp1]

@[simp] theorem videoTick_video_obp1 (n : Nat) (s : State) : (videoTick n s).video.obp1 = s.video.obp1 := by
  unfold videoTick compareLine State.addClock transitionFuel
  simp only
  split <;> simp

theorem leaveMode_video_wy (s : State) : (leaveMode s).video.wy = s.video.wy := by
  unfold leaveMode endHblank endVblankLine
  repeat' split
  all_goals simp [enterMode, State.setLy, renderScanline]

@[simp] theorem runTransitions_video_wy (fuel : Nat) (s : State) : (runTransitions fuel s).video.wy = s.video.wy := by
  induction fuel generalizing s with
  | zero => rfl
  | succ n ih =>
    rw [runTransitions]
    split
    · rfl
    · next t ht =>
      unfold transition at ht
      split at ht <;> cases ht
      rw [ih, leaveMode_video_wy]

@[simp] theorem videoTick_video_wy (n : Nat) (s : State) : (videoTick n s).video.wy = s.video.wy := by
  unfold videoTick compareLine State.addClock transitionFuel
  simp only
  split <;> simp

theorem leaveMode_video_wx (s : State) : (leaveMode s).video.wx = s.video.wx := by
  unfold leaveMode endHblank endVblankLine
  repeat' split
  all_goals simp [enterMode, State.setLy, renderScanline]

@[simp] theorem runTransitions_video_wx (fuel : Nat) (s : State) : (runTransitions fuel s).video.wx = s.video.wx := by
  induction fuel generalizing s with
  | zero => rfl
  | succ n ih =>
    rw [runTransitions]
    split
    · rfl
    · next t ht =>
      unfold transition at ht
      split at ht <;> cases ht
      rw [ih, leaveMode_video_wx]

@[simp] theorem videoTick_video_wx (n : Nat) (s : State) : (videoTick n s).video.wx = s.video.wx := by
  unfold videoTick compareLine State.addClock transitionFuel
  simp only
  split <;> simp

/-! ### The state machine -/

/-- What every transition keeps of R46, the mode clock apart. -/
structure VideoShape (v : Video) : Prop where
  lyRange : v.ly.toNat ≤ 153
  vblankLines : v.mode = .vblank ↔ 144 ≤ v.ly.toNat
  framebuffer : framebufferWf v.framebuffer

theorem VideoInv.shape {v : Video} (h : VideoInv v) : VideoShape v := ⟨h.lyRange, h.vblankLines, h.framebuffer⟩

theorem renderLine_length (s : State) (ly : Nat) : (renderLine s ly).length = 160 := by simp [renderLine]

theorem ly_succ {b : Byte} (h : b.toNat ≤ 153) : (b + 1).toNat = b.toNat + 1 := by
  rw [BitVec.toNat_add]
  simp
  omega

/-- A transition out of a mode that has run its duration: R46 is kept, the mode clock loses the duration, and the place in the
frame stays, modulo the frame's 70,224 ticks (R385, R388). -/
theorem leaveMode_shape {s : State} (h : VideoShape s.video) (hc : modeDuration s.video.mode ≤ s.video.modeClock) :
    VideoShape (leaveMode s).video ∧
    (leaveMode s).video.modeClock + modeDuration s.video.mode = s.video.modeClock ∧
    framePosition (leaveMode s).video % 70224 = framePosition s.video % 70224 := by
  obtain ⟨hly, hvb, hfb⟩ := h
  have hsucc := ly_succ hly
  cases hmode : s.video.mode with
  | oamSearch =>
    have hlt : s.video.ly.toNat < 144 := by
      by_contra hcon
      have := hvb.mpr (by omega)
      rw [hmode] at this
      cases this
    simp only [hmode, modeDuration] at hc
    refine ⟨⟨?_, ?_, ?_⟩, ?_, ?_⟩ <;>
      simp only [leaveMode, hmode, enterMode, modeDuration, framePosition]
    · exact hly
    · simp; omega
    · exact hfb
    · omega
    · omega
  | pixelTransfer =>
    have hlt : s.video.ly.toNat < 144 := by
      by_contra hcon
      have := hvb.mpr (by omega)
      rw [hmode] at this
      cases this
    simp only [hmode, modeDuration] at hc
    refine ⟨⟨?_, ?_, ?_⟩, ?_, ?_⟩ <;>
      simp only [leaveMode, hmode, enterMode, modeDuration, framePosition, statRequest_video, renderScanline]
    · exact hly
    · simp; omega
    · exact rowWrite_wf hfb hlt (renderLine_length _ _)
    · omega
    · omega
  | hblank =>
    have hlt : s.video.ly.toNat < 144 := by
      by_contra hcon
      have := hvb.mpr (by omega)
      rw [hmode] at this
      cases this
    simp only [hmode, modeDuration] at hc
    by_cases h144 : s.video.ly + 1 = 144
    · have hn : s.video.ly.toNat + 1 = 144 := by rw [← hsucc, h144]; rfl
      refine ⟨⟨?_, ?_, ?_⟩, ?_, ?_⟩ <;>
        simp only [leaveMode, hmode, endHblank, h144, if_true, enterMode, modeDuration, framePosition, statRequest_video,
          requestInterrupt_video, State.setLy]
      · decide
      · decide
      · exact hfb
      · omega
      · have : (144 : Byte).toNat = 144 := rfl
        omega
    · have hn : s.video.ly.toNat + 1 ≠ 144 := fun hcon => h144 (BitVec.eq_of_toNat_eq (by rw [hsucc, hcon]; rfl))
      refine ⟨⟨?_, ?_, ?_⟩, ?_, ?_⟩ <;>
        simp only [leaveMode, hmode, endHblank, h144, if_false, enterMode, modeDuration, framePosition, statRequest_video,
          State.setLy, hsucc]
      · omega
      · simp; omega
      · exact hfb
      · omega
      · omega
  | vblank =>
    have hge : 144 ≤ s.video.ly.toNat := hvb.mp hmode
    simp only [hmode, modeDuration] at hc
    by_cases h153 : s.video.ly.toNat + 1 > 153
    · refine ⟨⟨?_, ?_, ?_⟩, ?_, ?_⟩ <;>
        simp only [leaveMode, hmode, endVblankLine, h153, if_true, enterMode, modeDuration, framePosition, statRequest_video,
          State.setLy]
      · decide
      · decide
      · exact hfb
      · omega
      · have : (0 : Byte).toNat = 0 := rfl
        omega
    · refine ⟨⟨?_, ?_, ?_⟩, ?_, ?_⟩ <;>
        simp only [leaveMode, hmode, endVblankLine, h153, if_false, enterMode, modeDuration, framePosition, State.setLy, hsucc]
      · omega
      · simp; omega
      · exact hfb
      · omega
      · omega

theorem modeDuration_ge (m : Mode) : 80 ≤ modeDuration m := by cases m <;> decide

/-- The loop: R46 is kept, the place in the frame stays, and with fuel for every 80 ticks the mode clock ends below the mode's
duration (R384, R389). -/
theorem runTransitions_shape (fuel : Nat) {s : State} (h : VideoShape s.video) :
    VideoShape (runTransitions fuel s).video ∧
    framePosition (runTransitions fuel s).video % 70224 = framePosition s.video % 70224 ∧
    (s.video.modeClock < 80 * fuel →
      (runTransitions fuel s).video.modeClock < modeDuration (runTransitions fuel s).video.mode) := by
  induction fuel generalizing s with
  | zero => exact ⟨h, rfl, fun hlt => absurd hlt (by omega)⟩
  | succ n ih =>
    rw [runTransitions]
    unfold transition
    split
    next heq =>
      split at heq
      · next hlt => exact ⟨h, rfl, fun _ => hlt⟩
      · cases heq
    next t heq =>
      split at heq
      · cases heq
      · next hge =>
        cases heq
        obtain ⟨h1, h2, h3⟩ := leaveMode_shape h (by omega)
        obtain ⟨i1, i2, i3⟩ := ih h1
        have := modeDuration_ge s.video.mode
        exact ⟨i1, i2.trans h3, fun hlt => i3 (by omega)⟩

@[simp] theorem compareLine_mode (s : State) : (compareLine s).video.mode = s.video.mode := by
  unfold compareLine; simp only; split <;> simp

@[simp] theorem compareLine_ly (s : State) : (compareLine s).video.ly = s.video.ly := by
  unfold compareLine; simp only; split <;> simp

@[simp] theorem compareLine_modeClock (s : State) : (compareLine s).video.modeClock = s.video.modeClock := by
  unfold compareLine; simp only; split <;> simp

@[simp] theorem compareLine_framebuffer (s : State) : (compareLine s).video.framebuffer = s.video.framebuffer := by
  unfold compareLine; simp only; split <;> simp

@[simp] theorem compareLine_coincidence (s : State) : (compareLine s).video.coincidence = decide (s.video.ly = s.video.lyc) := rfl

end Sys2Proof.Machine
end

