-- ==== Sys2Proof/Laws/Step.lean ====
section
/-! SUPPORT. What executing an instruction, the CPU step and a MachineStep can do, said once: the invariants and the whole-machine
rules follow from these without unfolding a meaning again. -/

namespace Sys2Proof.Machine

/-- What a chain of register writes and byte stores keeps. -/
structure Stored (s t : State) : Prop where
  memory : MemoryInv s.mem → MemoryInv t.mem
  image : MemoryInv s.mem → ∀ k, k < 0x8000 → memRead t.mem k = memRead s.mem k
  cfg : t.cfg = s.cfg
  romLoaded : t.romLoaded = s.romLoaded
  boot : t.bootEnabled = true → s.bootEnabled = true
  divAcc : s.timer.divAcc < 256 → t.timer.divAcc < 256
  hidden : SameHidden s t

namespace Stored

theorem of {s t : State} (hm : t.mem = s.mem) (hc : t.cfg = s.cfg) (hr : t.romLoaded = s.romLoaded)
    (hb : t.bootEnabled = s.bootEnabled) (ht : t.timer = s.timer) (hv : t.video = s.video) : Stored s t :=
  ⟨by rw [hm]; exact id, fun _ _ _ => by rw [hm], hc, hr, by rw [hb]; exact id, by rw [ht]; exact id,
    by constructor <;> simp [ht, hv]⟩

theorem trans {a b c : State} (h : Stored a b) (g : Stored b c) : Stored a c where
  memory := fun x => g.memory (h.memory x)
  image := fun x k hk => (g.image (h.memory x) k hk).trans (h.image x k hk)
  cfg := g.cfg.trans h.cfg
  romLoaded := g.romLoaded.trans h.romLoaded
  boot := fun x => h.boot (g.boot x)
  divAcc := fun x => g.divAcc (h.divAcc x)
  hidden :=
    { timaAcc := g.hidden.timaAcc.trans h.hidden.timaAcc
      overflow := g.hidden.overflow.trans h.hidden.overflow
      ly := g.hidden.ly.trans h.hidden.ly
      mode := g.hidden.mode.trans h.hidden.mode
      modeClock := g.hidden.modeClock.trans h.hidden.modeClock
      coincidence := g.hidden.coincidence.trans h.hidden.coincidence
      framebuffer := g.hidden.framebuffer.trans h.hidden.framebuffer }

theorem reg (s : State) (r : Reg8) (v : Byte) : Stored s (s.setReg r v) :=
  .of (by simp) (by simp) (by simp) (by simp) (by simp) (by simp)

theorem pair (s : State) (rr : Reg16) (w : Word) : Stored s (s.setPair rr w) :=
  .of (by simp) (by simp) (by simp) (by simp) (by simp) (by simp)

/-- A store of one byte. -/
theorem store (s : State) (a : Word) (v : Byte) : Stored s (writeByte s a v) where
  memory := fun h => writeByte_memoryInv h a v
  image := fun h k hk => by
    have hlt := a.isLt
    rcases busTarget_cases a with ⟨_, e⟩ | ⟨_, _, e⟩ | ⟨_, _, e⟩ | ⟨_, _, e⟩ | ⟨_, _, e⟩ | ⟨_, _, e⟩ | ⟨p, _, e⟩ | ⟨_, e⟩ <;>
      simp only [writeByte, e]
    · rw [State.storeKey_mem, memRead_memWrite h.canonical, if_neg (by omega)]
    · rw [State.storeKey_mem, memRead_memWrite h.canonical, if_neg (by omega)]
    · rw [State.storeKey_mem, memRead_memWrite h.canonical, if_neg (by omega)]
    · rw [State.storeKey_mem, memRead_memWrite h.canonical, if_neg (by unfold audioBase; omega)]
    · rw [State.storeKey_mem, memRead_memWrite h.canonical, if_neg (by omega)]
    · cases p
      case dma =>
        show memRead (oamCopy v { s with video := { s.video with dma := v } }).mem k = _
        rw [memRead_oamCopy (s := { s with video := { s.video with dma := v } }) h.canonical,
          if_neg (by unfold oamBase; omega)]
      all_goals rfl
  cfg := by simp
  romLoaded := by simp
  boot := by
    rcases hb : busTarget a with _ | _ | _ | p | _ <;> simp only [writeByte, hb] <;> try exact id
    cases p
    case dma =>
      simp only [writePort]
      rw [oamCopy_eq]
      exact id
    case bootOff =>
      intro h
      cases h
    all_goals exact id
  divAcc := by
    rcases hb : busTarget a with _ | _ | _ | p | _ <;> simp only [writeByte, hb] <;> try exact id
    cases p
    case dma =>
      simp only [writePort]
      rw [oamCopy_eq]
      exact id
    case div =>
      intro _
      show 0 < 256
      omega
    all_goals exact id
  hidden := writeByte_sameHidden s a v

theorem push (s : State) (w : Word) : Stored s (push16 w s) := by
  rw [push16_eq]
  exact ((store _ _ _).trans (store _ _ _)).trans (.of rfl rfl rfl rfl rfl rfl)

theorem cost {s t : State} (h : Stored s t) (q : Nat) : Stored s (t.cost q) := h.trans (.of rfl rfl rfl rfl rfl rfl)

theorem flags {s t : State} (h : Stored s t) (f : Flags) : Stored s (t.setFlags f) := h.trans (.of rfl rfl rfl rfl rfl rfl)

theorem hl {s t : State} (h : Stored s t) (w : Word) : Stored s (t.setHl w) := h.trans (.of rfl rfl rfl rfl rfl rfl)

theorem call (target : Word) (s : State) : Stored s (callTo target s) := (push s s.pc).trans (.of rfl rfl rfl rfl rfl rfl)

theorem word (s : State) (a w : Word) : Stored s (writeWord s a w) := (store s a (lo w)).trans (store _ _ _)

theorem rotReg (op : RotOp) (r : Reg8) (s : State) : Stored s (rotRegEffect op r s) := (reg s r _).flags _

theorem rotAtHl (op : RotOp) (s : State) : Stored s (rotAtHlEffect op s) := (store s s.hl _).flags _

theorem cbPage (op2 : Byte) (s : State) : Stored s (cbPageEffect op2 s) := by
  unfold cbPageEffect
  dsimp only
  split
  · exact rotReg _ _ s
  · exact rotAtHl _ s
  · exact .of rfl rfl rfl rfl rfl rfl
  · exact .of rfl rfl rfl rfl rfl rfl
  · exact reg s _ _
  · exact store s _ _
  · exact reg s _ _
  · exact store s _ _

end Stored

theorem next_inj {s t : State} (h : (Host.Outcome.next s : Result) = .next t) : s = t := by injection h

/-- Every instruction answers a next state. -/
theorem exec_next (i : Instr) (s : State) : ∃ t, exec i s = .next t := by cases i <;> exact ⟨_, rfl⟩

/-- What every instruction keeps. -/
theorem exec_stored {i : Instr} {s t : State} (h : exec i s = .next t) : Stored s t := by
  cases i
  case nop | ldABc | ldADe | ldANn | ldhAC | ldhAN | ldAHlInc | ldAHlDec | ldSpHl | ldHlSpE | popAf | addAR | addAAtHl
      | addAN | adcAR | adcAAtHl | adcAN | subR | subAtHl | subN | sbcAR | sbcAAtHl | sbcAN | andR | andAtHl | andN
      | xorR | xorAtHl | xorN | orR | orAtHl | orN | cpR | cpAtHl | cpN | daa | cpl | scf | ccf | addHlRr | addSpE
      | rlca | rrca | rla | rra | bitBR | bitBAtHl | jpNn | jrE | jpHl | ret | reti | halt | stop | di | illegal =>
    obtain rfl := next_inj h
    exact .of rfl rfl rfl rfl rfl rfl
  case jpCcNn | jrCcE | retCc | ei =>
    obtain rfl := next_inj h
    split <;> exact .of rfl rfl rfl rfl rfl rfl
  case ldRR | ldRN | ldRAtHl | resBR | setBR =>
    obtain rfl := next_inj h
    exact (Stored.reg s _ _).cost _
  case incR | decR =>
    obtain rfl := next_inj h
    exact ((Stored.reg s _ _).flags _).cost _
  case rlcR | rrcR | rlR | rrR | slaR | sraR | swapR | srlR =>
    obtain rfl := next_inj h
    exact (Stored.rotReg _ _ s).cost _
  case ldRrNn | incRr | decRr =>
    obtain rfl := next_inj h
    exact (Stored.pair s _ _).cost _
  case popRr =>
    obtain rfl := next_inj h
    exact .of (by simp) (by simp) (by simp) (by simp) (by simp) (by simp)
  case ldBcA | ldDeA | ldAtHlN | ldAtHlR | ldhNA | ldhCA | ldNnA | resBAtHl | setBAtHl =>
    obtain rfl := next_inj h
    exact (Stored.store s _ _).cost _
  case ldHlIncA | ldHlDecA =>
    obtain rfl := next_inj h
    exact ((Stored.store s _ _).hl _).cost _
  case incAtHl | decAtHl =>
    obtain rfl := next_inj h
    exact ((Stored.store s _ _).flags _).cost _
  case rlcAtHl | rrcAtHl | rlAtHl | rrAtHl | slaAtHl | sraAtHl | swapAtHl | srlAtHl =>
    obtain rfl := next_inj h
    exact (Stored.rotAtHl _ s).cost _
  case callNn | rstT =>
    obtain rfl := next_inj h
    exact (Stored.call _ s).cost _
  case pushRr | pushAf =>
    obtain rfl := next_inj h
    exact (Stored.push s _).cost _
  case ldNnSp =>
    obtain rfl := next_inj h
    exact (Stored.word s _ _).cost _
  case callCcNn =>
    obtain rfl := next_inj h
    split
    · exact (Stored.call _ s).cost _
    · exact .of rfl rfl rfl rfl rfl rfl
  case prefixCb =>
    obtain rfl := next_inj h
    exact (Stored.cbPage _ s).cost _

/-- The instructions whose effect is on the control state (R30, R31, R32, R33). -/
def changesControl : Instr → Bool
  | .ei | .di | .reti | .halt | .stop _ | .illegal _ => true
  | _ => false

/-- The other instructions leave the control state. -/
theorem exec_sameControl {i : Instr} {s t : State} (h : exec i s = .next t) (hi : changesControl i = false) : SameControl s t := by
  cases i
  case ei | di | reti | halt | stop | illegal => cases hi
  case jpCcNn | jrCcE | retCc =>
    obtain rfl := next_inj h
    split <;> constructor <;> rfl
  case callCcNn =>
    obtain rfl := next_inj h
    split
    · constructor <;> simp [callTo]
    · constructor <;> rfl
  case prefixCb =>
    obtain rfl := next_inj h
    unfold cbPageEffect
    dsimp only
    split <;> constructor <;> simp [rotRegEffect, rotAtHlEffect, bitEffect]
  all_goals
    obtain rfl := next_inj h
    constructor <;>
      simp [loadA, storeA, writeWord, aluEffect, rotRegEffect, rotAtHlEffect, rotAEffect, bitEffect, callTo, returnFromCall,
        dropWord]

/-! ### The phases of a step (R300, R301) -/

theorem afterInstr_quanta (i : Instr) (arm : Bool) (s : State) : (afterInstr i arm s).quanta = s.quanta := by
  unfold afterInstr armIme
  split
  · rfl
  · split <;> rfl

theorem afterInstr_status (i : Instr) (arm : Bool) (s : State) : (afterInstr i arm s).status = s.status := by
  unfold afterInstr armIme
  split
  · rfl
  · split <;> rfl

theorem afterInstr_stored (i : Instr) (arm : Bool) (s : State) : Stored s (afterInstr i arm s) := by
  unfold afterInstr armIme
  split
  · exact .of rfl rfl rfl rfl rfl rfl
  · split <;> exact .of rfl rfl rfl rfl rfl rfl

/-- The CPU step of a machine that is not RUNNING costs 0 and does nothing (R301). -/
theorem cpuStep_atRest {s : State} (h : s.status ≠ .running) : cpuStep s = .next (s.cost 0) := by
  unfold cpuStep
  rw [if_pos h]

/-- The CPU step of a RUNNING machine: no image; halted with nothing to wake it; or one instruction. -/
theorem cpuStep_cases {s : State} (hs : s.status = .running) :
    (s.romLoaded = false ∧ cpuStep s = .next (({ s with status := .stopped } : State).cost 0)) ∨
    (s.romLoaded = true ∧ s.halted = true ∧ wakes s = false ∧ cpuStep s = .next (s.cost 1)) ∨
    (s.romLoaded = true ∧ (s.halted = true → wakes s = true) ∧
      ∃ t, exec (fetchInstr s) (({ s with halted := false } : State).advance (fetchInstr s).length) = .next t ∧
        cpuStep s = .next (afterInstr (fetchInstr s) s.imePending t)) := by
  rcases Bool.eq_false_or_eq_true s.romLoaded with hr | hr
  swap
  · exact .inl ⟨hr, by unfold cpuStep; rw [if_neg (not_not.mpr hs), if_pos (by rw [hr]; decide)]⟩
  · cases hh : s.halted && !wakes s
    · obtain ⟨t, ht⟩ := exec_next (fetchInstr s) (({ s with halted := false } : State).advance (fetchInstr s).length)
      have hrun : runInstr { s with halted := false } =
          mapNext (afterInstr (fetchInstr s) s.imePending)
            (exec (fetchInstr s) (({ s with halted := false } : State).advance (fetchInstr s).length)) := rfl
      refine .inr (.inr ⟨hr, fun h => ?_, t, ht, ?_⟩)
      · rw [h] at hh
        simpa using hh
      · unfold cpuStep
        rw [if_neg (not_not.mpr hs), if_neg (by rw [hr]; decide), hh, if_neg (by decide), hrun, ht]
        rfl
    · have h := hh
      rw [Bool.and_eq_true, Bool.not_eq_true'] at h
      exact .inr (.inl ⟨hr, h.1, h.2, by unfold cpuStep; rw [if_neg (not_not.mpr hs), if_neg (by rw [hr]; decide), hh, if_pos rfl]⟩)

theorem cpuStep_next (s : State) : ∃ t, cpuStep s = .next t := by
  by_cases hs : s.status = .running
  · rcases cpuStep_cases hs with ⟨-, h⟩ | ⟨-, -, -, h⟩ | ⟨-, -, u, -, h⟩ <;> exact ⟨_, h⟩
  · exact ⟨_, cpuStep_atRest hs⟩

theorem cpuStep_stored {s t : State} (h : cpuStep s = .next t) : Stored s t := by
  by_cases hs : s.status = .running
  swap
  · rw [cpuStep_atRest hs] at h
    obtain rfl := next_inj h
    exact .of rfl rfl rfl rfl rfl rfl
  rcases cpuStep_cases hs with ⟨-, h'⟩ | ⟨-, -, -, h'⟩ | ⟨-, -, u, hu, h'⟩ <;> rw [h'] at h <;> obtain rfl := next_inj h
  · exact .of rfl rfl rfl rfl rfl rfl
  · exact .of rfl rfl rfl rfl rfl rfl
  · have e : Stored s (({ s with halted := false } : State).advance (fetchInstr s).length) := .of rfl rfl rfl rfl rfl rfl
    exact (e.trans (exec_stored hu)).trans (afterInstr_stored _ _ _)

/-- The dispatch phase: nothing, or the lowest pending class is taken. -/
theorem dispatchPhase_cases (s : State) :
    dispatchPhase s = s ∨
    ∃ k, s.status = .running ∧ s.ime = true ∧ getPending s = some k ∧ dispatchPhase s = dispatchInterrupt k s := by
  unfold dispatchPhase
  split
  · next h =>
    cases hk : getPending s with
    | none => exact .inl rfl
    | some k => exact .inr ⟨k, h.1, h.2, rfl, rfl⟩
  · exact .inl rfl

theorem dispatchPhase_stored (s : State) : Stored s (dispatchPhase s) := by
  rcases dispatchPhase_cases s with h | ⟨k, -, -, -, h⟩ <;> rw [h]
  · exact .of rfl rfl rfl rfl rfl rfl
  · unfold dispatchInterrupt
    dsimp only
    refine Stored.trans (b := { clearInterrupt k s.ime (disableInterrupts s) with halted := false }) (.of ?_ ?_ ?_ ?_ ?_ ?_)
      ((Stored.push _ _).trans (.of rfl rfl rfl rfl rfl rfl)) <;> simp [disableInterrupts]

/-- A step: at rest; or the CPU step, the ticks, and the dispatch phase. -/
theorem step_cases {s t : State} (h : step s = .next t) :
    (s.status ≠ .running ∧ t = s.cost 0) ∨
    (s.status = .running ∧ ∃ u, cpuStep s = .next u ∧ t = dispatchPhase (tickPhase u)) := by
  unfold step stepOrRest at h
  split at h
  · next hr =>
    obtain ⟨u, hu⟩ := cpuStep_next s
    unfold machineStep at h
    rw [hu] at h
    exact .inr ⟨hr, u, hu, (next_inj h).symm⟩
  · next hr =>
    rw [cpuStep_atRest hr] at h
    exact .inl ⟨hr, (next_inj h).symm⟩

/-- A running machine's step, from its CPU step. -/
theorem step_running {s u : State} (hs : s.status = .running) (h : cpuStep s = .next u) :
    step s = .next (dispatchPhase (tickPhase u)) := by
  unfold step stepOrRest machineStep
  rw [if_pos hs, h]
  rfl

end Sys2Proof.Machine
end

