-- ==== Sys2Proof/Laws/Observe.lean ====
section
/-! SUPPORT. What is observable of a run (R448), step by step and split at any number of steps. -/

namespace Sys2Proof.Machine

theorem stepTicks_of {s t : State} (h : cpuStep s = .next t) : stepTicks s = 4 * t.quanta := by
  unfold stepTicks
  rw [h]

theorem stepFrames_of {s t : State} (hs : s.status = .running) (h : cpuStep s = .next t) :
    stepFrames s = framesOfTick (4 * t.quanta) (timerTick (4 * t.quanta) t) := by
  unfold stepFrames
  rw [if_pos hs, h]

theorem stepTicks_atRest {s : State} (h : s.status ≠ .running) : stepTicks s = 0 := stepTicks_of (cpuStep_atRest h)

theorem stepFrames_atRest {s : State} (h : s.status ≠ .running) : stepFrames s = [] := if_neg h

theorem stepsFrom_succ {s t : State} (h : step s = .next t) (n : Nat) : stepsFrom (n + 1) s = stepsFrom n t := by
  rw [stepsFrom, h]

theorem statesFrom_succ {s t : State} (h : step s = .next t) (n : Nat) : statesFrom (n + 1) s = s :: statesFrom n t := by
  rw [statesFrom, h]

theorem runTicks_succ {s t : State} (h : step s = .next t) (n : Nat) : runTicks (n + 1) s = stepTicks s + runTicks n t := by
  unfold runTicks
  rw [statesFrom_succ h, List.map_cons, List.sum_cons]

theorem runFrames_succ {s t : State} (h : step s = .next t) (n : Nat) : runFrames (n + 1) s = stepFrames s ++ runFrames n t := by
  unfold runFrames
  rw [statesFrom_succ h, List.flatMap_cons]

/-- A run of `n + m` steps is the run of the first `n` and the run of `m` from where they lead. -/
theorem statesFrom_add {n : Nat} {s t : State} (h : stepsFrom n s = some t) (m : Nat) :
    statesFrom (n + m) s = statesFrom n s ++ statesFrom m t := by
  induction n generalizing s with
  | zero =>
    obtain rfl : s = t := by simpa [stepsFrom] using h
    simp [statesFrom]
  | succ n ih =>
    obtain ⟨u, hu⟩ : ∃ u, step s = .next u := by
      cases hs : step s with
      | next u => exact ⟨u, rfl⟩
      | fault r => simp [stepsFrom, hs] at h
      | refused r => simp [stepsFrom, hs] at h
    rw [stepsFrom_succ hu] at h
    rw [show n + 1 + m = (n + m) + 1 by omega, statesFrom_succ hu, statesFrom_succ hu, ih h, List.cons_append]

theorem runTicks_add {n : Nat} {s t : State} (h : stepsFrom n s = some t) (m : Nat) :
    runTicks (n + m) s = runTicks n s + runTicks m t := by
  unfold runTicks
  rw [statesFrom_add h, List.map_append, List.sum_append]

theorem runFrames_add {n : Nat} {s t : State} (h : stepsFrom n s = some t) (m : Nat) :
    runFrames (n + m) s = runFrames n s ++ runFrames m t := by
  unfold runFrames
  rw [statesFrom_add h, List.flatMap_append]

end Sys2Proof.Machine
end

