-- ==== Sys2Proof/Laws/PerInstr.lean ====
section
/-! SUPPORT. A family of statements about every instruction as syntax: its encoding has exactly its length in bytes (R100, R103). -/

namespace Sys2Proof.Laws.EncodedLength

/-- The encoding of the instruction has as many bytes as the length the decoder takes off the byte list. -/
def Statement (i : Instr) : Prop := (encode i).length = i.length

theorem nop : Statement (.nop) := rfl
theorem ldRrNn (rr : Reg16) (nn : Word) : Statement (.ldRrNn rr nn) := rfl
theorem ldBcA : Statement (.ldBcA) := rfl
theorem incRr (rr : Reg16) : Statement (.incRr rr) := rfl
theorem incR (r : Reg8) : Statement (.incR r) := rfl
theorem decR (r : Reg8) : Statement (.decR r) := rfl
theorem ldRN (r : Reg8) (n : Byte) : Statement (.ldRN r n) := rfl
theorem rlca : Statement (.rlca) := rfl
theorem ldNnSp (nn : Word) : Statement (.ldNnSp nn) := rfl
theorem addHlRr (rr : Reg16) : Statement (.addHlRr rr) := rfl
theorem ldABc : Statement (.ldABc) := rfl
theorem decRr (rr : Reg16) : Statement (.decRr rr) := rfl
theorem rrca : Statement (.rrca) := rfl
theorem stop (n : Byte) : Statement (.stop n) := rfl
theorem ldDeA : Statement (.ldDeA) := rfl
theorem rla : Statement (.rla) := rfl
theorem jrE (e : Byte) : Statement (.jrE e) := rfl
theorem ldADe : Statement (.ldADe) := rfl
theorem rra : Statement (.rra) := rfl
theorem jrCcE (cc : Cond) (e : Byte) : Statement (.jrCcE cc e) := rfl
theorem ldHlIncA : Statement (.ldHlIncA) := rfl
theorem daa : Statement (.daa) := rfl
theorem ldAHlInc : Statement (.ldAHlInc) := rfl
theorem cpl : Statement (.cpl) := rfl
theorem ldHlDecA : Statement (.ldHlDecA) := rfl
theorem incAtHl : Statement (.incAtHl) := rfl
theorem decAtHl : Statement (.decAtHl) := rfl
theorem ldAtHlN (n : Byte) : Statement (.ldAtHlN n) := rfl
theorem scf : Statement (.scf) := rfl
theorem ldAHlDec : Statement (.ldAHlDec) := rfl
theorem ccf : Statement (.ccf) := rfl
theorem ldRR (r r' : Reg8) : Statement (.ldRR r r') := rfl
theorem ldRAtHl (r : Reg8) : Statement (.ldRAtHl r) := rfl
theorem ldAtHlR (r : Reg8) : Statement (.ldAtHlR r) := rfl
theorem halt : Statement (.halt) := rfl
theorem addAR (r : Reg8) : Statement (.addAR r) := rfl
theorem addAAtHl : Statement (.addAAtHl) := rfl
theorem adcAR (r : Reg8) : Statement (.adcAR r) := rfl
theorem adcAAtHl : Statement (.adcAAtHl) := rfl
theorem subR (r : Reg8) : Statement (.subR r) := rfl
theorem subAtHl : Statement (.subAtHl) := rfl
theorem sbcAR (r : Reg8) : Statement (.sbcAR r) := rfl
theorem sbcAAtHl : Statement (.sbcAAtHl) := rfl
theorem andR (r : Reg8) : Statement (.andR r) := rfl
theorem andAtHl : Statement (.andAtHl) := rfl
theorem xorR (r : Reg8) : Statement (.xorR r) := rfl
theorem xorAtHl : Statement (.xorAtHl) := rfl
theorem orR (r : Reg8) : Statement (.orR r) := rfl
theorem orAtHl : Statement (.orAtHl) := rfl
theorem cpR (r : Reg8) : Statement (.cpR r) := rfl
theorem cpAtHl : Statement (.cpAtHl) := rfl
theorem retCc (cc : Cond) : Statement (.retCc cc) := rfl
theorem popRr (qq : StkReg) : Statement (.popRr qq) := rfl
theorem jpCcNn (cc : Cond) (nn : Word) : Statement (.jpCcNn cc nn) := rfl
theorem jpNn (nn : Word) : Statement (.jpNn nn) := rfl
theorem callCcNn (cc : Cond) (nn : Word) : Statement (.callCcNn cc nn) := rfl
theorem pushRr (qq : StkReg) : Statement (.pushRr qq) := rfl
theorem addAN (n : Byte) : Statement (.addAN n) := rfl
theorem rstT (t : Fin 8) : Statement (.rstT t) := rfl
theorem ret : Statement (.ret) := rfl
theorem prefixCb (op2 : Byte) : Statement (.prefixCb op2) := rfl
theorem callNn (nn : Word) : Statement (.callNn nn) := rfl
theorem adcAN (n : Byte) : Statement (.adcAN n) := rfl
theorem illegal (op : Unassigned) : Statement (.illegal op) := rfl
theorem subN (n : Byte) : Statement (.subN n) := rfl
theorem reti : Statement (.reti) := rfl
theorem sbcAN (n : Byte) : Statement (.sbcAN n) := rfl
theorem ldhNA (n : Byte) : Statement (.ldhNA n) := rfl
theorem ldhCA : Statement (.ldhCA) := rfl
theorem andN (n : Byte) : Statement (.andN n) := rfl
theorem addSpE (e : Byte) : Statement (.addSpE e) := rfl
theorem jpHl : Statement (.jpHl) := rfl
theorem ldNnA (nn : Word) : Statement (.ldNnA nn) := rfl
theorem xorN (n : Byte) : Statement (.xorN n) := rfl
theorem ldhAN (n : Byte) : Statement (.ldhAN n) := rfl
theorem popAf : Statement (.popAf) := rfl
theorem ldhAC : Statement (.ldhAC) := rfl
theorem di : Statement (.di) := rfl
theorem pushAf : Statement (.pushAf) := rfl
theorem orN (n : Byte) : Statement (.orN n) := rfl
theorem ldHlSpE (e : Byte) : Statement (.ldHlSpE e) := rfl
theorem ldSpHl : Statement (.ldSpHl) := rfl
theorem ldANn (nn : Word) : Statement (.ldANn nn) := rfl
theorem ei : Statement (.ei) := rfl
theorem cpN (n : Byte) : Statement (.cpN n) := rfl
theorem rlcR (r : Reg8) : Statement (.rlcR r) := rfl
theorem rlcAtHl : Statement (.rlcAtHl) := rfl
theorem rrcR (r : Reg8) : Statement (.rrcR r) := rfl
theorem rrcAtHl : Statement (.rrcAtHl) := rfl
theorem rlR (r : Reg8) : Statement (.rlR r) := rfl
theorem rlAtHl : Statement (.rlAtHl) := rfl
theorem rrR (r : Reg8) : Statement (.rrR r) := rfl
theorem rrAtHl : Statement (.rrAtHl) := rfl
theorem slaR (r : Reg8) : Statement (.slaR r) := rfl
theorem slaAtHl : Statement (.slaAtHl) := rfl
theorem sraR (r : Reg8) : Statement (.sraR r) := rfl
theorem sraAtHl : Statement (.sraAtHl) := rfl
theorem swapR (r : Reg8) : Statement (.swapR r) := rfl
theorem swapAtHl : Statement (.swapAtHl) := rfl
theorem srlR (r : Reg8) : Statement (.srlR r) := rfl
theorem srlAtHl : Statement (.srlAtHl) := rfl
theorem bitBR (b : Fin 8) (r : Reg8) : Statement (.bitBR b r) := rfl
theorem bitBAtHl (b : Fin 8) : Statement (.bitBAtHl b) := rfl
theorem resBR (b : Fin 8) (r : Reg8) : Statement (.resBR b r) := rfl
theorem resBAtHl (b : Fin 8) : Statement (.resBAtHl b) := rfl
theorem setBR (b : Fin 8) (r : Reg8) : Statement (.setBR b r) := rfl
theorem setBAtHl (b : Fin 8) : Statement (.setBAtHl b) := rfl

end Sys2Proof.Laws.EncodedLength
end

