-- ==== Sys2Proof/Laws/Render.lean ====
section
/-! SUPPORT. What the bytes and pixels that rendering reads are, in the vocabulary of Sys2Proof/Safety.lean. -/

namespace Sys2Proof.Machine

/-- A bus read of video memory or sprite memory is the byte stored there (R69, R73). -/
theorem readByte_stored (s : State) {k : Nat} (h : (0x8000 ≤ k ∧ k < 0xE000) ∨ (0xFE00 ≤ k ∧ k < 0xFEA0)) :
    readByte s (BitVec.ofNat 16 k) = memRead s.mem k := by
  have hk : (BitVec.ofNat 16 k).toNat = k := by rw [BitVec.toNat_ofNat]; omega
  have ht : busTarget (BitVec.ofNat 16 k) = .ram k := by
    unfold busTarget
    rw [hk]
    rcases h with h | h
    · simp [show ¬ k < 0x8000 by omega, h.2]
    · simp [show ¬ k < 0x8000 by omega, show ¬ k < 0xE000 by omega, show ¬ k < 0xFE00 by omega, h.2]
  unfold readByte
  rw [ht]

theorem vramByte_eq (s : State) {off : Nat} (h : off < 0x2000) : vramByte s off = readByte s (BitVec.ofNat 16 (0x8000 + off)) := by
  rw [readByte_stored s (.inl (by omega))]
  rfl

theorem oamByte_eq (s : State) {off : Nat} (h : off < 160) : oamByte s off = readByte s (BitVec.ofNat 16 (0xFE00 + off)) := by
  rw [readByte_stored s (.inr (by omega))]
  rfl

theorem ofBool_append_bits : ∀ a b : Bool,
    (BitVec.ofBool a ++ BitVec.ofBool b).getLsbD 0 = b ∧ (BitVec.ofBool a ++ BitVec.ofBool b).getLsbD 1 = a := by decide

theorem tilePixel_is (s : State) {base r : Nat} (c : Nat) (h : base + 2 * r + 1 < 0x2000) :
    TilePixelIs s base r c (tilePixel s base r c) := by
  intro k hk
  unfold tilePixel
  rw [Nat.mod_eq_of_lt h, Nat.mod_eq_of_lt (by omega : base + 2 * r < 0x2000), vramByte_eq s h,
    vramByte_eq s (by omega : base + 2 * r < 0x2000)]
  obtain rfl | rfl : k = 0 ∨ k = 1 := by omega
  · exact (ofBool_append_bits _ _).1
  · exact (ofBool_append_bits _ _).2

theorem shadeOf_is (pal : Byte) (ci : Shade) : ShadeIs pal ci (shadeOf pal ci) := by
  intro k hk
  simp [shadeOf, hk]

end Sys2Proof.Machine
end

