-- ==== Sys2Proof/Tests/Slice0.lean ====
section
/-! SUPPORT. The model's own tests. Expected values come from 95_test_vectors.md (`V`, `T`, `P`, `G`, `B` are its vectors) or are
worked out by hand from the rule named; words are written out from the encodings of 30_encoding.md. After them, for every
statement of Sys2Proof/Certificates/Slice0/Obligations.lean that has hypotheses, a concrete state and operands that meet them. -/

set_option maxRecDepth 8000

namespace Sys2Proof.Tests

open Sys2Proof.Machine

/-- The start of the vectors: the reset state with PC in work RAM. -/
def cpu : State := { State.reset with pc := 0xC000 }

/-- Four flags from 0 and 1 digits, in the order Z N H C. -/
def fl (z n h c : Nat) : Flags := { z := z == 1, n := n == 1, h := h == 1, c := c == 1 }

/-- `s` with bytes at `addr`. -/
def put (addr : Word) (bytes : List Byte) (s : State) : State := placeBytes addr bytes s

/-- One MachineStep of `s` with `code` at PC, seen through `view`. -/
def run {α : Type} (s : State) (code : List Byte) (view : State → α) : Option α :=
  match step (put s.pc code s) with
  | .next t => some (view t)
  | .fault _ => none
  | .refused _ => none

/-- Two MachineSteps. -/
def run2 {α : Type} (s : State) (code : List Byte) (view : State → α) : Option α :=
  match step (put s.pc code s) with
  | .next t => run t [] view
  | .fault _ => none
  | .refused _ => none

/-- What a decoded word is, without the bytes after it. -/
def word (bytes : List Byte) : Option Instr :=
  match decode bytes with
  | .ok (i, []) => some i
  | .ok _ => none
  | .error _ => none

/-! ## Well-formedness -/

theorem test_wellFormed_refuses_the_bare_prefix : ∀ op2 : Byte, (Instr.prefixCb op2).wellFormed = false := by decide

theorem test_wellFormed_accepts : (Instr.ldRR .b .c).wellFormed = true ∧ (Instr.illegal .xFD).wellFormed = true := by decide

/-! ## Decoding -/

theorem test_decode_load8 :
    word [0b01000001] = some (.ldRR .b .c) ∧ word [0b00111110, 0x42] = some (.ldRN .a 0x42) ∧
    word [0b01010110] = some (.ldRAtHl .d) ∧ word [0b01110011] = some (.ldAtHlR .e) ∧
    word [0b00110110, 0xAB] = some (.ldAtHlN 0xAB) ∧ word [0b00001010] = some .ldABc ∧ word [0b00011010] = some .ldADe ∧
    word [0b00000010] = some .ldBcA ∧ word [0b00010010] = some .ldDeA ∧
    word [0b11111010, 0x23, 0xE1] = some (.ldANn 0xE123) ∧ word [0b11101010, 0x34, 0x12] = some (.ldNnA 0x1234) ∧
    word [0b11110010] = some .ldhAC ∧ word [0b11100010] = some .ldhCA ∧ word [0b11110000, 0x0F] = some (.ldhAN 0x0F) ∧
    word [0b11100000, 0x50] = some (.ldhNA 0x50) ∧ word [0b00101010] = some .ldAHlInc ∧
    word [0b00111010] = some .ldAHlDec ∧ word [0b00100010] = some .ldHlIncA ∧ word [0b00110010] = some .ldHlDecA := by decide

theorem test_decode_load16 :
    word [0b00110001, 0xFE, 0xFF] = some (.ldRrNn .sp 0xFFFE) ∧ word [0b00001000, 0x00, 0xC1] = some (.ldNnSp 0xC100) ∧
    word [0b11111001] = some .ldSpHl ∧ word [0b11111000, 0x80] = some (.ldHlSpE 0x80) ∧
    word [0b11000101] = some (.pushRr .bc) ∧ word [0b11110101] = some .pushAf ∧ word [0b11010001] = some (.popRr .de) ∧
    word [0b11110001] = some .popAf := by decide

theorem test_decode_alu_register :
    word [0b10000000] = some (.addAR .b) ∧ word [0b10001001] = some (.adcAR .c) ∧ word [0b10010010] = some (.subR .d) ∧
    word [0b10011011] = some (.sbcAR .e) ∧ word [0b10100100] = some (.andR .h) ∧ word [0b10101101] = some (.xorR .l) ∧
    word [0b10110111] = some (.orR .a) ∧ word [0b10111000] = some (.cpR .b) := by decide

theorem test_decode_alu_memory :
    word [0b10000110] = some .addAAtHl ∧ word [0b10001110] = some .adcAAtHl ∧ word [0b10010110] = some .subAtHl ∧
    word [0b10011110] = some .sbcAAtHl ∧ word [0b10100110] = some .andAtHl ∧ word [0b10101110] = some .xorAtHl ∧
    word [0b10110110] = some .orAtHl ∧ word [0b10111110] = some .cpAtHl := by decide

theorem test_decode_alu_immediate :
    word [0b11000110, 1] = some (.addAN 1) ∧ word [0b11001110, 2] = some (.adcAN 2) ∧
    word [0b11010110, 3] = some (.subN 3) ∧ word [0b11011110, 4] = some (.sbcAN 4) ∧
    word [0b11100110, 5] = some (.andN 5) ∧ word [0b11101110, 6] = some (.xorN 6) ∧ word [0b11110110, 7] = some (.orN 7) ∧
    word [0b11111110, 8] = some (.cpN 8) := by decide

theorem test_decode_alu_one_operand :
    word [0b00111100] = some (.incR .a) ∧ word [0b00000101] = some (.decR .b) ∧ word [0b00110100] = some .incAtHl ∧
    word [0b00110101] = some .decAtHl ∧ word [0b00100111] = some .daa ∧ word [0b00101111] = some .cpl ∧
    word [0b00110111] = some .scf ∧ word [0b00111111] = some .ccf := by decide

theorem test_decode_alu16 :
    word [0b00101001] = some (.addHlRr .hl) ∧ word [0b00010011] = some (.incRr .de) ∧
    word [0b00111011] = some (.decRr .sp) ∧ word [0b11101000, 0xFF] = some (.addSpE 0xFF) := by decide

theorem test_decode_accumulator_rotates :
    word [0b00000111] = some .rlca ∧ word [0b00001111] = some .rrca ∧ word [0b00010111] = some .rla ∧
    word [0b00011111] = some .rra := by decide

theorem test_decode_rotate_register :
    word [0xCB, 0b00000000] = some (.rlcR .b) ∧ word [0xCB, 0b00001001] = some (.rrcR .c) ∧
    word [0xCB, 0b00010010] = some (.rlR .d) ∧ word [0xCB, 0b00011011] = some (.rrR .e) ∧
    word [0xCB, 0b00100100] = some (.slaR .h) ∧ word [0xCB, 0b00101101] = some (.sraR .l) ∧
    word [0xCB, 0b00110111] = some (.swapR .a) ∧ word [0xCB, 0b00111000] = some (.srlR .b) := by decide

theorem test_decode_rotate_memory :
    word [0xCB, 0b00000110] = some .rlcAtHl ∧ word [0xCB, 0b00001110] = some .rrcAtHl ∧
    word [0xCB, 0b00010110] = some .rlAtHl ∧ word [0xCB, 0b00011110] = some .rrAtHl ∧
    word [0xCB, 0b00100110] = some .slaAtHl ∧ word [0xCB, 0b00101110] = some .sraAtHl ∧
    word [0xCB, 0b00110110] = some .swapAtHl ∧ word [0xCB, 0b00111110] = some .srlAtHl := by decide

theorem test_decode_bits :
    word [0xCB, 0b01111100] = some (.bitBR 7 .h) ∧ word [0xCB, 0b01000110] = some (.bitBAtHl 0) ∧
    word [0xCB, 0b10000111] = some (.resBR 0 .a) ∧ word [0xCB, 0b10011110] = some (.resBAtHl 3) ∧
    word [0xCB, 0b11101001] = some (.setBR 5 .c) ∧ word [0xCB, 0b11111110] = some (.setBAtHl 7) := by decide

theorem test_decode_control :
    word [0b11000011, 0x50, 0x01] = some (.jpNn 0x0150) ∧ word [0b11001010, 0x00, 0x80] = some (.jpCcNn .z 0x8000) ∧
    word [0b00011000, 0xFE] = some (.jrE 0xFE) ∧ word [0b00111000, 0x80] = some (.jrCcE .c 0x80) ∧
    word [0b11101001] = some .jpHl ∧ word [0b11001101, 0x00, 0x02] = some (.callNn 0x0200) ∧
    word [0b11010100, 0x00, 0x02] = some (.callCcNn .nc 0x0200) ∧ word [0b11001001] = some .ret ∧
    word [0b11000000] = some (.retCc .nz) ∧ word [0b11011001] = some .reti ∧ word [0b11101111] = some (.rstT 5) := by decide

theorem test_decode_system :
    word [0b00000000] = some .nop ∧ word [0b01110110] = some .halt ∧ word [0b00010000, 0x55] = some (.stop 0x55) ∧
    word [0b11110011] = some .di ∧ word [0b11111011] = some .ei := by decide

theorem test_decode_unassigned :
    word [0xD3] = some (.illegal .xD3) ∧ word [0xDB] = some (.illegal .xDB) ∧ word [0xDD] = some (.illegal .xDD) ∧
    word [0xE3] = some (.illegal .xE3) ∧ word [0xE4] = some (.illegal .xE4) ∧ word [0xEB] = some (.illegal .xEB) ∧
    word [0xEC] = some (.illegal .xEC) ∧ word [0xED] = some (.illegal .xED) ∧ word [0xF4] = some (.illegal .xF4) ∧
    word [0xFC] = some (.illegal .xFC) ∧ word [0xFD] = some (.illegal .xFD) := by decide

theorem test_decode_rejects_short_lists :
    decode [] = .error .noBytes ∧ decode [0xCB] = .error .truncated ∧ decode [0x3E] = .error .truncated ∧
    decode [0xC3, 0x50] = .error .truncated ∧ decode [0x10] = .error .truncated := ⟨rfl, rfl, rfl, rfl, rfl⟩

/-- Bytes after the instruction stay (V172: the byte after an unassigned opcode is not part of it). -/
theorem test_decode_leaves_the_rest : decode [0xFD, 0x00] = .ok (.illegal .xFD, [0x00]) := rfl

/-- The host's numbering: the first byte is bits 7 to 0. -/
theorem test_decodeTableWord : decodeTableWord 24 0xC10008 = some (.ldNnSp 0xC100) ∧ decodeTableWord 8 0x06 = some (.ldRN .b 0) := by
  decide

/-! ## One step each: 8-bit loads -/

/-- V1 -/
theorem test_ldRR : run { cpu with regs := { cpu.regs with c := 0x5A } } [0x41] (fun t => (t.regs.b, t.regs.c, t.pc, t.quanta)) = some (0x5A, 0x5A, 0xC001, 1) := by decide

/-- R131 -/
theorem test_ldRN : run cpu [0x3E, 0x42] (fun t => (t.regs.a, t.pc, t.quanta)) = some (0x42, 0xC002, 2) := by decide

/-- V2 -/
theorem test_ldRAtHl : run (put 0xC100 [0x77] { cpu with regs := { cpu.regs with h := 0xC1, l := 0x00 } }) [0x56] (fun t => (t.regs.d, t.pc, t.quanta)) = some (0x77, 0xC001, 2) := by decide

/-- V17 -/
theorem test_ldRAtHl_destination_is_half_of_the_address : run (put 0xC100 [0xD0] { cpu with regs := { cpu.regs with h := 0xC1, l := 0x00 } }) [0x66] (fun t => (t.regs.h, t.regs.l)) = some (0xD0, 0x00) := by decide

/-- V3: the echo shows the byte -/
theorem test_ldAtHlR : run { cpu with regs := { cpu.regs with h := 0xC1, l := 0x00, e := 0x99 } } [0x73] (fun t => (readByte t 0xC100, readByte t 0xE100, t.pc, t.quanta)) = some (0x99, 0x99, 0xC001, 2) := by decide

/-- V4 -/
theorem test_ldAtHlN : run { cpu with regs := { cpu.regs with h := 0xFF, l := 0x80 } } [0x36, 0xAB] (fun t => (readByte t 0xFF80, t.pc, t.quanta)) = some (0xAB, 0xC002, 3) := by decide

/-- V5 -/
theorem test_ldAtHlN_to_rom_is_dropped : run { cpu with regs := { cpu.regs with h := 0x12, l := 0x34 } } [0x36, 0xAB] (fun t => (readByte t 0x1234, t.quanta)) = some (0x00, 3) := by decide

/-- V6: unmapped -/
theorem test_ldABc : run { cpu with regs := { cpu.regs with b := 0xFE, c := 0xA0 } } [0x0A] (fun t => (t.regs.a, t.quanta)) = some (0xFF, 2) := by decide

/-- R136 -/
theorem test_ldADe : run (put 0xC100 [0x77] { cpu with regs := { cpu.regs with d := 0xC1, e := 0x00 } }) [0x1A] (fun t => (t.regs.a, t.quanta)) = some (0x77, 2) := by decide

/-- R137 -/
theorem test_ldBcA : run { cpu with regs := { cpu.regs with b := 0xC1, c := 0x00, a := 0x3C } } [0x02] (fun t => (readByte t 0xC100, t.quanta)) = some (0x3C, 2) := by decide

/-- V7 -/
theorem test_ldDeA : run { cpu with regs := { cpu.regs with d := 0x80, e := 0x00, a := 0x3C } } [0x12] (fun t => (readByte t 0x8000, t.quanta)) = some (0x3C, 2) := by decide

/-- V8: through the echo -/
theorem test_ldANn : run (put 0xC123 [0x42] cpu) [0xFA, 0x23, 0xE1] (fun t => (t.regs.a, t.pc, t.quanta)) = some (0x42, 0xC003, 4) := by decide

/-- V9: 0xFFFF is IE -/
theorem test_ldNnA : run { cpu with regs := { cpu.regs with a := 0x1F } } [0xEA, 0xFF, 0xFF] (fun t => (t.ie, t.pc, t.quanta)) = some (0x1F, 0xC003, 4) := by decide

/-- R141: IF returns all 8 bits -/
theorem test_ldhAC : run { cpu with regs := { cpu.regs with c := 0x0F }, ifl := 0xE5 } [0xF2] (fun t => (t.regs.a, t.pc, t.quanta)) = some (0xE5, 0xC001, 2) := by decide

/-- V10 -/
theorem test_ldhCA : run { cpu with regs := { cpu.regs with c := 0x80, a := 0x55 } } [0xE2] (fun t => (readByte t 0xFF80, t.quanta)) = some (0x55, 2) := by decide

/-- V11 -/
theorem test_ldhAN : run { cpu with ifl := 0xE5 } [0xF0, 0x0F] (fun t => (t.regs.a, t.pc, t.quanta)) = some (0xE5, 0xC002, 3) := by decide

/-- V12: 0xFF50 is write-only -/
theorem test_ldhNA : run { cpu with regs := { cpu.regs with a := 0x01 } } [0xE0, 0x50] (fun t => (readByte t 0xFF50, t.pc, t.quanta)) = some (0xFF, 0xC002, 3) := by decide

/-- V15 -/
theorem test_ldAHlInc : run (put 0xC0FF [0x11] { cpu with regs := { cpu.regs with h := 0xC0, l := 0xFF } }) [0x2A] (fun t => (t.regs.a, t.hl, t.quanta)) = some (0x11, 0xC100, 2) := by decide

/-- V14: HL wraps -/
theorem test_ldAHlDec : run (put 0x0000 [0x31] { cpu with regs := { cpu.regs with h := 0x00, l := 0x00 } }) [0x3A] (fun t => (t.regs.a, t.hl, t.quanta)) = some (0x31, 0xFFFF, 2) := by decide

/-- V13: HL wraps, 0xFFFF is IE -/
theorem test_ldHlIncA : run { cpu with regs := { cpu.regs with h := 0xFF, l := 0xFF, a := 0x04 } } [0x22] (fun t => (t.ie, t.hl, t.quanta)) = some (0x04, 0x0000, 2) := by decide

/-- V16 -/
theorem test_ldHlDecA : run { cpu with regs := { cpu.regs with h := 0xC1, l := 0x00, a := 0x22 } } [0x32] (fun t => (readByte t 0xC100, t.hl, t.quanta)) = some (0x22, 0xC0FF, 2) := by decide

/-! ## 16-bit loads and the stack -/

/-- V20 -/
theorem test_ldRrNn : run cpu [0x31, 0xFE, 0xFF] (fun t => (t.sp, t.pc, t.quanta)) = some (0xFFFE, 0xC003, 3) := by decide

/-- V21 -/
theorem test_ldNnSp : run { cpu with sp := 0xFFF8 } [0x08, 0x00, 0xC1] (fun t => (readByte t 0xC100, readByte t 0xC101, t.quanta)) = some (0xF8, 0xFF, 5) := by decide

/-- V22 -/
theorem test_ldSpHl : run { cpu with regs := { cpu.regs with h := 0xD0, l := 0x00 } } [0xF9] (fun t => (t.sp, t.quanta)) = some (0xD000, 2) := by decide

/-- V23 -/
theorem test_ldHlSpE : run { cpu with flags := fl 1 1 1 1, sp := 0xFFF8 } [0xF8, 0x08] (fun t => (t.hl, t.flags, t.quanta)) = some (0x0000, fl 0 0 1 1, 3) := by decide

/-- V25 -/
theorem test_ldHlSpE_negative : run cpu [0xF8, 0xFF] (fun t => (t.hl, t.flags, t.sp)) = some (0xFFFF, fl 0 0 0 0, 0x0000) := by decide

/-- V26 -/
theorem test_pushRr : run { cpu with regs := { cpu.regs with b := 0x12, c := 0x34 }, sp := 0xD000 } [0xC5] (fun t => (t.sp, readByte t 0xCFFF, readByte t 0xCFFE, t.quanta)) = some (0xCFFE, 0x12, 0x34, 4) := by decide

/-- V30: the high byte goes to IE -/
theorem test_pushRr_at_sp_zero : run { cpu with regs := { cpu.regs with h := 0xAB, l := 0xCD } } [0xE5] (fun t => (t.sp, t.ie, readByte t 0xFFFE)) = some (0xFFFE, 0xAB, 0xCD) := by decide

/-- V27 -/
theorem test_pushAf : run { cpu with regs := { cpu.regs with a := 0x9A }, flags := fl 1 0 1 1, sp := 0xD000 } [0xF5] (fun t => (readByte t 0xCFFF, readByte t 0xCFFE, t.quanta)) = some (0x9A, 0xB0, 4) := by decide

/-- V29: across 0xFFFF -/
theorem test_popRr : run (put 0x0000 [0x12] { cpu with sp := 0xFFFF, ie := 0x34 }) [0xD1] (fun t => (t.de, t.sp, t.quanta)) = some (0x1234, 0x0001, 3) := by decide

/-- V28 -/
theorem test_popAf : run (put 0xCFFE [0xFF, 0x12] { cpu with sp := 0xCFFE }) [0xF1] (fun t => (t.regs.a, t.flags, t.af, t.sp, t.quanta)) = some (0x12, fl 1 1 1 1, 0x12F0, 0xD000, 3) := by decide

/-! ## 8-bit arithmetic and logic -/

/-- V40 -/
theorem test_addAR : run { cpu with regs := { cpu.regs with a := 0x3A, b := 0xC6 } } [0x80] (fun t => (t.regs.a, t.flags, t.quanta)) = some (0x00, fl 1 0 1 1, 1) := by decide

/-- V41 -/
theorem test_addAR_source_is_A : run { cpu with regs := { cpu.regs with a := 0x88 } } [0x87] (fun t => (t.regs.a, t.flags, t.quanta)) = some (0x10, fl 0 0 1 1, 1) := by decide

/-- R182 -/
theorem test_addAAtHl : run (put 0xC100 [0xC6] { cpu with regs := { cpu.regs with h := 0xC1, l := 0x00, a := 0x3A } }) [0x86] (fun t => (t.regs.a, t.flags, t.quanta)) = some (0x00, fl 1 0 1 1, 2) := by decide

/-- R183 -/
theorem test_addAN : run { cpu with regs := { cpu.regs with a := 0x0F } } [0xC6, 0x01] (fun t => (t.regs.a, t.flags, t.quanta)) = some (0x10, fl 0 0 1 0, 2) := by decide

/-- V43 -/
theorem test_adcAR : run { cpu with regs := { cpu.regs with a := 0x0F }, flags := fl 0 0 0 1 } [0x89] (fun t => (t.regs.a, t.flags, t.quanta)) = some (0x10, fl 0 0 1 0, 1) := by decide

/-- R185, the operands of V42 -/
theorem test_adcAAtHl : run (put 0xC100 [0x0F] { cpu with regs := { cpu.regs with h := 0xC1, l := 0x00, a := 0xF0 }, flags := fl 0 0 0 1 }) [0x8E] (fun t => (t.regs.a, t.flags, t.quanta)) = some (0x00, fl 1 0 1 1, 2) := by decide

/-- V42 -/
theorem test_adcAN : run { cpu with regs := { cpu.regs with a := 0xF0 }, flags := fl 0 0 0 1 } [0xCE, 0x0F] (fun t => (t.regs.a, t.flags, t.quanta)) = some (0x00, fl 1 0 1 1, 2) := by decide

/-- V45 -/
theorem test_subR : run { cpu with regs := { cpu.regs with a := 0x3E, b := 0x3E } } [0x90] (fun t => (t.regs.a, t.flags, t.quanta)) = some (0x00, fl 1 1 0 0, 1) := by decide

/-- R188, the operands of V44 -/
theorem test_subAtHl : run (put 0xC100 [0x01] { cpu with regs := { cpu.regs with h := 0xC1, l := 0x00, a := 0x00 } }) [0x96] (fun t => (t.regs.a, t.flags, t.quanta)) = some (0xFF, fl 0 1 1 1, 2) := by decide

/-- V44 -/
theorem test_subN : run cpu [0xD6, 0x01] (fun t => (t.regs.a, t.flags, t.quanta)) = some (0xFF, fl 0 1 1 1, 2) := by decide

/-- V46 -/
theorem test_sbcAR : run { cpu with regs := { cpu.regs with a := 0x77 }, flags := fl 0 0 0 1 } [0x9F] (fun t => (t.regs.a, t.flags, t.quanta)) = some (0xFF, fl 0 1 1 1, 1) := by decide

/-- V47 -/
theorem test_sbcAAtHl : run (put 0xC100 [0x4F] { cpu with regs := { cpu.regs with h := 0xC1, l := 0x00, a := 0x3B }, flags := fl 0 0 0 1 }) [0x9E] (fun t => (t.regs.a, t.flags, t.quanta)) = some (0xEB, fl 0 1 1 1, 2) := by decide

/-- R192, the operands of V47 -/
theorem test_sbcAN : run { cpu with regs := { cpu.regs with a := 0x3B }, flags := fl 0 0 0 1 } [0xDE, 0x4F] (fun t => (t.regs.a, t.flags, t.quanta)) = some (0xEB, fl 0 1 1 1, 2) := by decide

/-- R193 -/
theorem test_andR : run { cpu with regs := { cpu.regs with a := 0xF5, b := 0x3C }, flags := fl 0 1 0 1 } [0xA0] (fun t => (t.regs.a, t.flags, t.quanta)) = some (0x34, fl 0 0 1 0, 1) := by decide

/-- R194 -/
theorem test_andAtHl : run (put 0xC100 [0x0F] { cpu with regs := { cpu.regs with h := 0xC1, l := 0x00, a := 0xF0 } }) [0xA6] (fun t => (t.regs.a, t.flags, t.quanta)) = some (0x00, fl 1 0 1 0, 2) := by decide

/-- V48 -/
theorem test_andN : run { cpu with regs := { cpu.regs with a := 0xF0 }, flags := fl 0 1 0 1 } [0xE6, 0x0F] (fun t => (t.regs.a, t.flags, t.quanta)) = some (0x00, fl 1 0 1 0, 2) := by decide

/-- V49 -/
theorem test_xorR : run { cpu with regs := { cpu.regs with a := 0x5A }, flags := fl 1 1 1 1 } [0xAF] (fun t => (t.regs.a, t.flags, t.quanta)) = some (0x00, fl 1 0 0 0, 1) := by decide

/-- R197 -/
theorem test_xorAtHl : run (put 0xC100 [0xFF] { cpu with regs := { cpu.regs with h := 0xC1, l := 0x00, a := 0x5A }, flags := fl 1 1 1 1 }) [0xAE] (fun t => (t.regs.a, t.flags, t.quanta)) = some (0xA5, fl 0 0 0 0, 2) := by decide

/-- R198 -/
theorem test_xorN : run { cpu with regs := { cpu.regs with a := 0x5A } } [0xEE, 0x0F] (fun t => (t.regs.a, t.flags, t.quanta)) = some (0x55, fl 0 0 0 0, 2) := by decide

/-- R199 -/
theorem test_orR : run { cpu with regs := { cpu.regs with a := 0x50, b := 0x05 }, flags := fl 1 1 1 1 } [0xB0] (fun t => (t.regs.a, t.flags, t.quanta)) = some (0x55, fl 0 0 0 0, 1) := by decide

/-- V50 -/
theorem test_orAtHl : run { cpu with regs := { cpu.regs with h := 0xC1, l := 0x00 }, flags := fl 1 1 1 1 } [0xB6] (fun t => (t.regs.a, t.flags, t.quanta)) = some (0x00, fl 1 0 0 0, 2) := by decide

/-- R201 -/
theorem test_orN : run { cpu with regs := { cpu.regs with a := 0x80 } } [0xF6, 0x01] (fun t => (t.regs.a, t.flags, t.quanta)) = some (0x81, fl 0 0 0 0, 2) := by decide

/-- V52 -/
theorem test_cpR : run { cpu with regs := { cpu.regs with a := 0x3C, b := 0x3C } } [0xB8] (fun t => (t.regs.a, t.flags, t.quanta)) = some (0x3C, fl 1 1 0 0, 1) := by decide

/-- R203, the operands of V51 -/
theorem test_cpAtHl : run (put 0xC100 [0x40] { cpu with regs := { cpu.regs with h := 0xC1, l := 0x00, a := 0x3C } }) [0xBE] (fun t => (t.regs.a, t.flags, t.quanta)) = some (0x3C, fl 0 1 0 1, 2) := by decide

/-- V51 -/
theorem test_cpN : run { cpu with regs := { cpu.regs with a := 0x3C } } [0xFE, 0x40] (fun t => (t.regs.a, t.flags, t.quanta)) = some (0x3C, fl 0 1 0 1, 2) := by decide

/-- V53 -/
theorem test_incR : run { cpu with regs := { cpu.regs with a := 0xFF }, flags := fl 0 0 0 1 } [0x3C] (fun t => (t.regs.a, t.flags, t.quanta)) = some (0x00, fl 1 0 1 1, 1) := by decide

/-- V56 -/
theorem test_decR : run cpu [0x15] (fun t => (t.regs.d, t.flags, t.quanta)) = some (0xFF, fl 0 1 1 0, 1) := by decide

/-- V58 -/
theorem test_incAtHl : run (put 0xC100 [0x7F] { cpu with regs := { cpu.regs with h := 0xC1, l := 0x00 } }) [0x34] (fun t => (readByte t 0xC100, t.flags, t.quanta)) = some (0x80, fl 0 0 1 0, 3) := by decide

/-- V59: the flags describe the computed byte -/
theorem test_decAtHl_of_rom : run (put 0x4000 [0x01] { cpu with regs := { cpu.regs with h := 0x40, l := 0x00 } }) [0x35] (fun t => (readByte t 0x4000, t.flags, t.quanta)) = some (0x01, fl 1 1 0 0, 3) := by decide

/-- V61 -/
theorem test_daa_after_add : run { cpu with regs := { cpu.regs with a := 0x9A } } [0x27] (fun t => (t.regs.a, t.flags, t.quanta)) = some (0x00, fl 1 0 0 1, 1) := by decide

/-- V63 -/
theorem test_daa_after_sub : run { cpu with flags := fl 0 1 1 1 } [0x27] (fun t => (t.regs.a, t.flags, t.quanta)) = some (0x9A, fl 0 1 0 1, 1) := by decide

/-- V66 -/
theorem test_cpl : run { cpu with regs := { cpu.regs with a := 0x35 }, flags := fl 1 0 0 1 } [0x2F] (fun t => (t.regs.a, t.flags, t.quanta)) = some (0xCA, fl 1 1 1 1, 1) := by decide

/-- V67 -/
theorem test_scf : run { cpu with flags := fl 1 1 1 0 } [0x37] (fun t => (t.regs.a, t.flags, t.quanta)) = some (0x00, fl 1 0 0 1, 1) := by decide

/-- V68 -/
theorem test_ccf : run { cpu with flags := fl 1 1 1 1 } [0x3F] (fun t => (t.regs.a, t.flags, t.quanta)) = some (0x00, fl 1 0 0 0, 1) := by decide

/-! ## 16-bit arithmetic -/

/-- V80: Z is kept -/
theorem test_addHlRr : run { cpu with regs := { cpu.regs with h := 0x8A, l := 0x23, b := 0x06, c := 0x05 }, flags := fl 1 0 0 0 } [0x09] (fun t => (t.hl, t.flags, t.quanta)) = some (0x9028, fl 1 0 1 0, 2) := by decide

/-- V81 -/
theorem test_addHlRr_source_is_Hl : run { cpu with regs := { cpu.regs with h := 0x8A, l := 0x23 } } [0x29] (fun t => (t.hl, t.flags)) = some (0x1446, fl 0 0 1 1) := by decide

/-- V83: no flag -/
theorem test_incRr : run { cpu with regs := { cpu.regs with b := 0xFF, c := 0xFF }, flags := fl 1 1 1 1 } [0x03] (fun t => (t.bc, t.flags, t.quanta)) = some (0x0000, fl 1 1 1 1, 2) := by decide

/-- V84 -/
theorem test_decRr : run cpu [0x3B] (fun t => (t.sp, t.quanta)) = some (0xFFFF, 2) := by decide

/-- V87: flags of the low byte -/
theorem test_addSpE : run { cpu with sp := 0xD000 } [0xE8, 0xFF] (fun t => (t.sp, t.flags, t.quanta)) = some (0xCFFF, fl 0 0 0 0, 4) := by decide

/-- V89 -/
theorem test_addSpE_carries : run { cpu with sp := 0x0080 } [0xE8, 0x80] (fun t => (t.sp, t.flags)) = some (0x0000, fl 0 0 0 1) := by decide

/-! ## Rotates, shifts and bits -/

/-- V101: Z is 0 though the result is 0 -/
theorem test_rlca : run { cpu with flags := fl 1 0 0 0 } [0x07] (fun t => (t.regs.a, t.flags, t.quanta)) = some (0x00, fl 0 0 0 0, 1) := by decide

/-- V102 -/
theorem test_rrca : run { cpu with regs := { cpu.regs with a := 0x01 } } [0x0F] (fun t => (t.regs.a, t.flags, t.quanta)) = some (0x80, fl 0 0 0 1, 1) := by decide

/-- V103 -/
theorem test_rla : run { cpu with regs := { cpu.regs with a := 0x80 } } [0x17] (fun t => (t.regs.a, t.flags, t.quanta)) = some (0x00, fl 0 0 0 1, 1) := by decide

/-- V104 -/
theorem test_rra : run { cpu with regs := { cpu.regs with a := 0x01 }, flags := fl 0 0 0 1 } [0x1F] (fun t => (t.regs.a, t.flags, t.quanta)) = some (0x80, fl 0 0 0 1, 1) := by decide

/-- V105 -/
theorem test_rlcR : run { cpu with regs := { cpu.regs with b := 0x80 } } [0xCB, 0x00] (fun t => (t.regs.b, t.flags, t.pc, t.quanta)) = some (0x01, fl 0 0 0 1, 0xC002, 2) := by decide

/-- R236 -/
theorem test_rrcR : run { cpu with regs := { cpu.regs with c := 0x01 } } [0xCB, 0x09] (fun t => (t.regs.c, t.flags, t.pc, t.quanta)) = some (0x80, fl 0 0 0 1, 0xC002, 2) := by decide

/-- V107 -/
theorem test_rlR : run { cpu with regs := { cpu.regs with c := 0x80 } } [0xCB, 0x11] (fun t => (t.regs.c, t.flags, t.pc, t.quanta)) = some (0x00, fl 1 0 0 1, 0xC002, 2) := by decide

/-- V108 -/
theorem test_rrR : run { cpu with regs := { cpu.regs with d := 0x01 }, flags := fl 0 0 0 1 } [0xCB, 0x1A] (fun t => (t.regs.d, t.flags, t.pc, t.quanta)) = some (0x80, fl 0 0 0 1, 0xC002, 2) := by decide

/-- V109 -/
theorem test_slaR : run { cpu with regs := { cpu.regs with e := 0x80 } } [0xCB, 0x23] (fun t => (t.regs.e, t.flags, t.pc, t.quanta)) = some (0x00, fl 1 0 0 1, 0xC002, 2) := by decide

/-- V110 -/
theorem test_sraR : run { cpu with regs := { cpu.regs with h := 0x81 } } [0xCB, 0x2C] (fun t => (t.regs.h, t.flags, t.pc, t.quanta)) = some (0xC0, fl 0 0 0 1, 0xC002, 2) := by decide

/-- V111 -/
theorem test_swapR : run { cpu with regs := { cpu.regs with a := 0xF1 }, flags := fl 0 0 0 1 } [0xCB, 0x37] (fun t => (t.regs.a, t.flags, t.pc, t.quanta)) = some (0x1F, fl 0 0 0 0, 0xC002, 2) := by decide

/-- V113 -/
theorem test_srlR : run { cpu with regs := { cpu.regs with a := 0x01 } } [0xCB, 0x3F] (fun t => (t.regs.a, t.flags, t.pc, t.quanta)) = some (0x00, fl 1 0 0 1, 0xC002, 2) := by decide

/-- R235 -/
theorem test_rlcAtHl : run (put 0xC100 [0x85] { cpu with regs := { cpu.regs with h := 0xC1, l := 0x00 } }) [0xCB, 0x06] (fun t => (readByte t 0xC100, t.flags, t.quanta)) = some (0x0B, fl 0 0 0 1, 4) := by decide

/-- V106 -/
theorem test_rrcAtHl : run (put 0xC100 [0x01] { cpu with regs := { cpu.regs with h := 0xC1, l := 0x00 } }) [0xCB, 0x0E] (fun t => (readByte t 0xC100, t.flags, t.quanta)) = some (0x80, fl 0 0 0 1, 4) := by decide

/-- R239 -/
theorem test_rlAtHl : run (put 0xC100 [0x80] { cpu with regs := { cpu.regs with h := 0xC1, l := 0x00 }, flags := fl 0 0 0 1 }) [0xCB, 0x16] (fun t => (readByte t 0xC100, t.flags, t.quanta)) = some (0x01, fl 0 0 0 1, 4) := by decide

/-- R241 -/
theorem test_rrAtHl : run (put 0xC100 [0x01] { cpu with regs := { cpu.regs with h := 0xC1, l := 0x00 } }) [0xCB, 0x1E] (fun t => (readByte t 0xC100, t.flags, t.quanta)) = some (0x00, fl 1 0 0 1, 4) := by decide

/-- R243 -/
theorem test_slaAtHl : run (put 0xC100 [0x41] { cpu with regs := { cpu.regs with h := 0xC1, l := 0x00 }, flags := fl 0 0 0 1 }) [0xCB, 0x26] (fun t => (readByte t 0xC100, t.flags, t.quanta)) = some (0x82, fl 0 0 0 0, 4) := by decide

/-- R245 -/
theorem test_sraAtHl : run (put 0xC100 [0x82] { cpu with regs := { cpu.regs with h := 0xC1, l := 0x00 } }) [0xCB, 0x2E] (fun t => (readByte t 0xC100, t.flags, t.quanta)) = some (0xC1, fl 0 0 0 0, 4) := by decide

/-- R247 -/
theorem test_swapAtHl : run (put 0xC100 [0xA5] { cpu with regs := { cpu.regs with h := 0xC1, l := 0x00 }, flags := fl 0 0 0 1 }) [0xCB, 0x36] (fun t => (readByte t 0xC100, t.flags, t.quanta)) = some (0x5A, fl 0 0 0 0, 4) := by decide

/-- R249 -/
theorem test_srlAtHl : run (put 0xC100 [0x81] { cpu with regs := { cpu.regs with h := 0xC1, l := 0x00 } }) [0xCB, 0x3E] (fun t => (readByte t 0xC100, t.flags, t.quanta)) = some (0x40, fl 0 0 0 1, 4) := by decide

/-- V114 -/
theorem test_bitBR : run { cpu with regs := { cpu.regs with h := 0x80 }, flags := fl 0 1 0 1 } [0xCB, 0x7C] (fun t => (t.regs.h, t.flags, t.pc, t.quanta)) = some (0x80, fl 0 0 1 1, 0xC002, 2) := by decide

/-- V115 -/
theorem test_bitBAtHl : run (put 0xC100 [0xFE] { cpu with regs := { cpu.regs with h := 0xC1, l := 0x00 } }) [0xCB, 0x46] (fun t => (readByte t 0xC100, t.flags, t.quanta)) = some (0xFE, fl 1 0 1 0, 3) := by decide

/-- V116 -/
theorem test_resBR : run { cpu with regs := { cpu.regs with a := 0xFF }, flags := fl 1 1 1 1 } [0xCB, 0x87] (fun t => (t.regs.a, t.flags, t.pc, t.quanta)) = some (0xFE, fl 1 1 1 1, 0xC002, 2) := by decide

/-- V118 -/
theorem test_resBAtHl_of_rom : run (put 0x0100 [0xFF] { cpu with regs := { cpu.regs with h := 0x01, l := 0x00 } }) [0xCB, 0x9E] (fun t => (readByte t 0x0100, t.quanta)) = some (0xFF, 4) := by decide

/-- R253 -/
theorem test_resBAtHl : run (put 0xC100 [0xFF] { cpu with regs := { cpu.regs with h := 0xC1, l := 0x00 } }) [0xCB, 0x9E] (fun t => (readByte t 0xC100, t.quanta)) = some (0xF7, 4) := by decide

/-- R254 -/
theorem test_setBR : run { cpu with regs := { cpu.regs with c := 0x41 } } [0xCB, 0xE9] (fun t => (t.regs.c, t.flags, t.pc, t.quanta)) = some (0x61, fl 0 0 0 0, 0xC002, 2) := by decide

/-- V117 -/
theorem test_setBAtHl : run { cpu with regs := { cpu.regs with h := 0xC1, l := 0x00 } } [0xCB, 0xFE] (fun t => (readByte t 0xC100, t.flags, t.quanta)) = some (0x80, fl 0 0 0 0, 4) := by decide

/-! ## Control transfer -/

/-- V130 -/
theorem test_jpNn : run cpu [0xC3, 0x50, 0x01] (fun t => (t.pc, t.quanta)) = some (0x0150, 4) := by decide

/-- V131 -/
theorem test_jpCcNn_taken : run { cpu with flags := fl 1 0 0 0 } [0xCA, 0x00, 0x80] (fun t => (t.pc, t.quanta)) = some (0x8000, 4) := by decide

/-- V132 -/
theorem test_jpCcNn_not_taken : run cpu [0xCA, 0x00, 0x80] (fun t => (t.pc, t.quanta)) = some (0xC003, 3) := by decide

/-- V134: a jump to itself -/
theorem test_jrE : run cpu [0x18, 0xFE] (fun t => (t.pc, t.quanta)) = some (0xC000, 3) := by decide

/-- V137 -/
theorem test_jrE_wraps : run { cpu with pc := 0xFFFD } [0x18, 0x01] (fun t => (t.pc, t.quanta)) = some (0x0000, 3) := by decide

/-- V135 -/
theorem test_jrCcE_not_taken : run { cpu with flags := fl 1 0 0 0 } [0x20, 0xFC] (fun t => (t.pc, t.quanta)) = some (0xC002, 2) := by decide

/-- V136 -/
theorem test_jrCcE_taken : run { cpu with flags := fl 0 0 0 1, pc := 0xC010 } [0x38, 0x80] (fun t => (t.pc, t.quanta)) = some (0xBF92, 3) := by decide

/-- V138 -/
theorem test_jpHl : run { cpu with regs := { cpu.regs with h := 0xFF, l := 0x80 } } [0xE9] (fun t => (t.pc, t.quanta)) = some (0xFF80, 1) := by decide

/-- V139 -/
theorem test_callNn : run { cpu with sp := 0xFFFE } [0xCD, 0x00, 0x02] (fun t => (t.pc, t.sp, readByte t 0xFFFD, readByte t 0xFFFC, t.quanta)) = some (0x0200, 0xFFFC, 0xC0, 0x03, 6) := by decide

/-- V140 -/
theorem test_callCcNn_not_taken : run { cpu with sp := 0xFFFE } [0xDC, 0x00, 0x02] (fun t => (t.pc, t.sp, t.quanta)) = some (0xC003, 0xFFFE, 3) := by decide

/-- V141 -/
theorem test_callCcNn_taken : run { cpu with sp := 0xD000 } [0xD4, 0x00, 0x02] (fun t => (t.pc, t.sp, readByte t 0xCFFF, readByte t 0xCFFE, t.quanta)) = some (0x0200, 0xCFFE, 0xC0, 0x03, 6) := by decide

/-- V142 -/
theorem test_ret : run (put 0xFFFC [0x53, 0x01] { cpu with sp := 0xFFFC }) [0xC9] (fun t => (t.pc, t.sp, t.quanta)) = some (0x0153, 0xFFFE, 4) := by decide

/-- V143 -/
theorem test_retCc_taken : run (put 0xFFFC [0x53, 0x01] { cpu with flags := fl 1 0 0 0, sp := 0xFFFC }) [0xC8] (fun t => (t.pc, t.sp, t.quanta)) = some (0x0153, 0xFFFE, 5) := by decide

/-- V144 -/
theorem test_retCc_not_taken : run (put 0xFFFC [0x53, 0x01] { cpu with flags := fl 0 0 0 1, sp := 0xFFFC }) [0xD0] (fun t => (t.pc, t.sp, t.quanta)) = some (0xC001, 0xFFFC, 2) := by decide

/-- V145 -/
theorem test_reti : run (put 0xFFFC [0x53, 0x01] { cpu with sp := 0xFFFC }) [0xD9] (fun t => (t.pc, t.sp, t.ime, t.quanta)) = some (0x0153, 0xFFFE, true, 4) := by decide

/-- V146 -/
theorem test_rstT : run { cpu with pc := 0xC234, sp := 0xD000 } [0xEF] (fun t => (t.pc, t.sp, readByte t 0xCFFF, readByte t 0xCFFE, t.quanta)) = some (0x0028, 0xCFFE, 0xC2, 0x35, 4) := by decide

/-- V147 -/
theorem test_rstT_from_unmapped_space : run { cpu with pc := 0xFEA0, sp := 0xD000 } [] (fun t => (t.pc, readByte t 0xCFFF, readByte t 0xCFFE)) = some (0x0038, 0xFE, 0xA1) := by decide

/-- V149 -/
theorem test_fetch_across_the_top : run (put 0x0000 [0x00, 0xC1] (put 0xC100 [0x99] { cpu with pc := 0xFFFF, ie := 0xFA })) [] (fun t => (t.regs.a, t.pc, t.quanta)) = some (0x99, 0x0002, 4) := by decide

/-! ## System instructions and interrupts -/

/-- V160 -/
theorem test_nop : run cpu [0x00] (fun t => (t.pc, t.quanta)) = some (0xC001, 1) := by decide

/-- V162 -/
theorem test_halt_waits : run2 { cpu with ie := 0x04 } [0x76, 0x3C] (fun t => (t.pc, t.halted, t.quanta)) = some (0xC001, true, 1) := by decide

/-- V163 -/
theorem test_halt_wakes_with_ime_0 : run2 { cpu with ie := 0x04, ifl := 0x04 } [0x76, 0x3C] (fun t => (t.regs.a, t.pc, t.halted, t.ifl)) = some (0x01, 0xC002, false, 0x04) := by decide

/-- V164 -/
theorem test_stop : run cpu [0x10, 0x55] (fun t => (t.pc, t.status, t.quanta)) = some (0xC002, Status.stopped, 1) := by decide

/-- V168: it cancels the EI before it -/
theorem test_di : run2 cpu [0xFB, 0xF3] (fun t => (t.pc, t.ime, t.imePending, t.quanta)) = some (0xC002, false, false, 1) := by decide

/-- V169 -/
theorem test_ei_waits_one_instruction : run { cpu with sp := 0xD000, ie := 0x01, ifl := 0x01 } [0xFB, 0x00] (fun t => (t.pc, t.imePending, t.ime, t.sp)) = some (0xC001, true, false, 0xD000) := by decide

/-- V170 -/
theorem test_ei_then_dispatch : run2 { cpu with sp := 0xD000, ie := 0x01, ifl := 0x01 } [0xFB, 0x00] (fun t => (t.pc, t.sp, t.ifl, readByte t 0xCFFF, readByte t 0xCFFE)) = some (0x0040, 0xCFFE, 0x00, 0xC0, 0x02) := by decide

/-- V171 -/
theorem test_ei_without_delay : run { cpu with sp := 0xD000, ie := 0x01, ifl := 0x01, cfg := { Config.reference with eiDelay := false } } [0xFB, 0x00] (fun t => (t.pc, readByte t 0xCFFE, t.ime)) = some (0x0040, 0x01, false) := by decide

/-- V172 -/
theorem test_illegal : run { cpu with regs := { cpu.regs with a := 0x12 } } [0xD3] (fun t => (t.pc, t.status, t.regs.a, t.quanta)) = some (0xC001, Status.stopped, 0x12, 0) := by decide

/-- V174, the effect of the prefix term itself (R285). -/
theorem test_prefixCb :
    (match exec (.prefixCb 0x37) { cpu with regs := { cpu.regs with a := 0x12 } } with
     | .next t => some (t.regs.a, t.quanta)
     | .fault _ => none
     | .refused _ => none) = some (0x21, 2) := by decide

/-- V181 -/
theorem test_dispatch_takes_the_lowest_class : run { cpu with sp := 0xD000, ime := true, ie := 0x1F, ifl := 0x05 } [0x00] (fun t => (t.pc, t.sp, t.ime, t.ifl, readByte t 0xCFFF, readByte t 0xCFFE)) = some (0x0040, 0xCFFE, false, 0x04, 0xC0, 0x01) := by decide

/-- V184 -/
theorem test_no_dispatch_for_bits_7_to_5 : run { cpu with sp := 0xD000, ime := true, ie := 0xE0, ifl := 0xE0 } [0x00] (fun t => (t.pc, t.sp)) = some (0xC001, 0xD000) := by decide

/-- V186 -/
theorem test_dispatch_pushing_into_ie : run { cpu with ime := true, ie := 0x04, ifl := 0x04 } [0x00] (fun t => (t.pc, t.sp, t.ie, t.ifl, readByte t 0xFFFE)) = some (0x0050, 0xFFFE, 0xC0, 0x00, 0x01) := by decide

/-- V187 -/
theorem test_dispatch_wakes_halt : run { cpu with sp := 0xD000, ime := true, ie := 0x04, ifl := 0x04 } [0x76] (fun t => (t.pc, t.halted, readByte t 0xCFFE)) = some (0x0050, false, 0x01) := by decide

/-! ## Devices and the bus -/

/-- T6 and T7 (gate open, gate closed): the reload and its request come one tick after the overflow. -/
theorem test_timer_reload :
    (let t := timerTick 4 (timerTick 16 { cpu with cfg := { Config.reference with ifGatedByIme := false }, timer := { Timer.reset with tac := 0x05, tima := 0xFF, tma := 0xAB } })
     (t.timer.tima, t.timer.timaAcc, t.timer.overflow, t.ifl) = (0xAB, 4, false, 0x04)) ∧
    (let t := timerTick 4 (timerTick 16 { cpu with timer := { Timer.reset with tac := 0x05, tima := 0xFF, tma := 0xAB } })
     (t.timer.tima, t.ifl) = (0xAB, 0x00)) := by decide

/-- T14: 257 crossings in one call, one request. -/
theorem test_timer_many_crossings :
    (let t := timerTick 4112 { cpu with timer := { Timer.reset with tac := 0x05, tima := 0xFF } }
     (t.timer.div, t.timer.divAcc, t.timer.tima, t.timer.timaAcc, t.timer.overflow) = (0x10, 16, 0x00, 0, true)) := by decide

/-- P1: the first two modes and STAT. -/
theorem test_video_modes :
    (let t := videoTick 79 cpu
     (t.video.mode, t.video.modeClock, readByte t 0xFF41) = (Mode.oamSearch, 79, 0x06)) ∧
    (let t := videoTick 1 (videoTick 79 cpu)
     (t.video.mode, t.video.modeClock, readByte t 0xFF41) = (Mode.pixelTransfer, 0, 0x07)) := by decide

/-- P16, its last call: the frame wrap requests class 1 on entry of OAM-search. -/
theorem test_video_frame_wrap :
    (let t := videoTick 4 { cpu with cfg := { Config.reference with ifGatedByIme := false }, video := { Video.reset with ly := 153, mode := .vblank, modeClock := 452, statEnable := 4 } }
     (t.video.ly, t.video.mode, t.video.modeClock, t.video.coincidence, t.ifl) = (0, Mode.oamSearch, 0, true, 0x02)) := by decide

/-- P13, P14, B: STAT keeps bits 6 to 3, LY is not written, a write of DIV clears it. -/
theorem test_register_writes :
    readByte (writeByte cpu 0xFF41 0xFF) 0xFF41 = 0x7A ∧
    readByte (writeByte { cpu with video := { Video.reset with ly := 1 } } 0xFF44 0x55) 0xFF44 = 1 ∧
    (writeByte { cpu with timer := { Timer.reset with div := 7, divAcc := 200, timaAcc := 9 } } 0xFF04 0x99).timer =
      { Timer.reset with timaAcc := 9 } := by decide

/-- R378: the copy takes 160 bytes; R64: an address without an owner reads 0xFF. -/
theorem test_oam_copy :
    readByte (writeByte (put 0xC09F [0x5A, 0x77] cpu) 0xFF46 0xC0) 0xFE9F = 0x5A ∧ readByte cpu 0xFEA0 = 0xFF := by
  decide +kernel

/-- R391, R393, R394: tile data 0x80 and 0x80 give colour index 3 at column 0; BGP 0xE4 maps it to shade 3. -/
theorem test_background_pixel :
    (let s := put 0x8000 [0x80, 0x80] { cpu with video := { Video.reset with lcdc := 0x91, bgp := 0xE4 } }
     (backgroundIndex s 0 0, backgroundShade s 0 0, backgroundIndex s 0 1)) = (3, 3, 0) := by decide

/-- R395 to R397: an 8-row sprite at Y = 16, X = 8 shows its tile's row 0 on line 0 from column 0. -/
theorem test_sprite_pixel :
    (let s := put 0xFE00 [16, 8, 0, 0x80] (put 0x8000 [0x80, 0x00] { cpu with video := { Video.reset with lcdc := 0x93, obp0 := 0xE4 } })
     (selectSprites s 0, spritePixel s 0 0 0 [0], spritePixel s 0 0 1 [0])) = ([0], some 1, none) := by decide

/-! ## The cost parameter -/

/-- `cpu` with a table CYCLES unlike R450's: 7 or 9 on the first-byte page, 5 or 6 on the 0xCB page. -/
def slowCpu : State :=
  { cpu with cfg := { Config.reference with cycles := ⟨.replicate 16 (.replicate 16 (7, 9)), .replicate 16 (.replicate 16 (5, 6))⟩ } }

/-- R9, R451: the cost is the table's; `JR NZ` is not taken with fZ = 1. -/
theorem test_cycles_is_a_parameter :
    run slowCpu [0x00] (·.quanta) = some 7 ∧ run { slowCpu with flags := fl 1 0 0 0 } [0x20, 0x05] (·.quanta) = some 9 ∧
      run slowCpu [0xCB, 0x37] (·.quanta) = some 5 ∧ run slowCpu [0xD3] (·.quanta) = some 0 ∧
      run { slowCpu with halted := true } [] (·.quanta) = some 1 := by decide

/-- R450: entries of the corners and of the exceptions of the table. -/
theorem test_cycles_reference :
    [0x00, 0x08, 0x36, 0x76, 0xC0, 0xC4, 0xCD, 0xE8, 0xE9, 0xFF].map (fun op => Cycles.reference.quanta true [op]) =
        [1, 5, 3, 1, 5, 6, 6, 4, 1, 4] ∧
      [0x20, 0x38, 0xC0, 0xC2, 0xC4, 0xDC].map (fun op => Cycles.reference.quanta false [op]) = [2, 2, 2, 3, 3, 3] ∧
      [0x00, 0x3E, 0x46, 0x7E, 0x7F, 0x86, 0xFE, 0xFF].map (fun op2 => Cycles.reference.quanta true [0xCB, op2]) =
        [2, 4, 3, 3, 2, 4, 4, 2] := by decide

/-! ## Witnesses: states and operands that meet the hypotheses of the statements -/

/-- A sound state in mid-run: memory, stack, flags and devices in use. -/
def busy : State :=
  { cpu with
    sp := 0xD000
    flags := fl 1 0 0 1
    regs := { cpu.regs with a := 0x45, h := 0xC1, l := 0x00 }
    mem := [(0x0000, 0xFB), (0xC000, 0xD3), (0xC100, 0x42)]
    timer := { Timer.reset with tac := 0x05, divAcc := 255, timaAcc := 1023 }
    video := { Video.reset with ly := 143, mode := .hblank, modeClock := 203 } }

theorem busy_wf : Memory.wf busy.mem := by decide

theorem busy_memoryInv : MemoryInv busy.mem := ⟨busy_wf, by unfold backedKey; decide⟩

theorem busy_inv : busy.Inv where
  memory := busy_memoryInv
  timer := ⟨by decide, by decide⟩
  video := ⟨by decide, by decide, by decide, by decide⟩
  imePending := by decide
  boot := by decide

/-! Each of the statements about one store assumes the canonical form and nothing else. -/

theorem witness_MemoryStoresWriteOneByte : ∃ s : State, Memory.wf s.mem ∧ s.mem ≠ [] := ⟨busy, busy_wf, by decide⟩
theorem witness_IncrementingLoadsMoveHl : ∃ s : State, Memory.wf s.mem ∧ s.hl = 0xC100 := ⟨busy, busy_wf, by decide⟩
theorem witness_WordStoresWriteTwoBytes : ∃ s : State, Memory.wf s.mem ∧ s.sp = 0 := ⟨{ busy with sp := 0 }, busy_wf, rfl⟩
theorem witness_IncDecByte : ∃ s : State, Memory.wf s.mem ∧ readByte s s.hl = 0x42 := ⟨busy, busy_wf, by decide⟩
theorem witness_RotateMemoryForms : ∃ s : State, Memory.wf s.mem ∧ s.flags.c = true := ⟨busy, busy_wf, by decide⟩
theorem witness_BitInstructions : ∃ s : State, Memory.wf s.mem ∧ (readByte s s.hl).getLsbD 1 = true := ⟨busy, busy_wf, by decide⟩
theorem witness_DmaWriteCopiesAPageToOam : ∃ s : State, Memory.wf s.mem ∧ s.mem ≠ [] := ⟨busy, busy_wf, by decide⟩

/-- The stored byte of a store to echo RAM is plain RAM that a read of work RAM shows; its neighbour is not reached. -/
theorem witness_StoresByte : plainRam 0xE100 ∧ storeReaches 0xE100 0xC100 ∧ ¬ storeReaches 0xE100 0xC101 := by
  unfold plainRam storeReaches sameLocation isEcho
  decide

theorem witness_DecimalAdjustCorrects :
    (∃ s : State, s.flags.n = false ∧ s.regs.a = 0x9A ∧ s.flags.h = false) ∧ ∃ s : State, s.flags.n = true ∧ s.flags.h = true :=
  ⟨⟨{ busy with regs := { busy.regs with a := 0x9A } }, by decide⟩, ⟨{ busy with flags := fl 0 1 1 0 }, by decide⟩⟩

theorem witness_DecimalAdditionIsExact :
    ∃ (s : State) (x y : Nat), x < 100 ∧ y < 100 ∧ s.regs.a = BitVec.ofNat 8 (x / 10 * 16 + x % 10) :=
  ⟨busy, 45, 99, by decide⟩

theorem witness_JumpsGoToTheirTargets :
    (condHolds .z busy.flags = true ∧ condHolds .nz busy.flags = false) ∧ condHolds .c busy.flags = true ∧ condHolds .nc busy.flags = false := by
  decide

theorem witness_CallsPushTheReturnAddress :
    ∃ (s : State) (holds : Bool), Memory.wf s.mem ∧ holds = (match Cond.nc with | .nz => !s.flags.z | .z => s.flags.z | .nc => !s.flags.c | .c => s.flags.c) :=
  ⟨busy, false, busy_wf, rfl⟩

theorem witness_ReturnsPopThePc : ∃ (s : State) (holds : Bool), holds = s.flags.z ∧ holds = true := ⟨busy, true, by decide⟩

theorem witness_SystemInstructionEffects :
    (∃ s : State, s.cfg.eiDelay = true) ∧ ∃ s : State, s.cfg.eiDelay = false :=
  ⟨⟨busy, rfl⟩, ⟨{ busy with cfg := { Config.reference with eiDelay := false } }, rfl⟩⟩

theorem witness_DecodeOfEncode : ∃ i : Instr, i.wellFormed = true ∧ i = .setBAtHl 7 := ⟨_, rfl, rfl⟩

theorem busy_fetches : fetches busy := ⟨rfl, rfl, by decide⟩

theorem witness_StepRunsTheDecodedInstruction :
    fetches cpu ∧ decode [readByte cpu cpu.pc, readByte cpu (cpu.pc + 1), readByte cpu (cpu.pc + 2)] = .ok (.nop, [0, 0]) ∧
      ∃ t, exec .nop { cpu with halted := false, pc := cpu.pc + BitVec.ofNat 16 (3 - [(0 : Byte), 0].length) } = .next t :=
  ⟨⟨rfl, rfl, by decide⟩, rfl, _, rfl⟩

/-- A halted CPU fetches too, if a class wakes it. -/
theorem witness_fetches_halted : fetches { busy with halted := true, ie := 0x10, ifl := 0xF0 } := ⟨rfl, rfl, by decide⟩

/-- The unassigned opcode at PC ends the run after one step (R330, R448). -/
theorem busy_run_ends : ∃ t, runEndsAt busy 1 t := by
  have h : (stepsFrom 1 busy).map (·.status) = some .stopped := by decide
  obtain ⟨t, ht, hs⟩ := Option.map_eq_some_iff.mp h
  refine ⟨t, ht, hs, fun m u hm hu => ?_⟩
  obtain rfl : m = 0 := by omega
  obtain rfl : busy = u := by simpa [stepsFrom] using hu
  decide

theorem witness_RestNoImageAndHaltedSteps :
    (∃ s : State, s.status ≠ .running ∧ s.status = .paused) ∧ (∃ s t, runEndsAt s 1 t) ∧ (∃ s : State, s.status = .running ∧ s.romLoaded = false) ∧
    (∃ s : State, s.status = .running ∧ s.romLoaded = true ∧ s.halted = true ∧ s.ie &&& s.ifl &&& 0x1F = 0 ∧ s.ifl = 0xE0 ∧
      s.ie = 0xFF) ∧
    ∃ s : State, s.status = .running ∧ s.romLoaded = true ∧ s.halted = true ∧ s.ie &&& s.ifl &&& 0x1F ≠ 0 :=
  ⟨⟨{ busy with status := .paused }, by decide⟩, ⟨busy, busy_run_ends⟩, ⟨State.powerOn Config.reference, by decide⟩,
    ⟨{ busy with halted := true, ie := 0xFF, ifl := 0xE0 }, by decide⟩, ⟨{ busy with halted := true, ie := 0x10, ifl := 0x10 }, by decide⟩⟩

theorem witness_DecodeErrorStepStops :
    busy.Inv ∧ fetches busy ∧
      readByte busy busy.pc ∈ [(0xD3 : Byte), 0xDB, 0xDD, 0xE3, 0xE4, 0xEB, 0xEC, 0xED, 0xF4, 0xFC, 0xFD] :=
  ⟨busy_inv, busy_fetches, by decide⟩

theorem witness_HaltWithoutWakeLastsForEver :
    (∃ s : State, s.status = .running ∧ s.romLoaded = true ∧ s.halted = true ∧ s.ie &&& 0x1F = 0 ∧ s.ie = 0xE0) ∧
    ∃ s : State, s.status = .running ∧ s.romLoaded = true ∧ s.halted = true ∧ s.ie = 0x1F ∧
      (s.cfg.ifGatedByIme = true ∧ s.ime = false ∧ s.ie &&& s.ifl &&& 0x1F = 0) :=
  ⟨⟨{ busy with halted := true, ie := 0xE0 }, by decide⟩, ⟨{ busy with halted := true, ie := 0x1F }, by decide⟩⟩

/-- Work RAM with one opcode byte at PC. -/
def at0xC000 (op : Byte) : State := put 0xC000 [op] cpu

theorem witness_EnableInterruptsWaitsOneInstruction :
    (fetches (at0xC000 0xFB) ∧ (at0xC000 0xFB).cfg.eiDelay = true ∧ (at0xC000 0xFB).ime = false ∧
      (at0xC000 0xFB).imePending = false ∧ fetchInstr (at0xC000 0xFB) = .ei) ∧
    (fetches { at0xC000 0x00 with imePending := true } ∧ fetchInstr { at0xC000 0x00 with imePending := true } = .nop) ∧
    (fetches { at0xC000 0xF3 with imePending := true } ∧ fetchInstr { at0xC000 0xF3 with imePending := true } = .di) :=
  ⟨⟨⟨rfl, rfl, by decide⟩, by decide⟩, ⟨⟨rfl, rfl, by decide⟩, by decide⟩, ⟨⟨rfl, rfl, by decide⟩, by decide⟩⟩

theorem witness_RequestsAndClearsAreGated :
    (busy.cfg.ifGatedByIme = true ∧ busy.ime = false) ∧ ({ busy with ime := true } : State).ime = true ∧
      ({ Config.reference with ifGatedByIme := false } : Config).ifGatedByIme = false := by decide

theorem witness_DispatchEntersTheHandler :
    ∃ s : State, Memory.wf s.mem ∧ s.ime = true ∧ plainRam (s.sp - 1) ∧ plainRam (s.sp - 2) ∧ s.sp ≠ 0xFF10 ∧ s.sp ≠ 0xFF11 := by
  refine ⟨{ busy with ime := true }, busy_wf, ?_⟩
  unfold plainRam
  decide

theorem witness_DispatchPhaseTakesAtMostOne :
    (∃ s : State, s.status = .running ∧ s.ime = true ∧ getPending s = some .joypad) ∧
    ∃ s : State, s.status = .running ∧ s.ime = true ∧ s.ie &&& s.ifl &&& 0x1F = 0 ∧ s.ifl = 0xE0 :=
  ⟨⟨{ busy with ime := true, ie := 0x1F, ifl := 0x10 }, by decide⟩, ⟨{ busy with ime := true, ie := 0xFF, ifl := 0xE0 }, by decide⟩⟩

/-- The four rates of the table, TAC bits 1:0. -/
theorem witness_TimerTickInClosedForm :
    ∀ row ∈ [((0x04 : Byte), 1024), (0x05, 16), (0x06, 64), (0xFF, 256), (0x00, 1024)],
      (row.1.toNat % 4, row.2) ∈ [(0, 1024), (1, 16), (2, 64), (3, 256)] ∧ timerThreshold row.1 = row.2 := by
  decide

theorem witness_TimerTicksAdd :
    ∃ s : State, s.timer.tac.getLsbD 2 = true ∧ (timerTick 16 s).timer.overflow = false ∧ (timerTick 16 s).timer.tima = 0xFF :=
  ⟨{ busy with timer := { Timer.reset with tac := 0x05, tima := 0xFE } }, by decide⟩

/-- Both sides of each mode's duration, and the lines at which horizontal-blank and vertical-blank branch. -/
theorem witness_ModeTransitions :
    ∀ row ∈ [(Mode.oamSearch, (0 : Byte), 79), (.oamSearch, 143, 80), (.pixelTransfer, 0, 171), (.pixelTransfer, 143, 172),
        (.hblank, 0, 203), (.hblank, 142, 204), (.hblank, 143, 204), (.vblank, 144, 455), (.vblank, 152, 456), (.vblank, 153, 456)],
      row.2.1.toNat ≤ 153 ∧ (row.1 = .vblank ↔ 144 ≤ row.2.1.toNat) := by
  decide

/-- `busy` at a NOP, one clock tick before line 144. -/
def beforeLine144 : State := { busy with pc := 0x1000 }

/-- R448: three NOPs of the empty image consume 12 clock ticks (R450) and show no frame; the NOP that reaches line 144 consumes 4
and shows one, blank; a PAUSED machine consumes none, whatever its last instruction cost. -/
theorem test_run_observables :
    runTicks 3 State.reset = 12 ∧ runFrames 3 State.reset = [] ∧ runTicks 1 beforeLine144 = 4 ∧ runFrames 1 beforeLine144 = [[]] ∧
    runTicks 3 { State.reset with status := .paused, quanta := 6 } = 0 := by decide

theorem witness_FrameTakes70224Ticks :
    (VideoInv busy.video ∧ VideoInv Video.reset ∧ framePosition busy.video = 65663) ∧ (∃ u, stepsFrom 1 busy = some u) ∧
    ∃ s u : State, VideoInv s.video ∧ step s = .next u ∧ s.video.ly.toNat < 144 ∧ 144 ≤ u.video.ly.toNat ∧ stepTicks s < 70224 :=
  ⟨⟨busy_inv.video, ⟨by decide, by decide, by decide, by decide⟩, by decide⟩, ⟨_, rfl⟩,
    ⟨beforeLine144, _, busy_inv.video, rfl, by decide, by decide, by decide⟩⟩

theorem witness_LineCompareEndsEveryTick :
    (∃ s : State, s.video.modeClock < modeDuration s.video.mode ∧ s.video.modeClock = 203) ∧
    (∃ s : State, s.video.ly = s.video.lyc ∧ s.video.coincidence = false ∧ s.video.statEnable.getLsbD 3 = true) ∧
    (∃ s : State, s.video.ly ≠ s.video.lyc) ∧ (∃ s : State, s.video.coincidence = true) ∧ ∃ s : State, s.video.statEnable.getLsbD 3 = false :=
  ⟨⟨busy, by decide⟩, ⟨{ cpu with video := { Video.reset with statEnable := 8 } }, by decide⟩, ⟨busy, by decide⟩,
    ⟨{ cpu with video := { Video.reset with coincidence := true } }, by decide⟩, ⟨busy, by decide⟩⟩

/-- LCDC[0] = 0; the window at its first column, with the signed base; the background, with the unsigned one. -/
theorem witness_RenderingWritesOneRow :
    (∃ s : State, framebufferWf s.video.framebuffer ∧ s.video.framebuffer ≠ [] ∧ (143 : Nat) < 144 ∧
      s.video.lcdc.getLsbD 0 = false) ∧
    (∃ s : State, framebufferWf s.video.framebuffer ∧ s.video.lcdc.getLsbD 0 = true ∧
      (s.video.lcdc.getLsbD 5 = true ∧ s.video.wy.toNat ≤ 143 ∧ s.video.wx.toNat ≤ 159 + 7) ∧
      (0x80 : Byte) = readByte s (BitVec.ofNat 16 (0x8000 + (0x1800 + 0 / 8 * 32 + 0 / 8))) ∧
      ((0x800 : Nat) : Int) = 0x1000 + (0x80 : Byte).toInt * 16) ∧
    ∃ s : State, framebufferWf s.video.framebuffer ∧ s.video.lcdc.getLsbD 0 = true ∧ s.video.lcdc.getLsbD 4 = true ∧
      ¬ (s.video.lcdc.getLsbD 5 = true ∧ s.video.wy.toNat ≤ 143 ∧ s.video.wx.toNat ≤ 158 + 7) ∧
      (0x00 : Byte) = readByte s (BitVec.ofNat 16 (0x8000 + (0x1800 + 142 / 8 * 32 + 157 / 8))) :=
  ⟨⟨{ cpu with video := { Video.reset with framebuffer := [(143, List.replicate 160 3)] } }, by decide +kernel⟩,
    ⟨put 0x9800 [0x80] { cpu with video := { Video.reset with lcdc := 0x21, wy := 143, wx := 166 } }, by decide +kernel⟩,
    ⟨{ cpu with video := { Video.reset with lcdc := 0x31, wy := 143, wx := 166, scx := 255, scy := 255 } }, by decide +kernel⟩⟩

theorem witness_TenFirstSpritesAreSelected :
    (∃ s : State, s.video.lcdc.getLsbD 1 = false) ∧
    ∃ s : State, s.video.lcdc.getLsbD 1 = true ∧ selectSprites s 0 = [39] ∧ spriteOnLine s 8 39 = false :=
  ⟨⟨busy, by decide⟩, ⟨put 0xFE9C [16, 8, 0, 0] { cpu with video := { Video.reset with lcdc := 0x02 } }, by decide +kernel⟩⟩

theorem witness_FirstOpaqueSpriteDecides :
    (∃ s : State, (∀ j ∈ [0], spriteIndex s 0 0 j = 0) ∧ spriteIndex s 0 0 1 ≠ 0 ∧
      ¬ ((oamByte s 7).getLsbD 7 = true ∧ (1 : Shade) ≠ 0) ∧ spriteIndex s 0 0 2 = 0) ∧
    ∃ s : State, spriteIndex s 0 0 1 ≠ 0 ∧ ((oamByte s 7).getLsbD 7 = true ∧ (1 : Shade) ≠ 0) :=
  ⟨⟨put 0xFE04 [16, 8, 0, 0] (put 0x8000 [0x80, 0x00] cpu), by decide +kernel⟩,
    ⟨put 0xFE04 [16, 8, 0, 0x80] (put 0x8000 [0x80, 0x00] cpu), by decide +kernel⟩⟩

/-- The last entry: its last column and last row of 16, and the columns next to its edges. -/
theorem witness_FirstOpaqueSpriteDecides_extent :
    ∃ s : State, let y := (oamByte s (4 * 39)).toNat
      let left := (oamByte s (4 * 39 + 1)).toNat
      ((16, (oamByte s (4 * 39 + 2)).toNat / 2 * 2) : Nat × Nat) =
          (if s.video.lcdc.getLsbD 2 then (16, (oamByte s (4 * 39 + 2)).toNat / 2 * 2) else (8, (oamByte s (4 * 39 + 2)).toNat)) ∧
        (7 : Nat) < 8 ∧ (15 : Nat) < 16 ∧ 9 + 8 = left + 7 ∧ 17 + 16 = y + 15 + 0 ∧ left ≤ 10 ∧ 1 + 8 < left :=
  ⟨put 0xFE9C [18, 10, 0xFF, 0x60] { cpu with video := { Video.reset with lcdc := 0x06 } }, by decide +kernel⟩

/-- The lowest and the highest work-RAM address with an echo, and the first without one. -/
theorem witness_ReadAfterWriteAndEcho :
    isEcho 0xC000 0xE000 ∧ isEcho 0xDDFF 0xFDFF ∧ ¬ isEcho 0xDE00 0xFE00 ∧ plainRam 0x8000 ∧ plainRam 0xFE9F ∧ ¬ plainRam 0xFEA0 ∧
      plainRam 0xFFFE ∧ ¬ plainRam 0xFFFF := by
  unfold isEcho plainRam
  decide

theorem witness_DroppedWritesAndUnmappedReads :
    (0x7FFF : Word).toNat < 0x8000 ∧ unmappedAddr 0xFEA0 ∧ unmappedAddr 0xFEFF ∧ unmappedAddr 0xFF01 ∧ unmappedAddr 0xFF0E ∧ unmappedAddr 0xFF4C ∧ unmappedAddr 0xFF7F ∧
      ¬ unmappedAddr 0xFE9F ∧ ¬ unmappedAddr 0xFF00 ∧ ¬ unmappedAddr 0xFF50 ∧ ¬ unmappedAddr 0xFF80 := by
  refine ⟨by decide, ?_, ?_, ?_, ?_, ?_, ?_, ?_, ?_, ?_, ?_⟩ <;> unfold unmappedAddr <;> decide

theorem witness_RegisterWindowsReadBack : (0 < 48 ∧ 47 < 48) ∧ Memory.wf busy.mem := ⟨by decide, busy_wf⟩

theorem witness_BootOverlayCoversTheLowestPage :
    (∃ s : State, s.cfg.boot = some (Vector.replicate 256 0x31) ∧ s.bootEnabled = true ∧ (0x00FF : Word).toNat < 256 ∧
      256 ≤ (0x0100 : Word).toNat ∧ (0x7FFF : Word).toNat < 0x8000) ∧
    ∃ s : State, s.cfg.boot = none ∧ s.bootEnabled = false :=
  ⟨⟨{ busy with cfg := { Config.reference with boot := some (Vector.replicate 256 0x31) }, bootEnabled := true }, rfl, rfl, by decide⟩,
    ⟨State.reset, rfl, rfl⟩⟩

theorem witness_DevicesStandStillDuringAnInstruction : ∃ (i : Instr) (s t : State), exec i s = .next t ∧ i = .ldAtHlR .a :=
  ⟨.ldAtHlR .a, busy, _, rfl, rfl⟩

theorem witness_ProgramImageAndParametersAreConstant : ∃ s t : State, MemoryInv s.mem ∧ step s = .next t := by
  obtain ⟨t, h⟩ := cpuStep_next busy
  exact ⟨busy, _, busy_memoryInv, step_running rfl h⟩

theorem witness_ControlStateChangesOnlyWhereListed :
    (∃ (i : Instr) (s t : State), exec i s = .next t ∧ t.ime = true ∧ s.ime = false) ∧
    (∃ (i : Instr) (s t : State), exec i s = .next t ∧ t.imePending = true ∧ s.imePending = false) ∧
    ∃ s t : State, step s = .next t ∧ s.status = .running := by
  obtain ⟨t, h⟩ := cpuStep_next busy
  exact ⟨⟨.reti, busy, _, rfl, rfl, rfl⟩, ⟨.ei, busy, _, rfl, rfl, rfl⟩, busy, _, step_running rfl h, rfl⟩

theorem witness_OnlyListedInstructionsWriteFlags :
    ∃ (i : Instr) (s t : State), exec i s = .next t ∧ writesFlags i = false ∧ i = .decRr .hl := ⟨.decRr .hl, busy, _, rfl, rfl, rfl⟩

theorem witness_StepKeepsSoundState : ∃ s t : State, s.Inv ∧ step s = .next t := by
  obtain ⟨t, h⟩ := cpuStep_next busy
  exact ⟨busy, _, busy_inv, step_running rfl h⟩

/-- The last byte of the image and the first key above it. -/
theorem witness_HostOperations : MemoryInv busy.mem ∧ 0x7FFF < 0x8000 ∧ 0x8000 ≤ 0x8000 := ⟨busy_memoryInv, by decide, by decide⟩

end Sys2Proof.Tests
end

/-! PROOF. The statements of 10_state.md: the invariant along a step, what no step changes, which instructions write the control
state and the flags, and reset. -/

namespace Sys2Proof.Machine

/-! ### What the tick phase and the dispatch phase leave alone (R300, R320, R340, R370) -/

@[simp] theorem tickPhase_mem (s : State) : (tickPhase s).mem = s.mem := by simp [tickPhase]

@[simp] theorem tickPhase_cfg (s : State) : (tickPhase s).cfg = s.cfg := by simp [tickPhase]

@[simp] theorem tickPhase_romLoaded (s : State) : (tickPhase s).romLoaded = s.romLoaded := by simp [tickPhase]

@[simp] theorem tickPhase_bootEnabled (s : State) : (tickPhase s).bootEnabled = s.bootEnabled := by simp [tickPhase]

@[simp] theorem tickPhase_imePending (s : State) : (tickPhase s).imePending = s.imePending := by simp [tickPhase]

@[simp] theorem tickPhase_status (s : State) : (tickPhase s).status = s.status := by simp [tickPhase]

@[simp] theorem dispatchPhase_status (s : State) : (dispatchPhase s).status = s.status := by
  rcases dispatchPhase_cases s with h | ⟨k, -, -, -, h⟩ <;> simp [h]

/-- Taking an interrupt clears `ime_pending` (R320), so the dispatch phase never raises it. -/
theorem dispatchPhase_imePending {s : State} (h : (dispatchPhase s).imePending = true) : s.imePending = true := by
  rcases dispatchPhase_cases s with h' | ⟨k, -, -, -, h'⟩ <;> rw [h'] at h
  · exact h
  · simp at h

/-! ### The control state (R30, R31, R33) -/

/-- Which instructions raise IME and `ime_pending`, and which change the status. -/
theorem exec_control {i : Instr} {s t : State} (h : exec i s = .next t) :
    (t.ime = true → s.ime = true ∨ i = .reti ∨ (i = .ei ∧ s.cfg.eiDelay = false)) ∧
    (t.imePending = true → s.imePending = true ∨ (i = .ei ∧ s.cfg.eiDelay = true)) ∧
    (t.status = s.status ∨ (t.status = .stopped ∧ ((∃ n, i = .stop n) ∨ ∃ op, i = .illegal op))) := by
  by_cases hi : changesControl i = false
  · obtain ⟨hime, hpending, -, hstatus, -, -⟩ := exec_sameControl h hi
    exact ⟨fun hraised => .inl (hime ▸ hraised), fun hraised => .inl (hpending ▸ hraised), .inl hstatus⟩
  · cases i
    case ei =>
      obtain rfl := next_inj h
      cases hdelay : s.cfg.eiDelay
      · exact ⟨fun _ => .inr (.inr ⟨rfl, rfl⟩), fun hraised => .inl hraised, .inl rfl⟩
      · exact ⟨fun hraised => .inl hraised, fun _ => .inr ⟨rfl, rfl⟩, .inl rfl⟩
    case di =>
      obtain rfl := next_inj h
      exact ⟨nofun, nofun, .inl rfl⟩
    case reti =>
      obtain rfl := next_inj h
      exact ⟨fun _ => .inr (.inl rfl), nofun, .inl rfl⟩
    case halt =>
      obtain rfl := next_inj h
      exact ⟨.inl, .inl, .inl rfl⟩
    case stop n =>
      obtain rfl := next_inj h
      exact ⟨.inl, .inl, .inr ⟨rfl, .inl ⟨n, rfl⟩⟩⟩
    case illegal op =>
      obtain rfl := next_inj h
      exact ⟨.inl, .inl, .inr ⟨rfl, .inr ⟨op, rfl⟩⟩⟩
    all_goals exact absurd rfl hi

/-- The end of the delay of `EI` only clears `ime_pending` (R301). -/
theorem afterInstr_imePending {i : Instr} {arm : Bool} {s : State} (h : (afterInstr i arm s).imePending = true) :
    s.imePending = true := by
  unfold afterInstr armIme at h
  split at h
  · exact h
  · split at h
    · cases h
    · exact h

/-- The CPU step raises `ime_pending` only with `EI_DELAY` = 1 (R31). -/
theorem cpuStep_imePending {s t : State} (h : cpuStep s = .next t) (ht : t.imePending = true) :
    s.imePending = true ∨ s.cfg.eiDelay = true := by
  by_cases hs : s.status = .running
  · rcases cpuStep_cases hs with ⟨-, h'⟩ | ⟨-, -, -, h'⟩ | ⟨-, -, u, hu, h'⟩ <;> obtain rfl := next_inj (h'.symm.trans h)
    · exact .inl ht
    · exact .inl ht
    · obtain ⟨-, hpending, -⟩ := exec_control hu
      exact (hpending (afterInstr_imePending ht)).imp_right And.right
  · obtain rfl := next_inj ((cpuStep_atRest hs).symm.trans h)
    exact .inl ht

/-- The CPU step of a RUNNING machine leaves it RUNNING or STOPPED (R33). -/
theorem cpuStep_status {s t : State} (h : cpuStep s = .next t) (hs : s.status = .running) :
    t.status = .running ∨ t.status = .stopped := by
  rcases cpuStep_cases hs with ⟨-, h'⟩ | ⟨-, -, -, h'⟩ | ⟨-, -, u, hu, h'⟩ <;> obtain rfl := next_inj (h'.symm.trans h)
  · exact .inr rfl
  · exact .inl hs
  · obtain ⟨-, -, hstatus⟩ := exec_control hu
    rw [afterInstr_status]
    exact hstatus.imp (fun hsame => hsame.trans hs) And.left

/-! ### The invariant, phase by phase (R46) -/

/-- A state whose hidden video state is as before keeps the bounds of the video unit. -/
theorem SameHidden.videoInv {s t : State} (h : SameHidden s t) (hs : VideoInv s.video) : VideoInv t.video where
  lyRange := h.ly ▸ hs.lyRange
  vblankLines := by rw [h.mode, h.ly]; exact hs.vblankLines
  modeClock := by rw [h.modeClock, h.mode]; exact hs.modeClock
  framebuffer := h.framebuffer ▸ hs.framebuffer

/-- Register writes and byte stores keep a sound state sound, if they raise `ime_pending` only with `EI_DELAY` = 1. -/
theorem Stored.inv {s t : State} (h : Stored s t) (hs : s.Inv)
    (hpending : t.imePending = true → s.imePending = true ∨ s.cfg.eiDelay = true) : t.Inv where
  memory := h.memory hs.memory
  timer := ⟨h.divAcc hs.timer.divAcc, h.hidden.timaAcc ▸ hs.timer.timaAcc⟩
  video := h.hidden.videoInv hs.video
  imePending ht := h.cfg ▸ (hpending ht).elim hs.imePending id
  boot ht := h.cfg ▸ hs.boot (h.boot ht)

/-- A tick of the video unit keeps its bounds: the loop of transitions has fuel enough to end below the mode's duration (R384,
R389), and `CompareLine` touches none of the bounded fields. -/
theorem videoTick_inv {s : State} (h : VideoInv s.video) (n : Nat) : VideoInv (videoTick n s).video := by
  have hstart : VideoShape (s.addClock n).video := ⟨h.lyRange, h.vblankLines, h.framebuffer⟩
  have hfuel : (s.addClock n).video.modeClock < 80 * transitionFuel n s := by
    simp only [State.addClock, transitionFuel]
    omega
  obtain ⟨⟨hly, hvblank, hframebuffer⟩, -, hclock⟩ := runTransitions_shape (transitionFuel n s) hstart
  unfold videoTick
  exact ⟨by simpa using hly, by simpa using hvblank, by simpa using hclock hfuel, by simpa using hframebuffer⟩

theorem cpuStep_inv {s t : State} (hs : s.Inv) (h : cpuStep s = .next t) : t.Inv :=
  (cpuStep_stored h).inv hs (cpuStep_imePending h)

theorem tickPhase_inv {s : State} (hs : s.Inv) : (tickPhase s).Inv where
  memory := by simpa using hs.memory
  timer := by simpa [tickPhase] using timerTick_inv hs.timer (4 * s.quanta)
  video := videoTick_inv (by simpa using hs.video) _
  imePending := by simpa using hs.imePending
  boot := by simpa using hs.boot

theorem dispatchPhase_inv {s : State} (hs : s.Inv) : (dispatchPhase s).Inv :=
  (dispatchPhase_stored s).inv hs fun h => .inl (dispatchPhase_imePending h)

/-- Settles O58: the machine at rest changes only the recorded cost; otherwise each of the three phases of the step keeps the
invariant. -/
theorem stepKeepsSoundState : Obligations.StepKeepsSoundState := by
  intro s t hs h
  rcases step_cases h with ⟨hrest, rfl⟩ | ⟨-, u, hu, rfl⟩
  · exact cpuStep_inv hs (cpuStep_atRest hrest)
  · exact dispatchPhase_inv (tickPhase_inv (cpuStep_inv hs hu))

/-! ### What no step changes (R42, R65, R68) -/

/-- Settles O54: the CPU step and the dispatch phase are chains of byte stores, which drop at the image's addresses, and the ticks
touch neither the byte arrays nor the parameters. -/
theorem programImageAndParametersAreConstant : Obligations.ProgramImageAndParametersAreConstant := by
  intro s t hs h
  rcases step_cases h with ⟨-, rfl⟩ | ⟨-, u, hu, rfl⟩
  · exact ⟨fun _ _ => rfl, rfl, rfl, id⟩
  · have hcpu := cpuStep_stored hu
    have hdispatch := dispatchPhase_stored (tickPhase u)
    refine ⟨fun k hk => ?_, ?_, ?_, fun hboot => ?_⟩
    · have hticked : MemoryInv (tickPhase u).mem := by simpa using hcpu.memory hs
      rw [hdispatch.image hticked k hk, tickPhase_mem, hcpu.image hs k hk]
    · rw [hdispatch.cfg, tickPhase_cfg, hcpu.cfg]
    · rw [hdispatch.romLoaded, tickPhase_romLoaded, hcpu.romLoaded]
    · exact hcpu.boot (tickPhase_bootEnabled u ▸ hdispatch.boot hboot)

/-- Settles O55: `exec_control` over every instruction; the phases after the CPU step leave the status. -/
theorem controlStateChangesOnlyWhereListed : Obligations.ControlStateChangesOnlyWhereListed := by
  refine ⟨fun i s t => exec_control, fun s t h hs => ?_⟩
  rcases step_cases h with ⟨hrest, -⟩ | ⟨-, u, hu, rfl⟩
  · exact absurd hs hrest
  · rw [dispatchPhase_status, tickPhase_status]
    exact cpuStep_status hu hs

/-! ### The flags (R23) -/

/-- Settles O56: loads, stores, the stack, control transfer and the system instructions leave the flags; the rest are the
instructions of the list. -/
theorem onlyListedInstructionsWriteFlags : Obligations.OnlyListedInstructionsWriteFlags := by
  intro i s t h hi
  cases i
  case nop | halt | stop | di | illegal | jpNn | jrE | jpHl | ret | reti | ldABc | ldADe | ldANn | ldhAC | ldhAN | ldAHlInc
      | ldAHlDec | ldSpHl =>
    obtain rfl := next_inj h
    rfl
  case ei | jpCcNn | jrCcE | retCc =>
    obtain rfl := next_inj h
    split <;> rfl
  case ldRR | ldRN | ldRAtHl | resBR | setBR | ldRrNn | incRr | decRr | popRr =>
    obtain rfl := next_inj h
    simp
  case ldBcA | ldDeA | ldNnA | ldhCA | ldhNA | ldHlIncA | ldHlDecA | ldAtHlR | ldAtHlN | ldNnSp | resBAtHl | setBAtHl =>
    obtain rfl := next_inj h
    simp [storeA, writeWord]
  case pushRr | pushAf | callNn | rstT =>
    obtain rfl := next_inj h
    simp [callTo]
  case callCcNn =>
    obtain rfl := next_inj h
    split <;> simp [callTo]
  all_goals cases hi

/-! ### Reset (R44 to R46) -/

/-- A state with the devices at their reset values and empty byte arrays is sound, if `boot_enabled` says whether `BOOT` is there
(R68). -/
theorem inv_of_resetDevices {s : State} (hmem : s.mem = []) (htimer : s.timer = Timer.reset) (hvideo : s.video = Video.reset)
    (hpending : s.imePending = false) (hboot : s.bootEnabled = s.cfg.boot.isSome) : s.Inv where
  memory := by
    rw [hmem]
    exact ⟨reset_memory_wf, nofun⟩
  timer := by
    rw [htimer]
    exact ⟨by decide, by decide⟩
  video := by
    rw [hvideo]
    exact ⟨by decide, by decide, by decide, by decide⟩
  imePending h := by simp [hpending] at h
  boot h := hboot ▸ h

/-- Settles O57: both states have the devices at reset, empty byte arrays and the overlay on exactly with a BOOT image. -/
theorem resetStateIsSound : Obligations.ResetStateIsSound :=
  ⟨inv_of_resetDevices rfl rfl rfl rfl rfl, fun _ => inv_of_resetDevices rfl rfl rfl rfl rfl⟩

/-- `reset()` is the reset values with the machine started (R446). -/
theorem hostReset_eq (s : State) : hostReset s = { s.resetValues with status := .running } := rfl

/-- Settles O59: every field of the table is a reset value or kept, by the definition of the reset. -/
theorem resetZeroesRegistersAndDevices : Obligations.ResetZeroesRegistersAndDevices := by
  intro s
  simp [hostReset_eq, State.resetValues, State.reset, Timer.reset, Video.reset]

end Sys2Proof.Machine

/-! PROOF. The statements of 20_memory.md: echo RAM, dropped writes, the register windows, the boot overlay, and the host
operations that fill the image. -/

namespace Sys2Proof.Machine

/-! ### Echo RAM (R72) -/

/-- Addresses with one target are read alike. -/
theorem readByte_eq_of_busTarget {a b : Word} (h : busTarget a = busTarget b) (s : State) : readByte s a = readByte s b := by
  rw [readByte, readByte, h]

/-- Addresses with one target are written alike. -/
theorem writeByte_eq_of_busTarget {a b : Word} (h : busTarget a = busTarget b) (s : State) (v : Byte) :
    writeByte s a v = writeByte s b v := by
  rw [writeByte, writeByte, h]

/-- An echo address leads to the work-RAM byte 0x2000 below it. -/
theorem busTarget_echo {w e : Word} (h : isEcho w e) : busTarget e = busTarget w := by
  obtain ⟨hlow, hhigh, he⟩ := h
  have hw : busTarget w = .ram w.toNat := by
    simp [busTarget, show ¬ w.toNat < 0x8000 by omega, show w.toNat < 0xE000 by omega]
  rw [hw]
  simp [busTarget, he, show w.toNat + 0x2000 < 0xFE00 by omega, show ¬ w.toNat + 0x2000 < 0xE000 by omega,
    show ¬ w.toNat + 0x2000 < 0x8000 by omega]

/-- Settles O49: the frame of one store is `storesByte_writeByte`; an echo address shares its target with work RAM. -/
theorem readAfterWriteAndEcho : Obligations.ReadAfterWriteAndEcho := by
  intro s a w e v
  refine ⟨fun hs => storesByte_writeByte hs a v, fun hecho => ?_⟩
  have hplain : plainRam w := by
    obtain ⟨hlow, hhigh, -⟩ := hecho
    exact .inl (by omega)
  have htarget := busTarget_echo hecho
  have hwrite := writeByte_eq_of_busTarget htarget s v
  refine ⟨readByte_eq_of_busTarget htarget s, hwrite, fun hs => ?_⟩
  have hback : readByte (writeByte s w v) w = v := readByte_writeByte_ram hs v hplain
  rw [readByte_eq_of_busTarget htarget, hwrite]
  exact ⟨hback, hback⟩

/-! ### Dropped writes (R64, R65, R74, R376) -/

/-- The image occupies the addresses below 0x8000 (R65). -/
theorem busTarget_rom {a : Word} (h : a.toNat < 0x8000) : busTarget a = .rom a.toNat := by
  simp [busTarget, h]

/-- No owner: the gap and the empty I/O windows (R64, R74). -/
theorem busTarget_unmapped {a : Word} (h : unmappedAddr a) : busTarget a = .unmapped := by
  unfold unmappedAddr at h
  rcases busTarget_cases a with ⟨_, e⟩ | ⟨_, _, e⟩ | ⟨_, _, e⟩ | ⟨_, _, e⟩ | ⟨_, _, e⟩ | ⟨_, _, e⟩ | ⟨p, rfl, e⟩ | ⟨_, e⟩
  · omega
  · omega
  · omega
  · omega
  · omega
  · omega
  · cases p <;> simp [portAddr] at h
  · exact e

/-- A read of a register's address is the read of that register (R75, R77). -/
@[simp] theorem readByte_portAddr (s : State) (p : Port) : readByte s (portAddr p) = readPort p s := by
  rw [readByte, busTarget_portAddr]

/-- A write to a register's address is the write of that register. -/
@[simp] theorem writeByte_portAddr (s : State) (p : Port) (v : Byte) : writeByte s (portAddr p) v = writePort p v s := by
  rw [writeByte, busTarget_portAddr]

/-- Settles O50: by the targets of the three kinds of addresses. -/
theorem droppedWritesAndUnmappedReads : Obligations.DroppedWritesAndUnmappedReads := by
  intro s a v
  refine ⟨?_, fun h => by rw [readByte, busTarget_unmapped h]⟩
  rintro (hrom | hunmapped | rfl)
  · rw [writeByte, busTarget_rom hrom]
  · rw [writeByte, busTarget_unmapped hunmapped]
  · exact writeByte_portAddr s .ly v

/-! ### The register windows (R75, R77 to R83) -/

/-- The model's way to read a table at a number that is in range. -/
theorem vector_get_ofNat {α : Type} {n : Nat} [NeZero n] (xs : Vector α n) {i : Nat} (h : i < n) :
    xs.get (Fin.ofNat n i) = xs[i] := by
  rw [show Fin.ofNat n i = ⟨i, h⟩ from Fin.ext (Nat.mod_eq_of_lt h)]
  rfl

/-- The registers that read back the byte written, whole. -/
def wholeBytePorts : List Port :=
  [.joyp, .tima, .tma, .tac, .ifl, .lcdc, .scy, .scx, .lyc, .dma, .bgp, .obp0, .obp1, .wy, .wx, .ie]

theorem readPort_writePort_same {p : Port} (hp : p ∈ wholeBytePorts) (v : Byte) (s : State) :
    readPort p (writePort p v s) = v := by
  cases p
  case div | stat | ly | bootOff => exact absurd hp (by decide)
  case dma =>
    rw [writePort, oamCopy_eq]
    rfl
  all_goals rfl

/-- A write of STAT replaces the enable bits 6:3; the status bits 2:0 are those read before (R373). -/
theorem readPort_writePort_stat (v : Byte) (s : State) :
    readPort .stat (writePort .stat v s) = (v &&& 0x78) ||| (readPort .stat s &&& 0x07) := by
  simp only [readPort, writePort, statRead]
  generalize s.video.statEnable = old
  generalize BitVec.ofBool s.video.coincidence = coincidence
  generalize modeCode s.video.mode = mode
  refine BitVec.eq_of_getLsbD_eq fun i hi => ?_
  simp only [BitVec.getLsbD_or, BitVec.getLsbD_and, BitVec.getLsbD_append, BitVec.getLsbD_extractLsb']
  interval_cases i <;> simp

/-- The audio window is 48 bytes from 0xFF10 on (R75, R81). -/
theorem busTarget_audio {off : Nat} (h : off < 48) : busTarget (BitVec.ofNat 16 (0xFF10 + off)) = .audio off := by
  have ha : (BitVec.ofNat 16 (0xFF10 + off)).toNat = 0xFF10 + off := by rw [BitVec.toNat_ofNat]; omega
  rcases busTarget_cases (BitVec.ofNat 16 (0xFF10 + off)) with ⟨_, e⟩ | ⟨_, _, e⟩ | ⟨_, _, e⟩ | ⟨_, _, e⟩ | ⟨_, _, e⟩ |
    ⟨_, _, e⟩ | ⟨p, hp, e⟩ | ⟨hu, e⟩
  · omega
  · omega
  · omega
  · omega
  · rw [e, ha, Nat.add_sub_cancel_left]
  · omega
  · have hport := toNat_eq_of_portAddr hp
    cases p <;> simp [portAddr] at hport <;> omega
  · unfold unmappedAddr at hu
    omega

/-- An audio byte keeps the written bits of its mask (R81). -/
theorem readByte_writeByte_audio {s : State} (hs : Memory.wf s.mem) (v : Byte) {off : Nat} (h : off < 48) :
    readByte (writeByte s (BitVec.ofNat 16 (0xFF10 + off)) v) (BitVec.ofNat 16 (0xFF10 + off)) = v &&& s.cfg.audioWmask[off] := by
  simp only [readByte, writeByte, busTarget_audio h, State.storeKey_mem]
  rw [memRead_memWrite hs, if_pos rfl, vector_get_ofNat _ h]

/-- Settles O51: each window is a register's address, where an access is the register's own read or write, or an audio byte. -/
theorem registerWindowsReadBack : Obligations.RegisterWindowsReadBack := by
  intro s v
  refine ⟨?_, ⟨writeByte_portAddr s .div v, readByte_portAddr s .div⟩, writeByte_portAddr s .tima v, writeByte_portAddr s .tac v,
    ⟨writeByte_portAddr s .ifl v, writeByte_portAddr s .ie v⟩, ?_,
    ⟨readByte_portAddr _ .bootOff, writeByte_portAddr s .bootOff v⟩, fun off h hs => readByte_writeByte_audio hs v h⟩
  · change ∀ a ∈ wholeBytePorts.map portAddr, readByte (writeByte s a v) a = v
    rw [List.forall_mem_map]
    intro p hp
    simpa using readPort_writePort_same hp v s
  · change readByte (writeByte s (portAddr .stat) v) (portAddr .stat) = (v &&& 0x78) ||| (readByte s (portAddr .stat) &&& 0x07) ∧
      (writeByte s (portAddr .stat) v).ifl = s.ifl
    simp only [readByte_portAddr, writeByte_portAddr]
    exact ⟨readPort_writePort_stat v s, rfl⟩

/-! ### The boot overlay (R65, R68, R83) -/

/-- A read below 0x8000 is a read of the image or the overlay. -/
theorem readByte_rom (s : State) {a : Word} (h : a.toNat < 0x8000) : readByte s a = readRom s a.toNat := by
  rw [readByte, busTarget_rom h]

theorem readRom_overlay {s : State} {image : Vector Byte 256} (hboot : s.cfg.boot = some image) (hon : s.bootEnabled = true)
    {k : Nat} (hk : k < 256) : readRom s k = image[k] := by
  simp only [readRom, hboot, hon, hk, and_self, if_true]
  exact vector_get_ofNat image hk

theorem readRom_image {s : State} {k : Nat} (h : s.cfg.boot = none ∨ s.bootEnabled = false ∨ 256 ≤ k) :
    readRom s k = memRead s.mem k := by
  unfold readRom
  split
  next image hboot =>
    rw [if_neg]
    rintro ⟨hon, hlow⟩
    rcases h with hnone | hoff | hhigh
    · cases hboot.symm.trans hnone
    · cases hon.symm.trans hoff
    · omega
  next => rfl

/-- Settles O52: a read below 0x8000 is `readRom`, whose branch the three parts name; a write to 0xFF50 clears `boot_enabled`. -/
theorem bootOverlayCoversTheLowestPage : Obligations.BootOverlayCoversTheLowestPage := by
  intro s a v ha
  refine ⟨fun image hboot hlow hon => ?_, fun h => ?_, ?_⟩
  · rw [readByte_rom s ha, readRom_overlay hboot hon hlow]
  · rw [readByte_rom s ha, readRom_image h]
  · have hwrite : writeByte s 0xFF50 v = { s with bootEnabled := false } := writeByte_portAddr s .bootOff v
    rw [hwrite, readByte_rom _ ha, readRom_image (.inr (.inl rfl))]

/-! ### The devices during an instruction (R89) -/

/-- Settles O53: every instruction is a chain of register writes and byte stores, which reach no hidden state. -/
theorem devicesStandStillDuringAnInstruction : Obligations.DevicesStandStillDuringAnInstruction :=
  fun _ _ _ h => (exec_stored h).hidden

/-! ### Loading an image (R66, R446) -/

section SparseLists

variable {α : Type} {dflt : α}

/-- A list without the key is passed over. -/
theorem sparseRead_append {m : List (Nat × α)} {k : Nat} (hm : ∀ c ∈ m, c.1 ≠ k) (m' : List (Nat × α)) :
    sparseRead dflt (m ++ m') k = sparseRead dflt m' k := by
  induction m with
  | nil => rfl
  | cons cell m ih =>
    obtain ⟨hcell, hrest⟩ := List.forall_mem_cons.mp hm
    rw [List.cons_append, sparseRead, if_neg hcell, ih hrest]

/-- Dropping cells of other keys does not change a read. -/
theorem sparseRead_filter (keep : Nat → Bool) {k : Nat} (hk : keep k = true) (m : List (Nat × α)) :
    sparseRead dflt (m.filter fun c => keep c.1) k = sparseRead dflt m k := by
  induction m with
  | nil => rfl
  | cons cell m ih =>
    by_cases hcell : keep cell.1 = true
    · simp [sparseRead, hcell, ih]
    · have hother : cell.1 ≠ k := by
        rintro rfl
        exact hcell hk
      simp [sparseRead, hcell, hother, ih]

variable [DecidableEq α]

theorem mem_sparseCons {cell c : Nat × α} {m : List (Nat × α)} (h : c ∈ sparseCons dflt cell m) : c = cell ∨ c ∈ m := by
  unfold sparseCons at h
  split at h
  · exact .inr h
  · exact List.mem_cons.mp h

theorem sparseCons_append (cell : Nat × α) (m m' : List (Nat × α)) :
    sparseCons dflt cell m ++ m' = sparseCons dflt cell (m ++ m') := by
  unfold sparseCons
  split <;> rfl

/-- A cell put before greater keys keeps the canonical form. -/
theorem sparseCons_wf {cell : Nat × α} {m : List (Nat × α)} (hm : sparseWf dflt m) (hlt : ∀ c ∈ m, cell.1 < c.1) :
    sparseWf dflt (sparseCons dflt cell m) := by
  obtain ⟨hsorted, hlisted⟩ := hm
  unfold sparseCons
  split
  next => exact ⟨hsorted, hlisted⟩
  next hv => exact ⟨List.pairwise_cons.mpr ⟨hlt, hsorted⟩, List.forall_mem_cons.mpr ⟨hv, hlisted⟩⟩

end SparseLists

/-- The image's cells lie between the first key and 0x8000. -/
theorem imageCells_range {k : Nat} {image : List Byte} {c : Host.Cell} (h : c ∈ imageCells k image) : k ≤ c.1 ∧ c.1 < 0x8000 := by
  induction image generalizing k with
  | nil => cases h
  | cons v rest ih =>
    rw [imageCells] at h
    split at h
    next hk =>
      rcases mem_sparseCons h with rfl | hrest
      · exact ⟨le_rfl, hk⟩
      · obtain ⟨hlow, hhigh⟩ := ih hrest
        exact ⟨by omega, hhigh⟩
    next => cases h

theorem imageCells_wf (k : Nat) (image : List Byte) : Memory.wf (imageCells k image) := by
  induction image generalizing k with
  | nil => exact ⟨.nil, nofun⟩
  | cons v rest ih =>
    rw [imageCells]
    split
    · exact sparseCons_wf (ih _) fun c hc => (imageCells_range hc).1
    · exact ⟨.nil, nofun⟩

/-- Key `k` of the image from key `first` on, before cells above the image, is its byte or the padding. -/
theorem memRead_imageCells {first k : Nat} (hfirst : first ≤ k) (hk : k < 0x8000) {above : Memory}
    (habove : ∀ c ∈ above, 0x8000 ≤ c.1) (image : List Byte) :
    memRead (imageCells first image ++ above) k = image.getD (k - first) 0 := by
  induction image generalizing first with
  | nil => exact sparseRead_of_lt _ _ fun c hc => lt_of_lt_of_le hk (habove c hc)
  | cons v rest ih =>
    have hunlisted : first = k → memRead (imageCells (first + 1) rest ++ above) k = unlistedByte := by
      rintro rfl
      refine sparseRead_of_lt _ _ fun c hc => ?_
      rcases List.mem_append.mp hc with himage | hc'
      · exact (imageCells_range himage).1
      · exact lt_of_lt_of_le hk (habove c hc')
    rw [imageCells, if_pos (by omega), sparseCons_append, memRead, sparseCons_read _ _ _ hunlisted]
    split
    next heq =>
      obtain rfl : first = k := heq
      rw [Nat.sub_self, List.getD_cons_zero]
    next hne =>
      have hlt : first < k := lt_of_le_of_ne hfirst hne
      rw [show k - first = k - (first + 1) + 1 by omega, List.getD_cons_succ]
      exact ih hlt

/-- The cells that loading an image keeps: those above it. -/
theorem keptCells_range {m : Memory} {c : Host.Cell} (h : c ∈ m.filter fun cell => decide (0x8000 ≤ cell.1)) : 0x8000 ≤ c.1 :=
  of_decide_eq_true (List.mem_filter.mp h).2

/-- The loaded image, padded with 0x00 and cut at 0x8000. -/
theorem memRead_loadImage_image (image : List Byte) (m : Memory) {k : Nat} (hk : k < 0x8000) :
    memRead (loadImage image m) k = image.getD k 0 :=
  memRead_imageCells (Nat.zero_le k) hk (fun _ => keptCells_range) image

/-- The other arrays keep their contents. -/
theorem memRead_loadImage_other (image : List Byte) (m : Memory) {k : Nat} (hk : 0x8000 ≤ k) :
    memRead (loadImage image m) k = memRead m k := by
  have himage : ∀ c ∈ imageCells 0 image, c.1 ≠ k := fun c hc => by
    have := (imageCells_range hc).2
    omega
  exact (sparseRead_append himage _).trans (sparseRead_filter (fun j => decide (0x8000 ≤ j)) (decide_eq_true hk) m)

/-- Loading an image keeps what memory must satisfy. -/
theorem loadImage_memoryInv (image : List Byte) {m : Memory} (hm : MemoryInv m) : MemoryInv (loadImage image m) := by
  obtain ⟨⟨hsorted, hlisted⟩, hbacked⟩ := hm
  obtain ⟨hisorted, hilisted⟩ := imageCells_wf 0 image
  refine ⟨⟨List.pairwise_append.mpr ⟨hisorted, hsorted.filter _, fun c hc d hd => ?_⟩, ?_⟩, ?_⟩
  · exact lt_of_lt_of_le (imageCells_range hc).2 (keptCells_range hd)
  · exact List.forall_mem_append.mpr ⟨hilisted, fun c hc => hlisted c (List.mem_of_mem_filter hc)⟩
  · refine List.forall_mem_append.mpr ⟨fun c hc => .inl ?_, fun c hc => hbacked c (List.mem_of_mem_filter hc)⟩
    have := (imageCells_range hc).2
    omega

/-- `loadRom` replaces the byte arrays by those with the image, and resets (R446). -/
theorem hostLoadRom_mem (image : List Byte) (s : State) : (hostLoadRom image s).mem = loadImage image s.mem := rfl

/-- Settles O60: the operations are record updates; the image is read cell by cell. -/
theorem hostOperations : Obligations.HostOperations := by
  intro s bytes
  refine ⟨rfl, rfl, rfl, rfl, fun k hk => ?_, fun k hk => ?_, fun hs => ?_⟩ <;> rw [hostLoadRom_mem]
  · exact memRead_loadImage_image bytes s.mem hk
  · exact memRead_loadImage_other bytes s.mem hk
  · exact loadImage_memoryInv bytes hs

end Sys2Proof.Machine

/-! PROOF. The statements of 30_encoding.md. An opcode byte is assembled from fields and every field value is the code of an
operand, so the rows of the encoding tables cover all bytes; decoding and encoding agree row by row. -/

namespace Sys2Proof.Machine

/-! ### The fields of an opcode byte (R101) -/

@[simp] theorem opX_opXYZ (x : BitVec 2) (y z : BitVec 3) : opX (opXYZ x y z) = x := by
  revert x y z
  decide

@[simp] theorem opY_opXYZ (x : BitVec 2) (y z : BitVec 3) : opY (opXYZ x y z) = y := by
  revert x y z
  decide

@[simp] theorem opZ_opXYZ (x : BitVec 2) (y z : BitVec 3) : opZ (opXYZ x y z) = z := by
  revert x y z
  decide

/-- The three fields are the whole byte. -/
theorem opXYZ_fields (op : Byte) : opXYZ (opX op) (opY op) (opZ op) = op := by
  revert op
  decide

/-- Every byte is assembled from its fields. -/
theorem opByte_cases {P : Byte → Prop} (h : ∀ x y z, P (opXYZ x y z)) (op : Byte) : P op :=
  opXYZ_fields op ▸ h (opX op) (opY op) (opZ op)

theorem code2_cases {P : BitVec 2 → Prop} (h0 : P 0) (h1 : P 1) (h2 : P 2) (h3 : P 3) (c : BitVec 2) : P c := by
  have hc : c = 0 ∨ c = 1 ∨ c = 2 ∨ c = 3 := by
    revert c
    decide
  rcases hc with rfl | rfl | rfl | rfl
  exacts [h0, h1, h2, h3]

theorem code3_cases {P : BitVec 3 → Prop} (h0 : P 0) (h1 : P 1) (h2 : P 2) (h3 : P 3) (h4 : P 4) (h5 : P 5) (h6 : P 6)
    (h7 : P 7) (c : BitVec 3) : P c := by
  have hc : c = 0 ∨ c = 1 ∨ c = 2 ∨ c = 3 ∨ c = 4 ∨ c = 5 ∨ c = 6 ∨ c = 7 := by
    revert c
    decide
  rcases hc with rfl | rfl | rfl | rfl | rfl | rfl | rfl | rfl
  exacts [h0, h1, h2, h3, h4, h5, h6, h7]

/-! ### The codes of the operands (R24, R104, R106, R111, R180) -/

@[simp] theorem reg8OfCode_reg8Code (r : Reg8) : reg8OfCode (reg8Code r) = some r := by cases r <;> rfl

@[simp] theorem reg8OfCode_atHlCode : reg8OfCode atHlCode = none := rfl

@[simp] theorem indexOfCode_indexCode (b : Fin 8) : indexOfCode (indexCode b) = b := rfl

@[simp] theorem rotOpOfCode_rotCode (op : RotOp) : rotOpOfCode (rotCode op) = op := by cases op <;> rfl

/-- Each 3-bit operand code names a register or the byte at HL (R24). -/
theorem operandCode_cases {P : BitVec 3 → Prop} (reg : ∀ r, P (reg8Code r)) (atHl : P atHlCode) (c : BitVec 3) : P c :=
  code3_cases (reg .b) (reg .c) (reg .d) (reg .e) (reg .h) (reg .l) atHl (reg .a) c

theorem aluCode_cases {P : BitVec 3 → Prop} (h : ∀ op, P (aluCode op)) (c : BitVec 3) : P c :=
  code3_cases (h .add) (h .adc) (h .sub) (h .sbc) (h .and) (h .xor) (h .or) (h .cp) c

theorem rotCode_cases {P : BitVec 3 → Prop} (h : ∀ op, P (rotCode op)) (c : BitVec 3) : P c :=
  code3_cases (h .rlc) (h .rrc) (h .rl) (h .rr) (h .sla) (h .sra) (h .swap) (h .srl) c

theorem indexCode_cases {P : BitVec 3 → Prop} (h : ∀ b, P (indexCode b)) (c : BitVec 3) : P c := h c.toFin

/-- The low and the high byte of a word make up the word. -/
theorem immWord_wordBytes (nn : Word) : immWord (nn.extractLsb' 0 8) (nn.extractLsb' 8 8) = nn :=
  (BitVec.extractLsb'_append_extractLsb'_eq_extractLsb' rfl).trans BitVec.extractLsb'_eq_self

/-- Two bytes are the low and the high byte of the word they make up. -/
theorem wordBytes_immWord (l h : Byte) : wordBytes (immWord l h) = [l, h] := by
  rw [wordBytes, immWord, BitVec.extractLsb'_append_eq_right, BitVec.extractLsb'_append_eq_left]

/-! ### The lengths (R100, R105) -/

/-- The encoding has the instruction's length. -/
theorem length_encode (i : Instr) : (encode i).length = i.length := by cases i <;> rfl

theorem length_range (i : Instr) : 1 ≤ i.length ∧ i.length ≤ 3 := by
  unfold Instr.length
  split <;> decide

/-! ### The load group and the ALU group (R108, R109) -/

theorem decodeBytes_ldRR (r r' : Reg8) (n1 n2 : Byte) : decodeBytes (opXYZ 1 (reg8Code r) (reg8Code r')) n1 n2 = .ldRR r r' := by
  simp [decodeBytes, decodeGroup1]

theorem decodeBytes_ldRAtHl (r : Reg8) (n1 n2 : Byte) : decodeBytes (opXYZ 1 (reg8Code r) atHlCode) n1 n2 = .ldRAtHl r := by
  simp [decodeBytes, decodeGroup1]

theorem decodeBytes_ldAtHlR (r : Reg8) (n1 n2 : Byte) : decodeBytes (opXYZ 1 atHlCode (reg8Code r)) n1 n2 = .ldAtHlR r := by
  simp [decodeBytes, decodeGroup1]

theorem decodeBytes_aluReg (op : AluOp) (r : Reg8) (n1 n2 : Byte) :
    decodeBytes (opXYZ 2 (aluCode op) (reg8Code r)) n1 n2 = aluReg r op := by
  cases op <;> simp [decodeBytes, decodeGroup2, aluCode, aluReg]

theorem decodeBytes_aluAtHl (op : AluOp) (n1 n2 : Byte) : decodeBytes (opXYZ 2 (aluCode op) atHlCode) n1 n2 = aluAtHl op := by
  cases op <;> rfl

/-! ### The 0xCB page (R111, R285) -/

/-- The rows of the 0xCB page: a second byte and the instruction it selects, by operation and operand. -/
inductive CbRow : Byte → Instr → Prop where
  | rotReg (op : RotOp) (r : Reg8) : CbRow (opXYZ 0 (rotCode op) (reg8Code r)) (rotReg r op)
  | rotAtHl (op : RotOp) : CbRow (opXYZ 0 (rotCode op) atHlCode) (rotAtHl op)
  | bitReg (b : Fin 8) (r : Reg8) : CbRow (opXYZ 1 (indexCode b) (reg8Code r)) (.bitBR b r)
  | bitAtHl (b : Fin 8) : CbRow (opXYZ 1 (indexCode b) atHlCode) (.bitBAtHl b)
  | resReg (b : Fin 8) (r : Reg8) : CbRow (opXYZ 2 (indexCode b) (reg8Code r)) (.resBR b r)
  | resAtHl (b : Fin 8) : CbRow (opXYZ 2 (indexCode b) atHlCode) (.resBAtHl b)
  | setReg (b : Fin 8) (r : Reg8) : CbRow (opXYZ 3 (indexCode b) (reg8Code r)) (.setBR b r)
  | setAtHl (b : Fin 8) : CbRow (opXYZ 3 (indexCode b) atHlCode) (.setBAtHl b)

/-- The rows cover every second byte. -/
theorem exists_cbRow (op2 : Byte) : ∃ i, CbRow op2 i := by
  cases op2 using opByte_cases with | h x y z
  cases x using code2_cases with
  | h0 => cases y using rotCode_cases with | h op =>
    cases z using operandCode_cases with
    | reg r => exact ⟨_, .rotReg op r⟩
    | atHl => exact ⟨_, .rotAtHl op⟩
  | h1 => cases y using indexCode_cases with | h b =>
    cases z using operandCode_cases with
    | reg r => exact ⟨_, .bitReg b r⟩
    | atHl => exact ⟨_, .bitAtHl b⟩
  | h2 => cases y using indexCode_cases with | h b =>
    cases z using operandCode_cases with
    | reg r => exact ⟨_, .resReg b r⟩
    | atHl => exact ⟨_, .resAtHl b⟩
  | h3 => cases y using indexCode_cases with | h b =>
    cases z using operandCode_cases with
    | reg r => exact ⟨_, .setReg b r⟩
    | atHl => exact ⟨_, .setAtHl b⟩

namespace CbRow

variable {op2 : Byte} {i : Instr}

/-- The decoder of the page answers the row's instruction. -/
theorem decodeCbPage_eq (h : CbRow op2 i) : decodeCbPage op2 = i := by
  cases h with
  | rotReg op r => cases op <;> simp [decodeCbPage, rotCode, Machine.rotReg]
  | rotAtHl op => cases op <;> rfl
  | _ => simp [decodeCbPage]

/-- The bytes of the row's instruction are 0xCB and the byte that selects it. -/
theorem encode_eq (h : CbRow op2 i) : encode i = [0xCB, op2] := by
  cases h with
  | rotReg op | rotAtHl op => cases op <;> rfl
  | _ => rfl

theorem length_eq (h : CbRow op2 i) : i.length = 2 := by
  rw [← length_encode, h.encode_eq]
  rfl

theorem wellFormed (h : CbRow op2 i) : i.wellFormed = true := by
  cases h with
  | rotReg op | rotAtHl op => cases op <;> rfl
  | _ => rfl

/-- The row's instruction has the effect its byte selects. -/
theorem exec_eq (h : CbRow op2 i) (s : State) : exec i s = .next ((cbPageEffect op2 s).cost (s.quantaOf i)) := by
  cases h with
  | rotReg op r =>
    have heffect : cbPageEffect (opXYZ 0 (rotCode op) (reg8Code r)) s = rotRegEffect op r s := by simp [cbPageEffect]
    rw [heffect]
    cases op <;> rfl
  | rotAtHl op => cases op <;> rfl
  | _ =>
    simp only [cbPageEffect, opX_opXYZ, opY_opXYZ, opZ_opXYZ, reg8OfCode_reg8Code, reg8OfCode_atHlCode, indexOfCode_indexCode]
    rfl

theorem decodes (h : CbRow op2 i) : Decodes [0xCB, op2] i :=
  decodes_two (fun _ => h.decodeCbPage_eq) h.length_eq

end CbRow

theorem cbRow_decodeCbPage (op2 : Byte) : CbRow op2 (decodeCbPage op2) := by
  obtain ⟨i, h⟩ := exists_cbRow op2
  rwa [h.decodeCbPage_eq]

/-! ### From instructions to bytes and back -/

/-- A three-byte instruction whose last two bytes are an immediate word (format `OP_NN`, R103). -/
theorem decodes_word {op : Byte} {f : Word → Instr} (h : ∀ n1 n2, decodeBytes op n1 n2 = f (immWord n1 n2))
    (nn : Word) (hl : (f nn).length = 3) : Decodes (op :: wordBytes nn) (f nn) :=
  decodes_three (by rw [h, immWord_wordBytes]) hl

/-- The bytes of an instruction decode to it, whatever follows them: a short operand is tried at each of its values, a 3-bit operand
code goes by the rows above. -/
theorem decodes_encode {i : Instr} (hi : i.wellFormed = true) : Decodes (encode i) i := by
  cases i
  case prefixCb => cases hi
  case nop | ldBcA | rlca | ldABc | rrca | ldDeA | rla | ldADe | rra | ldHlIncA | daa | ldAHlInc | cpl | ldHlDecA | incAtHl
      | decAtHl | scf | ldAHlDec | ccf | halt | ret | reti | ldhCA | jpHl | popAf | ldhAC | di | pushAf | ldSpHl | ei =>
    exact decodes_one (fun _ _ => rfl) rfl
  case stop | jrE | ldAtHlN | addAN | adcAN | subN | sbcAN | andN | xorN | orN | cpN | ldhNA | ldhAN | addSpE | ldHlSpE =>
    exact decodes_two (fun _ => rfl) rfl
  case ldNnSp nn | jpNn nn | callNn nn | ldNnA nn | ldANn nn => exact decodes_word (fun _ _ => rfl) nn rfl
  case incRr x | incR x | decR x | addHlRr x | decRr x | retCc x | popRr x | pushRr x | illegal x =>
    cases x <;> exact decodes_one (fun _ _ => rfl) rfl
  case ldRN x n | jrCcE x n => cases x <;> exact decodes_two (fun _ => rfl) rfl
  case ldRrNn x nn | jpCcNn x nn | callCcNn x nn => cases x <;> exact decodes_word (fun _ _ => rfl) nn rfl
  case rstT t => exact decodes_one (fun _ _ => by simp [decodeBytes, decodeGroup3]) rfl
  case ldRR r r' => exact decodes_one (decodeBytes_ldRR r r') rfl
  case ldRAtHl r => exact decodes_one (decodeBytes_ldRAtHl r) rfl
  case ldAtHlR r => exact decodes_one (decodeBytes_ldAtHlR r) rfl
  case addAR r => exact decodes_one (decodeBytes_aluReg .add r) rfl
  case adcAR r => exact decodes_one (decodeBytes_aluReg .adc r) rfl
  case subR r => exact decodes_one (decodeBytes_aluReg .sub r) rfl
  case sbcAR r => exact decodes_one (decodeBytes_aluReg .sbc r) rfl
  case andR r => exact decodes_one (decodeBytes_aluReg .and r) rfl
  case xorR r => exact decodes_one (decodeBytes_aluReg .xor r) rfl
  case orR r => exact decodes_one (decodeBytes_aluReg .or r) rfl
  case cpR r => exact decodes_one (decodeBytes_aluReg .cp r) rfl
  case addAAtHl | adcAAtHl | subAtHl | sbcAAtHl | andAtHl | xorAtHl | orAtHl | cpAtHl => exact decodes_one (fun _ _ => rfl) rfl
  case rlcR r => exact (CbRow.rotReg .rlc r).decodes
  case rrcR r => exact (CbRow.rotReg .rrc r).decodes
  case rlR r => exact (CbRow.rotReg .rl r).decodes
  case rrR r => exact (CbRow.rotReg .rr r).decodes
  case slaR r => exact (CbRow.rotReg .sla r).decodes
  case sraR r => exact (CbRow.rotReg .sra r).decodes
  case swapR r => exact (CbRow.rotReg .swap r).decodes
  case srlR r => exact (CbRow.rotReg .srl r).decodes
  case rlcAtHl => exact (CbRow.rotAtHl .rlc).decodes
  case rrcAtHl => exact (CbRow.rotAtHl .rrc).decodes
  case rlAtHl => exact (CbRow.rotAtHl .rl).decodes
  case rrAtHl => exact (CbRow.rotAtHl .rr).decodes
  case slaAtHl => exact (CbRow.rotAtHl .sla).decodes
  case sraAtHl => exact (CbRow.rotAtHl .sra).decodes
  case swapAtHl => exact (CbRow.rotAtHl .swap).decodes
  case srlAtHl => exact (CbRow.rotAtHl .srl).decodes
  case bitBR b r => exact (CbRow.bitReg b r).decodes
  case bitBAtHl b => exact (CbRow.bitAtHl b).decodes
  case resBR b r => exact (CbRow.resReg b r).decodes
  case resBAtHl b => exact (CbRow.resAtHl b).decodes
  case setBR b r => exact (CbRow.setReg b r).decodes
  case setBAtHl b => exact (CbRow.setAtHl b).decodes

/-- Settles O27: `decodes_encode` is the statement for one instruction. -/
theorem decodeOfEncode : Obligations.DecodeOfEncode := fun _ rest hi => decodes_encode hi rest

/-! ### From bytes to instructions and back (R102, R117) -/

/-- The bytes `op`, `n1`, `n2` begin with the encoding of `i`, whose length is fixed by `op` alone. -/
structure ReadsBack (op n1 n2 : Byte) (i : Instr) : Prop where
  wellFormed : i.wellFormed = true
  encode_eq : encode i = [op, n1, n2].take i.length
  length_eq : i.length = (decodeBytes op 0 0).length

namespace ReadsBack

variable {op n1 n2 : Byte} {i : Instr}

/-- Format `OP` (R103). -/
theorem one (hi : i.wellFormed = true) (he : encode i = [op]) (hl : i.length = (decodeBytes op 0 0).length) :
    ReadsBack op n1 n2 i :=
  ⟨hi, by rw [← length_encode, he]; rfl, hl⟩

/-- Formats `OP_N`, `OP_E`, `CB_OP` (R103). -/
theorem two (hi : i.wellFormed = true) (he : encode i = [op, n1]) (hl : i.length = (decodeBytes op 0 0).length) :
    ReadsBack op n1 n2 i :=
  ⟨hi, by rw [← length_encode, he]; rfl, hl⟩

/-- Format `OP_NN` (R103). -/
theorem word (hi : i.wellFormed = true) (he : encode i = op :: wordBytes (immWord n1 n2))
    (hl : i.length = (decodeBytes op 0 0).length) : ReadsBack op n1 n2 i :=
  ⟨hi, by rw [← length_encode, he, wordBytes_immWord]; rfl, hl⟩

end ReadsBack

/-- Group `x = 0`, by its columns `z` (R107). -/
theorem readsBack_group0 (y z : BitVec 3) (n1 n2 : Byte) :
    ReadsBack (opXYZ 0 y z) n1 n2 (decodeBytes (opXYZ 0 y z) n1 n2) := by
  cases z using code3_cases with
  | h0 =>
    cases y using code3_cases with
    | h0 => exact .one rfl rfl rfl
    | h1 => exact .word rfl rfl rfl
    | _ => exact .two rfl rfl rfl
  | h1 =>
    cases y using code3_cases with
    | h0 | h2 | h4 | h6 => exact .word rfl rfl rfl
    | _ => exact .one rfl rfl rfl
  | h6 => cases y using code3_cases <;> exact .two rfl rfl rfl
  | _ => cases y using code3_cases <;> exact .one rfl rfl rfl

/-- Group `x = 1` (R108). -/
theorem readsBack_group1 (y z : BitVec 3) (n1 n2 : Byte) :
    ReadsBack (opXYZ 1 y z) n1 n2 (decodeBytes (opXYZ 1 y z) n1 n2) := by
  cases y using operandCode_cases with
  | reg r =>
    cases z using operandCode_cases with
    | reg r' => simpa only [decodeBytes_ldRR] using .one rfl rfl (by rw [decodeBytes_ldRR])
    | atHl => simpa only [decodeBytes_ldRAtHl] using .one rfl rfl (by rw [decodeBytes_ldRAtHl])
  | atHl =>
    cases z using operandCode_cases with
    | reg r => simpa only [decodeBytes_ldAtHlR] using .one rfl rfl (by rw [decodeBytes_ldAtHlR])
    | atHl => exact .one rfl rfl rfl

/-- Group `x = 2` (R109). -/
theorem readsBack_group2 (y z : BitVec 3) (n1 n2 : Byte) :
    ReadsBack (opXYZ 2 y z) n1 n2 (decodeBytes (opXYZ 2 y z) n1 n2) := by
  cases y using aluCode_cases with | h op
  cases z using operandCode_cases with
  | reg r =>
    have hd := decodeBytes_aluReg op r
    rw [hd]
    cases op <;> exact .one rfl rfl (by rw [hd])
  | atHl => cases op <;> exact .one rfl rfl rfl

/-- Group `x = 3`, by its columns `z` (R110, R112). -/
theorem readsBack_group3 (y z : BitVec 3) (n1 n2 : Byte) :
    ReadsBack (opXYZ 3 y z) n1 n2 (decodeBytes (opXYZ 3 y z) n1 n2) := by
  cases z using code3_cases with
  | h0 =>
    cases y using code3_cases with
    | h4 | h5 | h6 | h7 => exact .two rfl rfl rfl
    | _ => exact .one rfl rfl rfl
  | h2 =>
    cases y using code3_cases with
    | h4 | h6 => exact .one rfl rfl rfl
    | _ => exact .word rfl rfl rfl
  | h3 =>
    cases y using code3_cases with
    | h0 => exact .word rfl rfl rfl
    | h1 =>
      have hrow := cbRow_decodeCbPage n1
      exact .two hrow.wellFormed hrow.encode_eq hrow.length_eq
    | _ => exact .one rfl rfl rfl
  | h4 =>
    cases y using code3_cases with
    | h0 | h1 | h2 | h3 => exact .word rfl rfl rfl
    | _ => exact .one rfl rfl rfl
  | h5 =>
    cases y using code3_cases with
    | h1 => exact .word rfl rfl rfl
    | _ => exact .one rfl rfl rfl
  | h6 => cases y using code3_cases <;> exact .two rfl rfl rfl
  | _ => cases y using code3_cases <;> exact .one rfl rfl rfl

theorem readsBack_decodeBytes (op n1 n2 : Byte) : ReadsBack op n1 n2 (decodeBytes op n1 n2) := by
  cases op using opByte_cases with | h x y z
  cases x using code2_cases with
  | h0 => exact readsBack_group0 y z n1 n2
  | h1 => exact readsBack_group1 y z n1 n2
  | h2 => exact readsBack_group2 y z n1 n2
  | h3 => exact readsBack_group3 y z n1 n2

/-- Settles O28: `readsBack_decodeBytes` for both continuations of the first byte. -/
theorem encodeOfDecode : Obligations.EncodeOfDecode := by
  intro op n1 n2 m1 m2
  obtain ⟨hwf, hencode, hlength⟩ := readsBack_decodeBytes op n1 n2
  obtain ⟨hmin, hmax⟩ := length_range (decodeBytes op n1 n2)
  exact ⟨hwf, hencode, hmin, hmax, (readsBack_decodeBytes op m1 m2).length_eq.trans hlength.symm⟩

/-! ### The 0xCB constructor and the unassigned opcodes (R112, R285, R286) -/

/-- R285 as the model reads it (log entry 12): effect and cost are those of the instruction the second byte selects. -/
theorem exec_prefixCb (op2 : Byte) (s : State) : exec (.prefixCb op2) s = exec (decodeCbPage op2) s := by
  have hrow := cbRow_decodeCbPage op2
  rw [hrow.exec_eq, State.quantaOf, hrow.encode_eq]
  rfl

/-- The first byte of the bytes that decode to `ILLEGAL` is the unassigned byte itself. -/
theorem decodeBytes_eq_illegal_iff {op n1 n2 : Byte} {v : Unassigned} : decodeBytes op n1 n2 = .illegal v ↔ op = unassignedByte v := by
  constructor
  · intro h
    have hencode := (readsBack_decodeBytes op n1 n2).encode_eq
    rw [h] at hencode
    exact (List.cons.inj hencode).1.symm
  · rintro rfl
    cases v <;> rfl

theorem exists_unassignedByte_iff {op : Byte} :
    (∃ v, op = unassignedByte v) ↔ op ∈ [(0xD3 : Byte), 0xDB, 0xDD, 0xE3, 0xE4, 0xEB, 0xEC, 0xED, 0xF4, 0xFC, 0xFD] := by
  constructor
  · rintro ⟨v, rfl⟩
    cases v <;> decide
  · intro h
    simp only [List.mem_cons, List.not_mem_nil, or_false] at h
    rcases h with h | h | h | h | h | h | h | h | h | h | h
    exacts [⟨.xD3, h⟩, ⟨.xDB, h⟩, ⟨.xDD, h⟩, ⟨.xE3, h⟩, ⟨.xE4, h⟩, ⟨.xEB, h⟩, ⟨.xEC, h⟩, ⟨.xED, h⟩, ⟨.xF4, h⟩, ⟨.xFC, h⟩,
      ⟨.xFD, h⟩]

/-- Settles O26: the rows of the 0xCB page, whose bytes are two where those of `ILLEGAL` are one, and the eleven unassigned bytes. -/
theorem prefixAndUnassignedOpcodes : Obligations.PrefixAndUnassignedOpcodes := by
  intro s op n1 n2 op2 u
  have hrow := cbRow_decodeCbPage op2
  refine ⟨⟨hrow.decodes, fun v hv => ?_, ?_⟩, ?_, rfl⟩
  · have hlength := hrow.length_eq
    rw [hv] at hlength
    cases hlength
  · exact ⟨_, (exec_prefixCb op2 s).trans (hrow.exec_eq s), hrow.exec_eq s⟩
  · simp only [decodeBytes_eq_illegal_iff]
    exact exists_unassignedByte_iff

end Sys2Proof.Machine

/-! PROOF. The statements of 40_load8.md. A row of a statement is an encoding, a next state and its cost; `meaning_row` puts
these together from the bytes `encode` gives, and the shared effects say what the next state holds. -/

namespace Sys2Proof.Machine

/-! ### A row of a statement: encoding, next state, cost -/

/-- An instruction whose bytes are `bytes` and whose meaning records its own cost: the bytes decode to it, it completes, and the
cost is the opcode's, which in the table of R450 is `q`. -/
theorem meaning_row {i : Instr} {s u : State} {bytes : List Byte} {q : Nat} {taken : Bool} {P : State → Prop}
    (hi : i.wellFormed = true) (hbytes : encode i = bytes) (hexec : exec i s = .next (u.cost (s.quantaOf i taken)))
    (hq : Cycles.reference.quanta taken bytes = q) (hP : P (u.cost (s.quantaOf i taken))) :
    Decodes bytes i ∧ ∃ t, exec i s = .next t ∧ Costs s t bytes q taken ∧ P t := by
  subst hbytes
  exact ⟨decodes_encode hi, _, hexec, costs_of rfl hq, hP⟩

/-- The bytes of an opcode with an immediate word, low byte first (R104). -/
theorem cons_wordBytes (op l h : Byte) : op :: wordBytes (h ++ l) = [op, l, h] := congrArg (op :: ·) (wordBytes_immWord l h)

/-! ### The effects of the family -/

/-- A load of a register sets it and no flag (R130 to R146). -/
theorem setReg_load (s : State) (r : Reg8) (v : Byte) (q : Nat) :
    let t := (s.setReg r v).cost q
    SetsReg s t r v ∧ t.flags = s.flags :=
  ⟨setsReg_cost s r v q, by simp⟩

/-- A store of one byte changes no register, flag or pointer (R133 to R144). -/
theorem writeByte_store {s : State} (hs : Memory.wf s.mem) (a : Word) (v : Byte) (q : Nat) :
    let t := (writeByte s a v).cost q
    StoresByte s t a v ∧ t.regs = s.regs ∧ t.flags = s.flags ∧ SamePointers s t :=
  ⟨storesByte_of hs rfl, by simp, by simp, ⟨by simp, by simp⟩⟩

/-- A load of A that moves HL (R145, R146). -/
theorem loadA_moveHl (s : State) (v : Byte) (w : Word) (q : Nat) :
    let t := ((loadA v s).setHl w).cost q
    t.regs.a = v ∧ t.hl = w ∧ t.bc = s.bc ∧ t.de = s.de ∧ t.flags = s.flags ∧ SamePointers s t ∧ OnlyRegisters s t :=
  ⟨rfl, State.setHl_hl _ w, rfl, rfl, rfl, ⟨rfl, rfl⟩, onlyRegisters_of rfl⟩

/-- A store of A that moves HL (R147, R148). -/
theorem storeA_moveHl {s : State} (hs : Memory.wf s.mem) (a w : Word) (q : Nat) :
    let t := ((storeA a s).setHl w).cost q
    StoresByte s t a s.regs.a ∧ t.regs.a = s.regs.a ∧ t.hl = w ∧ t.bc = s.bc ∧ t.de = s.de ∧ t.flags = s.flags ∧
      SamePointers s t := by
  refine ⟨storesByte_of hs rfl, ?_, State.setHl_hl _ w, ?_, ?_, ?_, ?_, ?_⟩ <;> simp [storeA, State.bc, State.de]

/-- The cost of `LD r,r'` in the table of R450. -/
theorem reference_quanta_ldRR (r r' : Reg8) : Cycles.reference.quanta true (encode (.ldRR r r')) = 1 := by
  cases r <;> cases r' <;> rfl

/-! ### The statements -/

/-- Settles O1: both meanings are `setReg`, of a register's value or of the immediate byte. -/
theorem registerLoadsSetOneRegister : Obligations.RegisterLoadsSetOneRegister := by
  intro s r r' n
  refine ⟨?_, ?_⟩
  · exact meaning_row rfl rfl rfl (reference_quanta_ldRR r r') (setReg_load s r (s.reg r') _)
  · exact meaning_row rfl rfl rfl (by cases r <;> rfl) (setReg_load s r n _)

/-- Settles O2: each meaning is `setReg` of the byte read in the old state. -/
theorem memoryLoadsReadTheAddressedByte : Obligations.MemoryLoadsReadTheAddressedByte := by
  intro s r n lo hi
  simp only [← highPage_eq]
  refine ⟨?_, ?_, ?_, ?_, ?_, ?_⟩
  · exact meaning_row rfl rfl rfl (by cases r <;> rfl) (setReg_load s r (readByte s s.hl) _)
  · exact meaning_row rfl rfl rfl rfl (setReg_load s .a (readByte s s.bc) _)
  · exact meaning_row rfl rfl rfl rfl (setReg_load s .a (readByte s s.de) _)
  · exact meaning_row rfl (cons_wordBytes 0xFA lo hi) rfl rfl (setReg_load s .a (readByte s (hi ++ lo)) _)
  · exact meaning_row rfl rfl rfl rfl (setReg_load s .a (readByte s (highPage s.regs.c)) _)
  · exact meaning_row rfl rfl rfl rfl (setReg_load s .a (readByte s (highPage n)) _)

/-- Settles O3: each meaning is one `writeByte`, whose frame is `storesByte_of`. -/
theorem memoryStoresWriteOneByte : Obligations.MemoryStoresWriteOneByte := by
  intro s r n lo hi hs
  simp only [← highPage_eq]
  refine ⟨?_, ?_, ?_, ?_, ?_, ?_, ?_⟩
  · exact meaning_row rfl (by cases r <;> rfl) rfl (by cases r <;> rfl) (writeByte_store hs s.hl (s.reg r) _)
  · exact meaning_row rfl rfl rfl rfl (writeByte_store hs s.hl n _)
  · exact meaning_row rfl rfl rfl rfl (writeByte_store hs s.bc s.regs.a _)
  · exact meaning_row rfl rfl rfl rfl (writeByte_store hs s.de s.regs.a _)
  · exact meaning_row rfl (cons_wordBytes 0xEA lo hi) rfl rfl (writeByte_store hs (hi ++ lo) s.regs.a _)
  · exact meaning_row rfl rfl rfl rfl (writeByte_store hs (highPage s.regs.c) s.regs.a _)
  · exact meaning_row rfl rfl rfl rfl (writeByte_store hs (highPage n) s.regs.a _)

/-- Settles O4: a load of A or a store of A at the old HL, then `setHl`. -/
theorem incrementingLoadsMoveHl : Obligations.IncrementingLoadsMoveHl := by
  intro s hs
  refine ⟨?_, ?_, ?_, ?_⟩
  · exact meaning_row rfl rfl rfl rfl (loadA_moveHl s (readByte s s.hl) (s.hl + 1) _)
  · exact meaning_row rfl rfl rfl rfl (loadA_moveHl s (readByte s s.hl) (s.hl - 1) _)
  · exact meaning_row rfl rfl rfl rfl (storeA_moveHl hs s.hl (s.hl + 1) _)
  · exact meaning_row rfl rfl rfl rfl (storeA_moveHl hs s.hl (s.hl - 1) _)

/-- Settles O29: nine words are encodings, the last one followed by a further byte; the prefix alone ends too early. -/
theorem decodesSampleWords : Obligations.DecodesSampleWords := by
  refine ⟨?_, ?_, ?_, ?_, ?_, ?_, ?_, ?_, ?_, rfl⟩
  · exact decodes_encode (i := .ldRN .a 0x42) rfl []
  · exact decodes_encode (i := .ldNnSp 0xC100) rfl []
  · exact decodes_encode (i := .addAR .l) rfl []
  · exact decodes_encode (i := .addHlRr .sp) rfl []
  · exact decodes_encode (i := .swapR .c) rfl []
  · exact decodes_encode (i := .setBAtHl 7) rfl []
  · exact decodes_encode (i := .jpCcNn .c 0x1234) rfl []
  · exact decodes_encode (i := .rstT 5) rfl []
  · exact decodes_encode (i := .stop 0x55) rfl [0x99]

end Sys2Proof.Machine

/-! PROOF. The statements of 41_load16.md: a pair or SP set, a word stored in two bytes, a word popped. The rows are put together
by `meaning_row`. -/

namespace Sys2Proof.Machine

/-! ### The pairs of the stack instructions (R25) -/

@[simp] theorem State.cost_stkPair (s : State) (q : Nat) (qq : StkReg) : (s.cost q).stkPair qq = s.stkPair qq := by
  cases qq <;> rfl

@[simp] theorem dropWord_stkPair (s : State) (qq : StkReg) : (dropWord s).stkPair qq = s.stkPair qq := by cases qq <;> rfl

/-- Writing one pair leaves the others (R21). -/
theorem State.setStkPair_stkPair_other (s : State) (w : Word) {qq x : StkReg} (h : x ≠ qq) :
    (s.setStkPair qq w).stkPair x = s.stkPair x := by
  cases qq <;> cases x
  case bc.bc | de.de | hl.hl => exact absurd rfl h
  all_goals rfl

@[simp] theorem State.setStkPair_regs_a (s : State) (qq : StkReg) (w : Word) : (s.setStkPair qq w).regs.a = s.regs.a := by
  cases qq <;> rfl

@[simp] theorem hi_af (s : State) : hi s.af = s.regs.a := hi_join _ _

@[simp] theorem lo_af (s : State) : lo s.af = s.flags.toByte := lo_join _ _

/-! ### The effects of the family -/

/-- A load of a pair or SP sets it and no flag (R160, R162). -/
theorem setPair_load (s : State) (rr : Reg16) (w : Word) (q : Nat) :
    let t := (s.setPair rr w).cost q
    SetsPair s t rr w ∧ t.flags = s.flags :=
  ⟨setsPair_cost s rr w q, by simp⟩

/-- The flags of `SP + e` over numbers (R163). -/
theorem flagsAre_spPlusFlags (sp : Word) (e : Byte) :
    FlagsAre (spPlusFlags sp e) False False (sp.toNat % 16 + e.toNat % 16 > 15) (sp.toNat % 256 + e.toNat > 255) := by
  simp [FlagsAre, spPlusFlags]

/-- `HL <- SP + e` with the flags of the low byte's addition (R163). -/
theorem setHl_spPlus (s : State) (e : Byte) (q : Nat) :
    let t := ((s.setHl (spPlus s.sp e)).setFlags (spPlusFlags s.sp e)).cost q
    SetsPair s t .hl (BitVec.ofInt 16 ((s.sp.toNat : Int) + e.toInt)) ∧
      FlagsAre t.flags False False (s.sp.toNat % 16 + e.toNat % 16 > 15) (s.sp.toNat % 256 + e.toNat > 255) :=
  ⟨spPlus_eq s.sp e ▸ setsPair_flags_cost s .hl _ _ q, flagsAre_spPlusFlags s.sp e⟩

/-- A store of a word at `a`, low byte first, changes no register, flag or pointer (R161). -/
theorem writeWord_store {s : State} (hs : Memory.wf s.mem) (a w : Word) (q : Nat) :
    let t := (writeWord s a w).cost q
    StoresTwo s t a (lo w) (a + 1) (hi w) ∧ t.regs = s.regs ∧ t.flags = s.flags ∧ SamePointers s t :=
  ⟨storesTwo_of hs rfl, by simp [writeWord], by simp [writeWord], by simp [writeWord], by simp [writeWord]⟩

/-- A push moves SP down by 2 and changes no register or flag (R164, R165). -/
theorem push16_store {s : State} (hs : Memory.wf s.mem) (w : Word) (q : Nat) :
    let t := (push16 w s).cost q
    t.sp = s.sp - 2 ∧ StoresTwo s t (s.sp - 1) (hi w) (s.sp - 2) (lo w) ∧ t.regs = s.regs ∧ t.flags = s.flags ∧ t.pc = s.pc := by
  refine ⟨by simp, storesTwo_of hs ?_, by simp, by simp, by simp⟩
  rw [push16_eq]
  rfl

/-- A push with SP = 0x0000 stores the high byte at 0xFFFF, which is IE, and the low byte in HRAM (R441). -/
theorem push16_ie_of_sp_zero {s : State} (hsp : s.sp = 0) (w : Word) : (push16 w s).ie = hi w := by
  have hie : writeByte s 0xFFFF (hi w) = { s with ie := hi w } := writeByte_portAddr s .ie (hi w)
  have hhram : busTarget 0xFFFE = .ram 0xFFFE := by decide
  have hpush : (push16 w s).ie = (writeByte (writeByte s 0xFFFF (hi w)) 0xFFFE (lo w)).ie := by
    rw [push16_eq, hsp]
    rfl
  rw [hpush, hie, writeByte, hhram]
  rfl

/-- A pop of a pair moves SP up by 2 and changes nothing else (R166). -/
theorem popPair (s : State) (qq : StkReg) (w : Word) (q : Nat) :
    let t := ((dropWord s).setStkPair qq w).cost q
    t.sp = s.sp + 2 ∧ t.stkPair qq = w ∧ (∀ x, x ≠ qq → t.stkPair x = s.stkPair x) ∧ t.regs.a = s.regs.a ∧
      t.flags = s.flags ∧ t.pc = s.pc ∧ OnlyRegisters s t := by
  refine ⟨by simp [dropWord], by simp, fun x hx => ?_, by simp [dropWord], by simp [dropWord], by simp [dropWord],
    onlyRegisters_of ?_⟩
  · simp [State.setStkPair_stkPair_other _ w hx]
  · cases qq <;> rfl

/-- A pop of AF sets A and the flags and moves SP up by 2; the low nibble of F is dropped (R167). -/
theorem popAf_join (s : State) (h l : Byte) (q : Nat) :
    let t := ((dropWord s).setAf (join h l)).cost q
    t.sp = s.sp + 2 ∧ t.regs.a = h ∧ t.flags.z = l.getLsbD 7 ∧ t.flags.n = l.getLsbD 6 ∧ t.flags.h = l.getLsbD 5 ∧
      t.flags.c = l.getLsbD 4 ∧ (∀ x, x ≠ .a → t.reg x = s.reg x) ∧ t.pc = s.pc ∧ OnlyRegisters s t := by
  have hflags : flagsOfByte (lo (join h l)) = flagsOfByte l := by rw [lo_join]
  refine ⟨rfl, hi_join h l, congrArg Flags.z hflags, congrArg Flags.n hflags, congrArg Flags.h hflags, congrArg Flags.c hflags,
    fun x hx => ?_, rfl, onlyRegisters_of rfl⟩
  cases x with
  | a => exact absurd rfl hx
  | _ => rfl

/-! ### The statements -/

/-- Settles O5: the first two meanings are `setPair`; the third also writes the flags of `SP + e`. -/
theorem pairLoadsSetOnePair : Obligations.PairLoadsSetOnePair := by
  intro s rr l h e
  refine ⟨?_, ?_, ?_⟩
  · exact meaning_row rfl (by cases rr <;> exact cons_wordBytes _ l h) rfl (by cases rr <;> rfl) (setPair_load s rr (h ++ l) _)
  · exact meaning_row rfl rfl rfl rfl (setPair_load s .sp s.hl _)
  · exact meaning_row rfl rfl rfl rfl (setHl_spPlus s e _)

/-- Settles O6: a word stored low byte first, or pushed high byte first; the pushed AF is A and the flags byte. -/
theorem wordStoresWriteTwoBytes : Obligations.WordStoresWriteTwoBytes := by
  intro s qq l h w hs
  have haf := push16_store hs s.af
  simp only [hi_af, lo_af] at haf
  refine ⟨?_, ?_, ?_, fun hsp => ⟨push16_ie_of_sp_zero hsp w, ?_, ?_⟩⟩
  · exact meaning_row rfl (cons_wordBytes 0x08 l h) rfl rfl (writeWord_store hs (h ++ l) s.sp _)
  · exact meaning_row rfl (by cases qq <;> rfl) rfl (by cases qq <;> rfl) (push16_store hs (s.stkPair qq) _)
  · exact meaning_row rfl rfl rfl rfl (haf _)
  · have hback := (storesTwo_push16 hs w).second
    rw [hsp] at hback
    exact hback (.inr (by decide))
  · rw [push16_sp, hsp]
    rfl

/-- Settles O7: both meanings write the word read at the old SP, the byte at SP low. -/
theorem popReadsTwoBytesAtSp : Obligations.PopReadsTwoBytesAtSp := by
  intro s qq
  refine ⟨?_, ?_⟩
  · exact meaning_row rfl (by cases qq <;> rfl) rfl (by cases qq <;> rfl) (popPair s qq (stackTop s) _)
  · exact meaning_row rfl rfl rfl rfl (popAf_join s (readByte s (s.sp + 1)) (readByte s s.sp) _)

end Sys2Proof.Machine

/-! PROOF. The statements of 42_alu8.md. The ALU operations, `INC`, `DEC`, `DAA` and the operations on flags compute a byte and
four flags; each is said over numbers once, and the rows are put together by `meaning_row`. -/

namespace Sys2Proof.Machine

/-! ### The ALU operations (R180) -/

/-- The register forms are one effect, by the operation. -/
theorem exec_aluReg (op : AluOp) (r : Reg8) (s : State) :
    exec (aluReg r op) s = .next ((aluEffect op (s.reg r) s).cost (s.quantaOf (aluReg r op))) := by
  cases op <;> rfl

/-- The `(HL)` forms are one effect, by the operation. -/
theorem exec_aluAtHl (op : AluOp) (s : State) :
    exec (aluAtHl op) s = .next ((aluEffect op (readByte s s.hl) s).cost (s.quantaOf (aluAtHl op))) := by
  cases op <;> rfl

/-- The immediate forms are one effect, by the operation. -/
theorem exec_aluImm (op : AluOp) (n : Byte) (s : State) :
    exec (aluImm n op) s = .next ((aluEffect op n s).cost (s.quantaOf (aluImm n op))) := by
  cases op <;> rfl

/-- An ALU operation meets the table of R180 and writes no register but A. -/
theorem aluEffect_table (op : AluOp) (v : Byte) (s : State) (q : Nat) :
    let t := (aluEffect op v s).cost q
    AluResult op s.regs.a v s.flags.c t.regs.a t.flags ∧ SetsReg s t .a t.regs.a :=
  ⟨aluOp_result op s.regs.a v s.flags.c, setsReg_flags_cost s .a _ _ q⟩

/-! ### Addition (R17) -/

theorem add8_res (a v : Byte) (c : Bool) : (add8 a v c).res.toNat = (a.toNat + v.toNat + c.toNat) % 256 := by
  simp [add8, bitNat]

/-- The half carry. -/
theorem add8_h (a v : Byte) (c : Bool) : (add8 a v c).h = true ↔ a.toNat % 16 + v.toNat % 16 + c.toNat > 15 := decide_eq_true_iff

/-- The carry. -/
theorem add8_c (a v : Byte) (c : Bool) : (add8 a v c).c = true ↔ a.toNat + v.toNat + c.toNat > 255 := decide_eq_true_iff

/-- `SUB` of the operand just added gives back the first operand. -/
theorem sub8_add8_res (a v : Byte) : (sub8 (add8 a v false).res v false).res = a := by
  have hback := sub8_res (add8 a v false).res v false
  rw [add8_res, Bool.toNat_false] at hback
  bv_omega

/-- `SUB` of the operand just added borrows exactly when the addition carried. -/
theorem sub8_add8_c (a v : Byte) : (sub8 (add8 a v false).res v false).c = (add8 a v false).c := by
  have ha := a.isLt
  have hv := v.isLt
  rw [Bool.eq_iff_iff, sub8_c, add8_c, add8_res, Bool.toNat_false]
  omega

/-! ### `INC` and `DEC` (R205, R207) -/

/-- `INC` over numbers. -/
theorem incByte_eq (v : Byte) : incByte v = BitVec.ofNat 8 (v.toNat + 1) := by
  unfold incByte
  bv_omega

/-- `DEC` over numbers: subtracting 1 is adding 255 modulo 256. -/
theorem decByte_eq (v : Byte) : decByte v = BitVec.ofNat 8 (v.toNat + 255) := by
  unfold decByte
  bv_omega

/-- The flags of `INC` over numbers; fC is kept. -/
theorem flagsAre_incFlags (v : Byte) (f : Flags) :
    FlagsAre (incFlags v f) (v.toNat = 255) False (v.toNat % 16 = 15) (f.c = true) := by
  have hz : incByte v = 0 ↔ v.toNat = 255 := by
    unfold incByte
    bv_omega
  exact ⟨decide_eq_true_iff.trans hz, by simp [incFlags], decide_eq_true_iff, Iff.rfl⟩

/-- The flags of `DEC` over numbers; fC is kept. -/
theorem flagsAre_decFlags (v : Byte) (f : Flags) :
    FlagsAre (decFlags v f) (v.toNat = 1) True (v.toNat % 16 = 0) (f.c = true) := by
  have hz : decByte v = 0 ↔ v.toNat = 1 := by
    unfold decByte
    bv_omega
  exact ⟨decide_eq_true_iff.trans hz, by simp [decFlags], decide_eq_true_iff, Iff.rfl⟩

/-- A store of one byte that also writes flags changes no register or pointer (R206, R208). -/
theorem writeByte_flags_store {s : State} (hs : Memory.wf s.mem) (a : Word) (v : Byte) (f : Flags) (q : Nat) :
    let t := ((writeByte s a v).setFlags f).cost q
    StoresByte s t a v ∧ t.regs = s.regs ∧ SamePointers s t :=
  ⟨storesByte_of hs rfl, by simp, ⟨by simp, by simp⟩⟩

/-! ### `DAA` (R209) -/

/-- After an addition the correction is added. -/
theorem daaResult_add {f : Flags} (hn : f.n = false) (a : Byte) : (daaResult a f).toNat = (a.toNat + daaCorrection a f) % 256 := by
  simp [daaResult, hn]

/-- After a subtraction the correction is subtracted: adding it back gives the old A. -/
theorem daaResult_sub {f : Flags} (hn : f.n = true) (a : Byte) : ((daaResult a f).toNat + daaCorrection a f) % 256 = a.toNat := by
  have h := toNat_ofInt8 ((a.toNat : Int) - daaCorrection a f)
  have ha := a.isLt
  simp only [daaResult, hn, if_true]
  omega

/-- The correction after an addition, by the tests on the old A. -/
theorem daaCorrection_add {f : Flags} (hn : f.n = false) (a : Byte) :
    daaCorrection a f = (if f.h = true ∨ a.toNat % 16 > 9 then 6 else 0) + (if f.c = true ∨ a.toNat > 0x99 then 0x60 else 0) := by
  simp [daaCorrection, hn]

/-- The correction after a subtraction, by the flags alone. -/
theorem daaCorrection_sub {f : Flags} (hn : f.n = true) (a : Byte) :
    daaCorrection a f = (if f.h = true then 6 else 0) + (if f.c = true then 0x60 else 0) := by
  simp [daaCorrection, hn]

/-- After an addition fC becomes 1 where A was above 0x99. -/
theorem daaFlags_c_add {f : Flags} (hn : f.n = false) (a : Byte) : (daaFlags a f).c = true ↔ f.c = true ∨ a.toNat > 0x99 := by
  simp [daaFlags, hn]

/-- After a subtraction fC is kept. -/
theorem daaFlags_c_sub {f : Flags} (hn : f.n = true) (a : Byte) : (daaFlags a f).c = f.c := by
  simp [daaFlags, hn]

/-- Correcting the sum of two packed decimal bytes over numbers: 6 more carries out of the low digit, 0x60 more out of the high. -/
theorem packed_sum_corrected {x y : Nat} (hx : x < 100) (hy : y < 100) :
    (x / 10 * 16 + x % 10 + (y / 10 * 16 + y % 10) + ((if x % 10 + y % 10 > 9 then 6 else 0) + if x + y > 99 then 0x60 else 0)) %
      256 = (x + y) % 100 / 10 * 16 + (x + y) % 10 := by
  have hmod : (x + y) % 10 = if 10 ≤ x % 10 + y % 10 then x % 10 + y % 10 - 10 else x % 10 + y % 10 := Nat.add_mod_eq_ite
  have hdiv : (x + y) / 10 = x / 10 + y / 10 + if 10 ≤ x % 10 + y % 10 then 1 else 0 := Nat.add_div (by decide)
  have htens : (x + y) % 100 / 10 = (x + y) / 10 % 10 := Nat.mod_mul_right_div_self (x + y) 10 10
  have htop : (x + y) / 10 % 10 = if x + y > 99 then (x + y) / 10 - 10 else (x + y) / 10 := by split <;> omega
  rw [htens, htop, hdiv, hmod]
  split_ifs <;> omega

section

variable {a v : Byte} {x y : Nat} (hx : x < 100) (hy : y < 100) (ha : a.toNat = x / 10 * 16 + x % 10)
  (hv : v.toNat = y / 10 * 16 + y % 10)

include ha hv

/-- After `ADD` of packed decimal bytes, the low-digit test of `DAA` finds low digits that make 10 or more. -/
theorem packed_low_test : (add8 a v false).h = true ∨ (add8 a v false).res.toNat % 16 > 9 ↔ x % 10 + y % 10 > 9 := by
  rw [add8_h, add8_res, Bool.toNat_false]
  omega

include hx hy

/-- After `ADD` of packed decimal bytes, the high-digit test of `DAA` finds a sum of 100 or more, whether or not it passed 255. -/
theorem packed_high_test : (add8 a v false).c = true ∨ (add8 a v false).res.toNat > 0x99 ↔ x + y > 99 := by
  rw [add8_c, add8_res, Bool.toNat_false]
  omega

/-- `DAA` after `ADD` of packed decimal bytes leaves the packed decimal sum modulo 100. -/
theorem daaResult_packed_sum :
    (daaResult (add8 a v false).res (sumFlags false (add8 a v false))).toNat = (x + y) % 100 / 10 * 16 + (x + y) % 10 := by
  rw [daaResult_add rfl, daaCorrection_add rfl]
  simp only [sumFlags, packed_low_test ha hv, packed_high_test hx hy ha hv]
  rw [add8_res, Bool.toNat_false, Nat.add_zero, Nat.mod_add_mod, ha, hv]
  exact packed_sum_corrected hx hy

end

/-! ### `CPL` (R210) -/

/-- The complement over numbers. -/
theorem xor_ff_eq (a : Byte) : a ^^^ 0xFF = BitVec.ofNat 8 (255 - a.toNat) := by
  have h : a ^^^ 0xFF = ~~~a := BitVec.xor_allOnes
  rw [h]
  bv_omega

/-- Writing flags writes no register or pointer (R211, R212). -/
theorem setsFlagsOnly_cost (s : State) (f : Flags) (q : Nat) : SetsFlagsOnly s ((s.setFlags f).cost q) :=
  ⟨rfl, ⟨rfl, rfl⟩, onlyRegisters_of rfl⟩

/-! ### The statements -/

/-- Settles O8: the eight meanings are `aluEffect` on a register's value. -/
theorem aluRegisterForms : Obligations.AluRegisterForms := by
  intro s op r
  exact meaning_row (by cases op <;> rfl) (by cases op <;> rfl) (exec_aluReg op r s) (by cases op <;> cases r <;> rfl)
    (aluEffect_table op (s.reg r) s _)

/-- Settles O9: the eight meanings are `aluEffect` on the byte at HL. -/
theorem aluMemoryForms : Obligations.AluMemoryForms := by
  intro s op
  exact meaning_row (by cases op <;> rfl) (by cases op <;> rfl) (exec_aluAtHl op s) (by cases op <;> rfl)
    (aluEffect_table op (readByte s s.hl) s _)

/-- Settles O10: the eight meanings are `aluEffect` on the immediate byte. -/
theorem aluImmediateForms : Obligations.AluImmediateForms := by
  intro s op n
  exact meaning_row (by cases op <;> rfl) (by cases op <;> rfl) (exec_aluImm op n s) (by cases op <;> rfl)
    (aluEffect_table op n s _)

/-- Settles O11: one byte is written to a register or at HL, and the flags are those of the byte computed. -/
theorem incDecByte : Obligations.IncDecByte := by
  intro s r hs
  simp only [← incByte_eq, ← decByte_eq]
  refine ⟨?_, ?_, ?_, ?_⟩
  · exact meaning_row rfl rfl rfl (by cases r <;> rfl) ⟨setsReg_flags_cost s r _ _ _, flagsAre_incFlags (s.reg r) s.flags⟩
  · exact meaning_row rfl rfl rfl (by cases r <;> rfl) ⟨setsReg_flags_cost s r _ _ _, flagsAre_decFlags (s.reg r) s.flags⟩
  · obtain ⟨hstore, hregs, hptr⟩ := writeByte_flags_store hs s.hl (incByte (readByte s s.hl)) (incFlags (atHl s) s.flags) _
    exact meaning_row rfl rfl rfl rfl ⟨hstore, flagsAre_incFlags (readByte s s.hl) s.flags, hregs, hptr⟩
  · obtain ⟨hstore, hregs, hptr⟩ := writeByte_flags_store hs s.hl (decByte (readByte s s.hl)) (decFlags (atHl s) s.flags) _
    exact meaning_row rfl rfl rfl rfl ⟨hstore, flagsAre_decFlags (readByte s s.hl) s.flags, hregs, hptr⟩

/-- Settles O12: by fN, which says whether the correction is added or subtracted. -/
theorem decimalAdjustCorrects : Obligations.DecimalAdjustCorrects := by
  intro s
  refine meaning_row rfl rfl rfl rfl ⟨setsReg_flags_cost s .a _ _ _, decide_eq_true_iff, rfl, rfl, fun low high => ⟨?_, ?_⟩⟩
  · rintro hn rfl rfl
    have h := daaResult_add hn s.regs.a
    rw [daaCorrection_add hn, ← Nat.add_assoc] at h
    exact ⟨h, daaFlags_c_add hn s.regs.a⟩
  · rintro hn rfl rfl
    have h := daaResult_sub hn s.regs.a
    rw [daaCorrection_sub hn, ← Nat.add_assoc] at h
    exact ⟨h, daaFlags_c_sub hn s.regs.a⟩

/-- Settles O13: the meanings are `add8` and `daaResult`, and fC is the high-digit test of `DAA`. -/
theorem decimalAdditionIsExact : Obligations.DecimalAdditionIsExact := by
  intro s x y hx hy ha
  generalize hv : BitVec.ofNat 8 (y / 10 * 16 + y % 10) = v
  have hpa : s.regs.a.toNat = x / 10 * 16 + x % 10 := by
    rw [ha, BitVec.toNat_ofNat]
    omega
  have hpv : v.toNat = y / 10 * 16 + y % 10 := by
    rw [← hv, BitVec.toNat_ofNat]
    omega
  refine ⟨_, _, rfl, rfl, ?_, (daaFlags_c_add rfl _).trans (packed_high_test hx hy hpa hpv)⟩
  exact BitVec.eq_of_toNat_eq ((daaResult_packed_sum hx hy hpa hpv).trans (by rw [BitVec.toNat_ofNat]; omega))

/-- Settles O14: A is complemented or kept, and each flag is kept, set, cleared or complemented. -/
theorem complementAndCarryOps : Obligations.ComplementAndCarryOps := by
  intro s
  simp only [← xor_ff_eq]
  refine ⟨?_, ?_, ?_⟩
  · exact meaning_row rfl rfl rfl rfl ⟨setsReg_flags_cost s .a _ _ _, by simp [FlagsAre]⟩
  · exact meaning_row rfl rfl rfl rfl ⟨setsFlagsOnly_cost s _ _, by simp [FlagsAre]⟩
  · exact meaning_row rfl rfl rfl rfl ⟨setsFlagsOnly_cost s _ _, by simp [FlagsAre]⟩

/-- Settles O15: the borrow of the `SUB` is the carry of the `ADD`. -/
theorem addThenSubRestoresA : Obligations.AddThenSubRestoresA := by
  intro s n
  have hcarry := add8_c s.regs.a n false
  refine ⟨_, _, rfl, rfl, sub8_add8_res s.regs.a n, ?_⟩
  show (sub8 (add8 s.regs.a n false).res n false).c = false ↔ _
  rw [sub8_add8_c, ← Bool.not_eq_true, hcarry, Bool.toNat_false]
  omega

end Sys2Proof.Machine

/-! PROOF. The statements of 43_alu16.md: a pair set to a 16-bit sum, with or without flags. The rows are put together by
`meaning_row`. -/

namespace Sys2Proof.Machine

/-! ### The values of the family (R17, R224) -/

/-- One up over numbers. -/
theorem word_add_one_eq (w : Word) : w + 1 = BitVec.ofNat 16 (w.toNat + 1) := by bv_omega

/-- One down over numbers: subtracting 1 is adding 65535 modulo 65536. -/
theorem word_sub_one_eq (w : Word) : w - 1 = BitVec.ofNat 16 (w.toNat + 65535) := by bv_omega

/-- The flags of `ADD HL,rr` over numbers; fZ is kept (R220). -/
theorem flagsAre_addHlFlags (hl rr : Word) (f : Flags) :
    FlagsAre (addHlFlags hl rr f) (f.z = true) False (hl.toNat % 4096 + rr.toNat % 4096 > 4095)
      (hl.toNat + rr.toNat > 65535) :=
  ⟨Iff.rfl, by simp [addHlFlags], decide_eq_true_iff, decide_eq_true_iff⟩

/-! ### The effects of the family -/

/-- `HL <- HL + w` with the flags of the 16-bit sum (R220). -/
theorem setHl_add16 (s : State) (w : Word) (q : Nat) :
    let t := ((s.setHl (add16 s.hl w).res).setFlags (addHlFlags s.hl w s.flags)).cost q
    SetsPair s t .hl (BitVec.ofNat 16 (s.hl.toNat + w.toNat)) ∧
      FlagsAre t.flags (s.flags.z = true) False (s.hl.toNat % 4096 + w.toNat % 4096 > 4095) (s.hl.toNat + w.toNat > 65535) :=
  ⟨setsPair_flags_cost s .hl _ _ q, flagsAre_addHlFlags s.hl w s.flags⟩

/-- `SP <- SP + e` with the flags of the low byte's addition (R223). -/
theorem setSp_spPlus (s : State) (e : Byte) (q : Nat) :
    let t := ((s.setPair .sp (spPlus s.sp e)).setFlags (spPlusFlags s.sp e)).cost q
    SetsPair s t .sp (BitVec.ofInt 16 ((s.sp.toNat : Int) + e.toInt)) ∧
      FlagsAre t.flags False False (s.sp.toNat % 16 + e.toNat % 16 > 15) (s.sp.toNat % 256 + e.toNat > 255) :=
  ⟨spPlus_eq s.sp e ▸ setsPair_flags_cost s .sp _ _ q, flagsAre_spPlusFlags s.sp e⟩

/-! ### The statements -/

/-- Settles O16: the meaning sets HL to `add16` of HL and the pair, with the carries as flags. -/
theorem addHlPair : Obligations.AddHlPair := by
  intro s rr
  exact meaning_row rfl (by cases rr <;> rfl) rfl (by cases rr <;> rfl) (setHl_add16 s (s.pair rr) _)

/-- Settles O17: the first two meanings are `setPair` of the pair's neighbour; the third also writes the flags of `SP + e`. -/
theorem pairIncDecAndAddSp : Obligations.PairIncDecAndAddSp := by
  intro s rr e
  simp only [← word_add_one_eq, ← word_sub_one_eq]
  refine ⟨?_, ?_, ?_⟩
  · exact meaning_row rfl (by cases rr <;> rfl) rfl (by cases rr <;> rfl) (setPair_load s rr (s.pair rr + 1) _)
  · exact meaning_row rfl (by cases rr <;> rfl) rfl (by cases rr <;> rfl) (setPair_load s rr (s.pair rr - 1) _)
  · exact meaning_row rfl rfl rfl rfl (setSp_spPlus s e _)

end Sys2Proof.Machine

/-! PROOF. The statements of 44_rotate_shift_bit.md: a byte rotated or with one bit changed, in a register or at HL, and `BIT`,
which writes flags alone. The rows of the 0xCB page are put together from `CbRow` and `meaning_row`. -/

namespace Sys2Proof.Machine

/-! ### The rows of the 0xCB page (R111, R285, R450) -/

/-- A bit number as the 3-bit field `y` (R111). -/
theorem ofNat_val_eq_indexCode (b : Fin 8) : BitVec.ofNat 3 b.val = indexCode b := BitVec.eq_of_toNat_eq (Nat.mod_eq_of_lt b.isLt)

/-- In the table of R450 every instruction of the page on a register costs 2. -/
theorem reference_quanta_cb_reg (x : BitVec 2) (y : BitVec 3) (r : Reg8) :
    Cycles.reference.quanta true [0xCB, opXYZ x y (reg8Code r)] = 2 := by
  revert x y
  cases r <;> decide

/-- In the table of R450 an instruction of the page on the byte at HL costs 3 if it is `BIT`, which only reads, and 4 if not. -/
theorem reference_quanta_cb_atHl (x : BitVec 2) (y : BitVec 3) :
    Cycles.reference.quanta true [0xCB, opXYZ x y atHlCode] = if x = 1 then 3 else 4 := by
  revert x y
  decide

/-- `meaning_row` for a row of the page. -/
theorem CbRow.row {op2 : Byte} {i : Instr} {s u : State} {q : Nat} {P : State → Prop} (h : CbRow op2 i)
    (hexec : exec i s = .next (u.cost (s.quantaOf i))) (hq : Cycles.reference.quanta true [0xCB, op2] = q)
    (hP : P (u.cost (s.quantaOf i))) :
    Decodes [0xCB, op2] i ∧ ∃ t, exec i s = .next t ∧ Costs s t [0xCB, op2] q ∧ P t :=
  meaning_row h.wellFormed h.encode_eq hexec hq hP

/-- `CbRow.row` where what is said of the next state also names the byte `v` that is stored. -/
theorem CbRow.row_stored {op2 : Byte} {i : Instr} {s u : State} {q : Nat} {P : State → Byte → Prop} (h : CbRow op2 i) (v : Byte)
    (hexec : exec i s = .next (u.cost (s.quantaOf i))) (hq : Cycles.reference.quanta true [0xCB, op2] = q)
    (hP : P (u.cost (s.quantaOf i)) v) :
    Decodes [0xCB, op2] i ∧ ∃ t v, exec i s = .next t ∧ Costs s t [0xCB, op2] q ∧ P t v := by
  obtain ⟨hdecodes, t, hnext, hcost, hPt⟩ := h.row (P := (P · v)) hexec hq hP
  exact ⟨hdecodes, t, v, hnext, hcost, hPt⟩

/-- The register forms are one effect, by the operation. -/
theorem exec_rotReg (op : RotOp) (r : Reg8) (s : State) :
    exec (rotReg r op) s = .next ((rotRegEffect op r s).cost (s.quantaOf (rotReg r op))) := by
  cases op <;> rfl

/-- The `(HL)` forms are one effect, by the operation. -/
theorem exec_rotAtHl (op : RotOp) (s : State) :
    exec (rotAtHl op) s = .next ((rotAtHlEffect op s).cost (s.quantaOf (rotAtHl op))) := by
  cases op <;> rfl

/-! ### The flags and the bits of the family (R230, R250, R252, R254, R256) -/

/-- The flags of an accumulator rotate: only fC can be set. -/
theorem flagsAre_rotAFlags (op : RotOp) (v : Byte) : FlagsAre (rotAFlags op v) False False False (rotOut op v = true) := by
  simp [FlagsAre, rotAFlags, rotOut_eq]

/-- The flags of a rotate or shift of the 0xCB page: fZ by the result. -/
theorem flagsAre_rotFlags (op : RotOp) (v : Byte) (c : Bool) :
    FlagsAre (rotFlags op v c) (rotResult op v c = 0) False False (rotOut op v = true) := by
  simp [FlagsAre, rotFlags, rotOut_eq]

/-- The flags of `BIT b`: fZ is the complement of the bit, fC is kept. -/
theorem flagsAre_bitFlags (b : Fin 8) (v : Byte) (f : Flags) :
    FlagsAre (bitFlags b v f) (v.getLsbD b.val = false) False True (f.c = true) := by
  simp [FlagsAre, bitFlags]

/-- `RES b` clears the bit `b` and no other. -/
theorem clearBit_getLsbD (b : Fin 8) (v : Byte) (k : Nat) (hk : k < 8) :
    (clearBit b v).getLsbD k = if k = b.val then false else v.getLsbD k :=
  and_not_bitMask b.isLt v hk

/-- `SET b` sets the bit `b` and no other. -/
theorem setBit_getLsbD (b : Fin 8) (v : Byte) (k : Nat) : (setBit b v).getLsbD k = if k = b.val then true else v.getLsbD k :=
  or_bitMask b.isLt v

/-! ### The effects of the family -/

/-- An accumulator rotate writes A and the flags (R230 to R233). -/
theorem rotAEffect_rotates (op : RotOp) (s : State) (q : Nat) :
    let t := (rotAEffect op s).cost q
    RotResult op s.regs.a s.flags.c t.regs.a ∧ SetsReg s t .a t.regs.a ∧
      FlagsAre t.flags False False False (rotOut op s.regs.a = true) :=
  ⟨rotResult_bits op s.regs.a s.flags.c, setsReg_flags_cost s .a _ _ q, flagsAre_rotAFlags op s.regs.a⟩

/-- A rotate or shift of a register writes it and the flags (R256). -/
theorem rotRegEffect_rotates (op : RotOp) (r : Reg8) (s : State) (q : Nat) :
    let t := (rotRegEffect op r s).cost q
    RotResult op (s.reg r) s.flags.c (t.reg r) ∧ SetsReg s t r (t.reg r) ∧
      FlagsAre t.flags (t.reg r = 0) False False (rotOut op (s.reg r) = true) := by
  intro t
  have hset : SetsReg s t r (rotResult op (s.reg r) s.flags.c) := setsReg_flags_cost s r _ _ q
  rw [hset.value]
  exact ⟨rotResult_bits op (s.reg r) s.flags.c, hset, flagsAre_rotFlags op (s.reg r) s.flags.c⟩

/-- A rotate or shift of the byte at HL stores one byte and writes the flags of the byte computed, stored or not (R235, R256). -/
theorem rotAtHlEffect_rotates {s : State} (hs : Memory.wf s.mem) (op : RotOp) (q : Nat) :
    let t := (rotAtHlEffect op s).cost q
    let res := rotResult op (readByte s s.hl) s.flags.c
    RotResult op (readByte s s.hl) s.flags.c res ∧ StoresByte s t s.hl res ∧
      FlagsAre t.flags (res = 0) False False (rotOut op (readByte s s.hl) = true) ∧ t.regs = s.regs ∧ SamePointers s t := by
  intro t res
  obtain ⟨hstore, hregs, hptr⟩ := writeByte_flags_store hs s.hl res (rotFlags op (atHl s) s.flags.c) q
  exact ⟨rotResult_bits op _ _, hstore, flagsAre_rotFlags op (atHl s) s.flags.c, hregs, hptr⟩

/-- `BIT b` writes flags alone (R250, R251). -/
theorem bitEffect_tests (b : Fin 8) (v : Byte) (s : State) (q : Nat) :
    let t := (bitEffect b v s).cost q
    SetsFlagsOnly s t ∧ FlagsAre t.flags (v.getLsbD b.val = false) False True (s.flags.c = true) :=
  ⟨setsFlagsOnly_cost s _ q, flagsAre_bitFlags b v s.flags⟩

section

variable {v : Byte} {bit : Nat → Bool} (hv : ∀ k, k < 8 → v.getLsbD k = bit k)

include hv

/-- A register set to a byte whose bits are known; no flag is written (R252, R254). -/
theorem setReg_bits (s : State) (r : Reg8) (q : Nat) :
    let t := (s.setReg r v).cost q
    SetsReg s t r (t.reg r) ∧ t.flags = s.flags ∧ ∀ k, k < 8 → (t.reg r).getLsbD k = bit k := by
  intro t
  obtain ⟨hset, hflags⟩ : SetsReg s t r v ∧ t.flags = s.flags := setReg_load s r v q
  rw [hset.value]
  exact ⟨hset, hflags, hv⟩

/-- A byte whose bits are known stored; no register, flag or pointer is written (R253, R255). -/
theorem writeByte_bits {s : State} (hs : Memory.wf s.mem) (a : Word) (q : Nat) :
    let t := (writeByte s a v).cost q
    StoresByte s t a v ∧ t.regs = s.regs ∧ t.flags = s.flags ∧ SamePointers s t ∧ ∀ k, k < 8 → v.getLsbD k = bit k := by
  obtain ⟨hstore, hregs, hflags, hptr⟩ := writeByte_store hs a v q
  exact ⟨hstore, hregs, hflags, hptr, hv⟩

end

/-! ### The statements -/

/-- Settles O18: the four meanings are `rotAEffect`. -/
theorem accumulatorRotates : Obligations.AccumulatorRotates := by
  intro s
  simp only [List.forall_mem_cons]
  refine ⟨?_, ?_, ?_, ?_, List.forall_mem_nil _⟩
  · exact meaning_row rfl rfl rfl rfl (rotAEffect_rotates .rlc s _)
  · exact meaning_row rfl rfl rfl rfl (rotAEffect_rotates .rrc s _)
  · exact meaning_row rfl rfl rfl rfl (rotAEffect_rotates .rl s _)
  · exact meaning_row rfl rfl rfl rfl (rotAEffect_rotates .rr s _)

/-- Settles O19: the eight meanings are `rotRegEffect`. -/
theorem rotateRegisterForms : Obligations.RotateRegisterForms := by
  intro s op r
  exact (CbRow.rotReg op r).row (exec_rotReg op r s) (reference_quanta_cb_reg 0 (rotCode op) r) (rotRegEffect_rotates op r s _)

/-- Settles O20: the eight meanings are `rotAtHlEffect`, whose flags are those of the byte it computes. -/
theorem rotateMemoryForms : Obligations.RotateMemoryForms := by
  intro s op hs
  exact (CbRow.rotAtHl op).row_stored _ (exec_rotAtHl op s) (reference_quanta_cb_atHl 0 (rotCode op))
    (rotAtHlEffect_rotates hs op _)

/-- Settles O21: `BIT` is `bitEffect` on a register or on the byte at HL; `RES` and `SET` write the byte `clearBit` or `setBit`
gives, to a register or at HL. -/
theorem bitInstructions : Obligations.BitInstructions := by
  intro s b r hs
  simp only [ofNat_val_eq_indexCode]
  have hcost (x : BitVec 2) := reference_quanta_cb_reg x (indexCode b) r
  have hcostAtHl (x : BitVec 2) := reference_quanta_cb_atHl x (indexCode b)
  refine ⟨?_, ?_, ?_, ?_, ?_, ?_⟩
  · exact (CbRow.bitReg b r).row rfl (hcost 1) (bitEffect_tests b (s.reg r) s _)
  · exact (CbRow.bitAtHl b).row rfl (hcostAtHl 1) (bitEffect_tests b (readByte s s.hl) s _)
  · exact (CbRow.resReg b r).row rfl (hcost 2) (setReg_bits (clearBit_getLsbD b (s.reg r)) s r _)
  · exact (CbRow.setReg b r).row rfl (hcost 3) (setReg_bits (fun k _ => setBit_getLsbD b (s.reg r) k) s r _)
  · exact (CbRow.resAtHl b).row_stored _ rfl (hcostAtHl 2) (writeByte_bits (clearBit_getLsbD b (readByte s s.hl)) hs s.hl _)
  · exact (CbRow.setAtHl b).row_stored _ rfl (hcostAtHl 3)
      (writeByte_bits (fun k _ => setBit_getLsbD b (readByte s s.hl) k) hs s.hl _)

end Sys2Proof.Machine

/-! PROOF. The statements of 45_control_flow.md: PC set to a target, pushed first by a call, popped by a return. The rows are put
together by `meaning_row`, those of a conditional transfer by `conditional_row`. -/

namespace Sys2Proof.Machine

/-! ### The rows of a conditional transfer (R260, R451) -/

/-- A transfer that goes to `u` if its condition holds and leaves the state alone if not: each case has its own cost, `q` and `q'`
in the table of R450, and what `P` says of it. -/
theorem conditional_row {i : Instr} {cc : Cond} {s u : State} {bytes : List Byte} {q q' : Nat} {holds : Bool}
    {P : Bool → State → Prop} (hholds : holds = condHolds cc s.flags) (hi : i.wellFormed = true) (hbytes : encode i = bytes)
    (hexec : exec i s = .next (if condHolds cc s.flags then u.cost (s.quantaOf i) else s.cost (s.quantaOf i false)))
    (hq : Cycles.reference.quanta true bytes = q) (hq' : Cycles.reference.quanta false bytes = q')
    (htaken : P true (u.cost (s.quantaOf i))) (hstay : P false (s.cost (s.quantaOf i false))) :
    Decodes bytes i ∧ ∃ t, exec i s = .next t ∧ Costs s t bytes (if holds then q else q') holds ∧ P holds t := by
  rw [← hholds] at hexec
  cases holds with
  | true => exact meaning_row hi hbytes hexec hq htaken
  | false => exact meaning_row hi hbytes hexec hq' hstay

/-- In the table of R450 every restart costs 4. -/
theorem reference_quanta_rstT (n : Fin 8) : Cycles.reference.quanta true (encode (.rstT n)) = 4 := by
  revert n
  decide

/-! ### The effects of the family -/

/-- A return changes the CPU's registers alone (R268). -/
theorem returnFromCall_returns (s : State) (q : Nat) :
    let t := (returnFromCall s).cost q
    Returns s t ∧ OnlyRegisters s t :=
  ⟨returns_cost s q, onlyRegisters_of rfl⟩

/-- A return from an interrupt handler also sets IME and drops a pending `EI` (R270). -/
theorem returnFromInterrupt_returns (s : State) (q : Nat) :
    let t := (returnFromInterrupt s).cost q
    Returns s t ∧ t.ime = true ∧ t.imePending = false ∧ OnlyRegisters { s with ime := true, imePending := false } t := by
  obtain ⟨hpc, hsp, hregs, hflags, -⟩ := returns_cost s q
  have honly : OnlyRegisters { s with ime := true, imePending := false } ((returnFromInterrupt s).cost q) := onlyRegisters_of rfl
  exact ⟨⟨hpc, hsp, hregs, hflags, honly.memory⟩, rfl, rfl, honly⟩

/-! ### The statements -/

/-- Settles O22: each meaning sets PC, a conditional one only if its condition holds. -/
theorem jumpsGoToTheirTargets : Obligations.JumpsGoToTheirTargets := by
  intro s cc l h e holds hholds
  simp only [← jrTarget_eq]
  refine ⟨?_, ?_, ?_, ?_, ?_⟩
  · exact meaning_row rfl (cons_wordBytes 0xC3 l h) rfl rfl (jumps_cost s (h ++ l) _)
  · exact conditional_row (P := fun b t => Jumps s t (if b then h ++ l else s.pc)) hholds rfl (cons_wordBytes _ l h) rfl
      (by cases cc <;> rfl) (by cases cc <;> rfl) (jumps_cost s (h ++ l) _) (jumps_stay s _)
  · exact meaning_row rfl rfl rfl rfl (jumps_cost s (jrTarget e s) _)
  · exact conditional_row (P := fun b t => Jumps s t (if b then jrTarget e s else s.pc)) hholds rfl rfl rfl
      (by cases cc <;> rfl) (by cases cc <;> rfl) (jumps_cost s (jrTarget e s) _) (jumps_stay s _)
  · exact meaning_row rfl rfl rfl rfl (jumps_cost s s.hl _)

/-- Settles O23: each meaning is `callTo`, which pushes PC; a call not taken leaves the state alone. -/
theorem callsPushTheReturnAddress : Obligations.CallsPushTheReturnAddress := by
  intro s cc l h n holds hs hholds
  simp only [ofNat_val_eq_indexCode]
  refine ⟨?_, ?_, ?_⟩
  · exact meaning_row rfl (cons_wordBytes 0xCD l h) rfl rfl (calls_cost s hs (h ++ l) _)
  · exact conditional_row (P := fun b t => (b = true → Calls s t (h ++ l)) ∧ (b = false → Jumps s t s.pc)) hholds rfl
      (cons_wordBytes _ l h) rfl (by cases cc <;> rfl) (by cases cc <;> rfl)
      ⟨fun _ => calls_cost s hs (h ++ l) _, nofun⟩ ⟨nofun, fun _ => jumps_stay s _⟩
  · exact meaning_row rfl rfl rfl (reference_quanta_rstT n) (calls_cost s hs (rstTarget n) _)

/-- Settles O24: the first two meanings are `returnFromCall`, the third is `returnFromInterrupt`; a return not taken leaves the
state alone. -/
theorem returnsPopThePc : Obligations.ReturnsPopThePc := by
  intro s cc holds hholds
  refine ⟨?_, ?_, ?_⟩
  · exact meaning_row rfl rfl rfl rfl (returnFromCall_returns s _)
  · obtain ⟨hreturns, honly⟩ := returnFromCall_returns s (s.quantaOf (.retCc cc))
    have hstay := jumps_stay s (s.quantaOf (.retCc cc) false)
    exact conditional_row
      (P := fun b t => OnlyRegisters s t ∧ (b = true → Returns s t) ∧ (b = false → Jumps s t s.pc)) hholds rfl rfl rfl
      (by cases cc <;> rfl) (by cases cc <;> rfl) ⟨honly, fun _ => hreturns, nofun⟩ ⟨hstay.rest, nofun, fun _ => hstay⟩
  · exact meaning_row rfl rfl rfl rfl (returnFromInterrupt_returns s _)

end Sys2Proof.Machine

/-! PROOF. The statements of 46_system.md: `HALT` that nothing wakes, the delay of `EI`, and the rows of the system instructions. -/

namespace Sys2Proof.Machine

/-! ### What the tick phase leaves alone (R300, R340, R370) -/

@[simp] theorem tickPhase_regs (s : State) : (tickPhase s).regs = s.regs := by simp [tickPhase]

@[simp] theorem tickPhase_flags (s : State) : (tickPhase s).flags = s.flags := by simp [tickPhase]

@[simp] theorem tickPhase_pc (s : State) : (tickPhase s).pc = s.pc := by simp [tickPhase]

@[simp] theorem tickPhase_sp (s : State) : (tickPhase s).sp = s.sp := by simp [tickPhase]

@[simp] theorem tickPhase_ime (s : State) : (tickPhase s).ime = s.ime := by simp [tickPhase]

@[simp] theorem tickPhase_halted (s : State) : (tickPhase s).halted = s.halted := by simp [tickPhase]

@[simp] theorem tickPhase_ie (s : State) : (tickPhase s).ie = s.ie := by simp [tickPhase]

/-! ### The closed gate: no tick sets a request (R311, R444) -/

/-- The gate of R311 is closed: requests act only while IME = 1, and IME is 0. -/
def GateClosed (s : State) : Prop := s.cfg.ifGatedByIme = true ∧ s.ime = false

theorem GateClosed.of_same {s t : State} (h : GateClosed s) (hcfg : t.cfg = s.cfg) (hime : t.ime = s.ime) : GateClosed t := by
  rwa [GateClosed, hcfg, hime]

/-- A request made while the gate is closed is lost. -/
theorem requestInterrupt_of_gateClosed {s : State} (h : GateClosed s) (k : IntClass) : requestInterrupt k s = s := by
  obtain ⟨hgated, hime⟩ := h
  simp [requestInterrupt, hgated, hime]

theorem statRequest_of_gateClosed {s : State} (h : GateClosed s) (b : Nat) : statRequest b s = s := by
  unfold statRequest
  split
  · exact requestInterrupt_of_gateClosed h .status
  · rfl

theorem timerReload_ifl_of_gateClosed {s : State} (h : GateClosed s) : (timerReload s).ifl = s.ifl := by
  unfold timerReload
  split
  · rw [requestInterrupt_of_gateClosed]
    exact h
  · rfl

theorem timerTick_ifl_of_gateClosed {s : State} (h : GateClosed s) (n : Nat) : (timerTick n s).ifl = s.ifl :=
  timerReload_ifl_of_gateClosed (s := { s with timer := dividerTick n s.timer }) h

theorem leaveMode_ifl_of_gateClosed {s : State} (h : GateClosed s) : (leaveMode s).ifl = s.ifl := by
  have stat (b : Nat) (v : Video) : (statRequest b { s with video := v }).ifl = s.ifl := by
    rw [statRequest_of_gateClosed]
    exact h
  unfold leaveMode
  split
  · rfl
  · exact stat 3 _
  · unfold endHblank
    split
    · rw [requestInterrupt_of_gateClosed]
      · exact stat 4 _
      · exact h
    · exact stat 5 _
  · unfold endVblankLine
    split
    · exact stat 5 _
    · rfl

/-- A transition that happens is `leaveMode`. -/
theorem eq_leaveMode_of_transition {s t : State} (h : transition s = some t) : t = leaveMode s := by
  unfold transition at h
  split at h
  · cases h
  · exact (Option.some.inj h).symm

theorem runTransitions_ifl_of_gateClosed (fuel : Nat) {s : State} (h : GateClosed s) :
    (runTransitions fuel s).ifl = s.ifl := by
  induction fuel generalizing s with
  | zero => rfl
  | succ fuel ih =>
    rw [runTransitions]
    split
    · rfl
    · next t ht =>
      obtain rfl := eq_leaveMode_of_transition ht
      rw [ih (h.of_same (leaveMode_cfg s) (leaveMode_ime s)), leaveMode_ifl_of_gateClosed h]

theorem compareLine_ifl_of_gateClosed {s : State} (h : GateClosed s) : (compareLine s).ifl = s.ifl := by
  simp only [compareLine, statRequest_of_gateClosed h, ite_self]

theorem videoTick_ifl_of_gateClosed {s : State} (h : GateClosed s) (n : Nat) : (videoTick n s).ifl = s.ifl := by
  have hstart : GateClosed (s.addClock n) := h
  have hend : GateClosed (runTransitions (transitionFuel n s) (s.addClock n)) := hstart.of_same (by simp) (by simp)
  rw [videoTick, compareLine_ifl_of_gateClosed hend, runTransitions_ifl_of_gateClosed _ hstart]
  rfl

theorem tickPhase_ifl_of_gateClosed {s : State} (h : GateClosed s) : (tickPhase s).ifl = s.ifl := by
  have hticked : GateClosed (timerTick (4 * s.quanta) s) := h.of_same (by simp) (by simp)
  rw [tickPhase, videoTick_ifl_of_gateClosed hticked, timerTick_ifl_of_gateClosed h]

/-! ### When the dispatch phase does nothing (R300, R313) -/

theorem dispatchPhase_of_ime_false {s : State} (h : s.ime = false) : dispatchPhase s = s := by
  simp [dispatchPhase, h]

theorem getPending_of_pendingMask_zero {s : State} (h : pendingMask s = 0) : getPending s = none := by
  simp [getPending, h]

theorem dispatchPhase_of_pendingMask_zero {s : State} (h : pendingMask s = 0) : dispatchPhase s = s := by
  simp [dispatchPhase, getPending_of_pendingMask_zero h]

/-! ### A halted CPU that nothing can wake (R281, R302, R444) -/

/-- RUNNING and halted, and either no class is enabled, or nothing is pending and the gate is closed: no device can wake the CPU. -/
structure Asleep (s : State) : Prop where
  status : s.status = .running
  romLoaded : s.romLoaded = true
  halted : s.halted = true
  noWake : s.ie &&& 0x1F = 0 ∨ (GateClosed s ∧ pendingMask s = 0)

/-- The state the program sees of a sleeping CPU is as before. -/
structure SameCpu (s t : State) : Prop where
  pc : t.pc = s.pc
  sp : t.sp = s.sp
  regs : t.regs = s.regs
  flags : t.flags = s.flags
  mem : t.mem = s.mem

theorem SameCpu.refl (s : State) : SameCpu s s := ⟨rfl, rfl, rfl, rfl, rfl⟩

theorem SameCpu.trans {a b c : State} (h : SameCpu a b) (g : SameCpu b c) : SameCpu a c :=
  ⟨g.pc.trans h.pc, g.sp.trans h.sp, g.regs.trans h.regs, g.flags.trans h.flags, g.mem.trans h.mem⟩

theorem pendingMask_of_noneEnabled {s : State} (h : s.ie &&& 0x1F = 0) : pendingMask s = 0 := by
  have hcomm : pendingMask s = s.ie &&& 0x1F &&& s.ifl := by
    unfold pendingMask
    ac_rfl
  rw [hcomm, h]
  exact BitVec.zero_and

theorem Asleep.pendingMask_eq {s : State} (h : Asleep s) : pendingMask s = 0 :=
  h.noWake.elim pendingMask_of_noneEnabled And.right

/-- A halted CPU with nothing to wake it spends one quantum (R281). -/
theorem cpuStep_of_halted {s : State} (hs : s.status = .running) (hrom : s.romLoaded = true) (hhalted : s.halted = true)
    (hpending : pendingMask s = 0) : cpuStep s = .next (s.cost 1) := by
  simp [cpuStep, wakes, hs, hrom, hhalted, hpending]

/-- The ticks neither enable a class nor, through a closed gate, set a request. -/
theorem Asleep.tick {s : State} (h : Asleep s) : Asleep (tickPhase s) where
  status := by simpa using h.status
  romLoaded := by simpa using h.romLoaded
  halted := by simpa using h.halted
  noWake := by
    refine h.noWake.imp (fun hie => by simpa using hie) fun ⟨hclosed, hnone⟩ => ?_
    refine ⟨hclosed.of_same (by simp) (by simp), ?_⟩
    rwa [pendingMask, tickPhase_ie, tickPhase_ifl_of_gateClosed hclosed]

theorem Asleep.cost {s : State} (h : Asleep s) (q : Nat) : Asleep (s.cost q) := ⟨h.status, h.romLoaded, h.halted, h.noWake⟩

/-- The step of a sleeping CPU is one quantum of ticks. -/
theorem Asleep.step_eq {s : State} (h : Asleep s) : step s = .next (tickPhase (s.cost 1)) := by
  rw [step_running h.status (cpuStep_of_halted h.status h.romLoaded h.halted h.pendingMask_eq),
    dispatchPhase_of_pendingMask_zero (h.cost 1).tick.pendingMask_eq]

/-- Any number of steps leaves the CPU asleep, with the state the program sees as it was. -/
theorem Asleep.run {s : State} (h : Asleep s) (n : Nat) : ∃ t, stepsFrom n s = some t ∧ Asleep t ∧ SameCpu s t := by
  induction n generalizing s with
  | zero => exact ⟨s, rfl, h, .refl s⟩
  | succ n ih =>
    have hone : SameCpu s (tickPhase (s.cost 1)) := by constructor <;> simp
    obtain ⟨t, hsteps, hasleep, hsame⟩ := ih (h.cost 1).tick
    exact ⟨t, (stepsFrom_succ h.step_eq n).trans hsteps, hasleep, hone.trans hsame⟩

/-- Settles O34: `Asleep` is kept by every step, which changes nothing else of what is claimed. -/
theorem haltWithoutWakeLastsForEver : Obligations.HaltWithoutWakeLastsForEver := by
  intro s n hs hrom hhalted hwake
  have hasleep : Asleep s := ⟨hs, hrom, hhalted, hwake.imp id fun ⟨hgated, hime, hnone⟩ => ⟨⟨hgated, hime⟩, hnone⟩⟩
  obtain ⟨t, hsteps, ht, hpc, hsp, hregs, hflags, hmem⟩ := hasleep.run n
  exact ⟨t, hsteps, ht.status, ht.halted, hpc, hsp, hregs, hflags, hmem⟩

/-! ### The step that runs an instruction (R301) -/

/-- The CPU step of a machine that fetches. -/
theorem cpuStep_of_fetches {s : State} (h : fetches s) :
    ∃ t, exec (fetchInstr s) (({ s with halted := false } : State).advance (fetchInstr s).length) = .next t ∧
      cpuStep s = .next (afterInstr (fetchInstr s) s.imePending t) := by
  obtain ⟨hs, hrom, hwake⟩ := h
  rcases cpuStep_cases hs with ⟨hnone, -⟩ | ⟨-, hhalted, hasleep, -⟩ | ⟨-, -, hrun⟩
  · cases hrom.symm.trans hnone
  · exact absurd hasleep (by simpa [wakes] using hwake hhalted)
  · exact hrun

/-! ### The delay of `EI` (R284, R301) -/

/-- Without a pending `EI` before the instruction, nothing is armed. -/
theorem afterInstr_unarmed (i : Instr) (s : State) : afterInstr i false s = s := ite_self s

theorem afterInstr_of_not_illegal {i : Instr} (h : ∀ op, i ≠ .illegal op) (arm : Bool) (s : State) :
    afterInstr i arm s = armIme arm s := by
  cases i
  case illegal op => exact absurd rfl (h op)
  all_goals rfl

/-- Nothing is armed if the instruction took the pending `EI` back. -/
theorem armIme_of_notPending {s : State} (h : s.imePending = false) (arm : Bool) : armIme arm s = s := by
  simp [armIme, h]

/-- IME is on its way: `ime_pending` is 1, or IME is 1 already. -/
def ImeComing (s : State) : Prop := s.imePending = true ∨ (s.ime = true ∧ s.imePending = false)

theorem armIme_enables {s : State} (h : ImeComing s) : (armIme true s).ime = true ∧ (armIme true s).imePending = false := by
  rcases h with hpending | ⟨hime, hdone⟩
  · simp [armIme, hpending]
  · rw [armIme_of_notPending hdone]
    exact ⟨hime, hdone⟩

/-- No instruction but `DI` takes back a pending `EI`; `RETI` enables by itself (R270). -/
theorem exec_imeComing {i : Instr} {s t : State} (h : exec i s = .next t) (hpending : s.imePending = true) (hi : i ≠ .di) :
    ImeComing t := by
  by_cases hcontrol : changesControl i = false
  · exact .inl ((exec_sameControl h hcontrol).imePending.trans hpending)
  · cases i
    case di => exact absurd rfl hi
    case reti =>
      obtain rfl := next_inj h
      exact .inr ⟨rfl, rfl⟩
    case ei =>
      obtain rfl := next_inj h
      left
      split
      · rfl
      · exact hpending
    case halt | stop | illegal =>
      obtain rfl := next_inj h
      exact .inl hpending
    all_goals exact absurd rfl hcontrol

/-- `EI` with `EI_DELAY` = 1 sets `ime_pending` alone. -/
theorem exec_ei_delayed {s : State} (h : s.cfg.eiDelay = true) :
    exec .ei s = .next (({ s with imePending := true } : State).cost (s.quantaOf .ei)) := by
  rw [exec, execEi, if_pos h]

/-- `EI` with `EI_DELAY` = 0 sets IME alone. -/
theorem exec_ei_atOnce {s : State} (h : s.cfg.eiDelay = false) :
    exec .ei s = .next (({ s with ime := true } : State).cost (s.quantaOf .ei)) := by
  rw [exec, execEi, if_neg (by simp [h])]

/-- The CPU step of `EI` with no `EI` before it. -/
theorem cpuStep_ei {s : State} (h : fetches s) (hdelay : s.cfg.eiDelay = true) (hpending : s.imePending = false)
    (hi : fetchInstr s = .ei) :
    cpuStep s = .next (({ s.advance 1 with halted := false, imePending := true } : State).cost (s.quantaOf .ei)) := by
  obtain ⟨t, ht, hstep⟩ := cpuStep_of_fetches h
  rw [hi, exec_ei_delayed (by exact hdelay)] at ht
  obtain rfl := next_inj ht
  rw [hstep, hpending, afterInstr_unarmed]
  rfl

/-- The CPU step after `EI`, unless its instruction is `DI` or the decode error. -/
theorem cpuStep_enables {s t : State} (h : fetches s) (hpending : s.imePending = true) (hdi : fetchInstr s ≠ .di)
    (hillegal : ∀ op, fetchInstr s ≠ .illegal op) (ht : cpuStep s = .next t) : t.ime = true ∧ t.imePending = false := by
  obtain ⟨u, hu, hstep⟩ := cpuStep_of_fetches h
  rw [hpending, afterInstr_of_not_illegal hillegal] at hstep
  obtain rfl := next_inj (hstep.symm.trans ht)
  exact armIme_enables (exec_imeComing hu hpending hdi)

/-- The CPU step of `DI`, whatever came before it: nothing is left to arm (R283). -/
theorem cpuStep_di {s t : State} (h : fetches s) (hi : fetchInstr s = .di) (ht : cpuStep s = .next t) :
    t.ime = false ∧ t.imePending = false := by
  obtain ⟨u, hu, hstep⟩ := cpuStep_of_fetches h
  rw [hi] at hu hstep
  obtain rfl := next_inj hu
  obtain rfl := next_inj (hstep.symm.trans ht)
  rw [afterInstr_of_not_illegal (i := .di) nofun, armIme_of_notPending rfl]
  exact ⟨rfl, rfl⟩

/-- Settles O35: the step of `EI` leaves IME at 0, so its dispatch phase does nothing; the arming of the next step is the rest. -/
theorem enableInterruptsWaitsOneInstruction : Obligations.EnableInterruptsWaitsOneInstruction := by
  intro s hfetch hdelay
  have ⟨hs, _, _⟩ := hfetch
  obtain ⟨t, ht⟩ := cpuStep_next s
  refine ⟨fun hime hpending hi => ?_, fun hpending hdi hillegal => ?_, fun _ hi => ?_⟩
  · have hstep := step_running hs (cpuStep_ei hfetch hdelay hpending hi)
    rw [dispatchPhase_of_ime_false (by simpa using hime)] at hstep
    refine ⟨_, hstep, ?_, ?_, ?_, ?_, ?_⟩ <;> simp [hime, State.advance]
  · exact ⟨t, ht, cpuStep_enables hfetch hpending hdi hillegal ht⟩
  · exact ⟨t, ht, cpuStep_di hfetch hi ht⟩

/-! ### The rows of the family (R280 to R284) -/

/-- Settles O25: each meaning is one record update with its cost; `EI` by its parameter. -/
theorem systemInstructionEffects : Obligations.SystemInstructionEffects := by
  intro s n
  refine ⟨?_, ?_, ?_, ?_, ?_⟩
  · exact meaning_row rfl rfl rfl rfl rfl
  · exact meaning_row rfl rfl rfl rfl rfl
  · exact meaning_row rfl rfl rfl rfl rfl
  · exact meaning_row rfl rfl rfl rfl rfl
  · cases hdelay : s.cfg.eiDelay with
    | true => exact meaning_row rfl rfl (exec_ei_delayed hdelay) rfl ⟨fun _ => rfl, nofun⟩
    | false => exact meaning_row rfl rfl (exec_ei_atOnce hdelay) rfl ⟨nofun, fun _ => rfl⟩

end Sys2Proof.Machine

/-! PROOF. The statements of 60_exceptions.md: the phases of a step and the steps that execute nothing, the decode error,
requesting, selecting and taking an interrupt, the timer. -/

namespace Sys2Proof.Machine

/-! ### The outcome of a step (R300, R301) -/

/-- A machine at rest repeats its state at cost 0 (log entry 6). -/
theorem step_atRest {s : State} (h : s.status ≠ .running) : step s = .next (s.cost 0) :=
  (if_neg h).trans (cpuStep_atRest h)

/-- Settles O32: the CPU step answers a next state, and the phases after it are functions. -/
theorem everyStepAnswersNext : Obligations.EveryStepAnswersNext := by
  intro s
  by_cases hs : s.status = .running
  · obtain ⟨u, hu⟩ := cpuStep_next s
    exact ⟨_, step_running hs hu⟩
  · exact ⟨_, step_atRest hs⟩

/-- No interrupt is taken unless the machine is RUNNING. -/
theorem dispatchPhase_of_not_running {s : State} (h : s.status ≠ .running) : dispatchPhase s = s :=
  if_neg fun hrun => h hrun.1

theorem dispatchPhase_of_pending {s : State} {k : IntClass} (hs : s.status = .running) (hime : s.ime = true)
    (hk : getPending s = some k) : dispatchPhase s = dispatchInterrupt k s := by
  rw [dispatchPhase, if_pos ⟨hs, hime⟩, hk]

/-- Settles O39: the phase's own cases; taking an interrupt clears IME, so a second phase has nothing to do. -/
theorem dispatchPhaseTakesAtMostOne : Obligations.DispatchPhaseTakesAtMostOne := by
  intro s
  refine ⟨fun k hs hime hk => ?_, ?_⟩
  · have htaken := dispatchPhase_of_pending hs hime hk
    exact ⟨htaken, dispatchPhase_of_ime_false (by rw [htaken, dispatchInterrupt_ime])⟩
  · rintro (hrest | hime | hnone)
    · exact dispatchPhase_of_not_running hrest
    · exact dispatchPhase_of_ime_false hime
    · exact dispatchPhase_of_pendingMask_zero hnone

/-! ### The steps that execute nothing (R301, R302, R338, R67, R281) -/

/-- A run of a machine at rest consumes no clock tick and shows no frame. -/
theorem run_atRest (n : Nat) {s : State} (h : s.status ≠ .running) : runTicks n s = 0 ∧ runFrames n s = [] := by
  induction n generalizing s with
  | zero => exact ⟨rfl, rfl⟩
  | succ n ih =>
    have hstep := step_atRest h
    obtain ⟨hticks, hframes⟩ := ih (s := s.cost 0) h
    rw [runTicks_succ hstep, runFrames_succ hstep, stepTicks_atRest h, stepFrames_atRest h, hticks, hframes]
    exact ⟨rfl, rfl⟩

/-- The run after its end adds nothing to what was observed (R448). -/
theorem run_after_end {n : Nat} {s t : State} (h : runEndsAt s n t) (m : Nat) :
    runTicks (n + m) s = runTicks n s ∧ runFrames (n + m) s = runFrames n s := by
  obtain ⟨hsteps, hstopped, -⟩ := h
  obtain ⟨hticks, hframes⟩ := run_atRest m (s := t) (by simp [hstopped])
  rw [runTicks_add hsteps, runFrames_add hsteps, hticks, hframes]
  exact ⟨Nat.add_zero _, List.append_nil _⟩

/-- Without an image the CPU step only sets STOPPED (R67, R301). -/
theorem cpuStep_noImage {s : State} (hs : s.status = .running) (hrom : s.romLoaded = false) :
    cpuStep s = .next (({ s with status := .stopped } : State).cost 0) := by
  simp [cpuStep, hs, hrom]

/-- A CPU step that stops the machine is followed by the ticks alone. -/
theorem step_of_stopping {s u : State} (hs : s.status = .running) (hu : cpuStep s = .next u) (hstopped : u.status = .stopped) :
    step s = .next (tickPhase u) := by
  rw [step_running hs hu, dispatchPhase_of_not_running (by simp [hstopped])]

@[simp] theorem tickPhase_quanta (s : State) : (tickPhase s).quanta = s.quanta := by simp [tickPhase]

/-- A halted CPU with an enabled request wakes in the same step, whatever IME is (R281). -/
theorem cpuStep_of_woken {s : State} (hs : s.status = .running) (hrom : s.romLoaded = true) (hpending : pendingMask s ≠ 0) :
    cpuStep s = cpuStep { s with halted := false } := by
  have hwakes : wakes s = true := decide_eq_true hpending
  simp [cpuStep, hs, hrom, hwakes]

/-- Settles O31: at rest by induction over the steps; an ended run is at rest; the other two are branches of the CPU step. -/
theorem restNoImageAndHaltedSteps : Obligations.RestNoImageAndHaltedSteps := by
  intro s
  refine ⟨fun hrest => ⟨step_atRest hrest, cpuStep_atRest hrest, fun n => run_atRest n hrest⟩, fun n m t hend => run_after_end hend m,
    fun hs hrom => ?_, fun hs hrom hhalted => ⟨fun hnone => cpuStep_of_halted hs hrom hhalted hnone, cpuStep_of_woken hs hrom⟩⟩
  refine ⟨_, step_of_stopping hs (cpuStep_noImage hs hrom) rfl, ?_⟩
  simp

/-! ### The step that runs an instruction (R300, R301) -/

/-- What the decoder answers on the bytes at PC is the fetched instruction, with the bytes behind it. -/
theorem decode_at_pc (s : State) :
    decode [readByte s s.pc, readByte s (s.pc + 1), readByte s (s.pc + 2)] =
      .ok (fetchInstr s, [fetchByte s 1, fetchByte s 2].drop ((fetchInstr s).length - 1)) := by
  have hpc : readByte s s.pc = fetchByte s 0 := by rw [fetchByte, BitVec.add_zero]
  rw [hpc]
  exact decode_three _ _ _ (length_range _).2

/-- Nothing is armed unless an `EI` was pending before the instruction and still is (R301). -/
theorem armIme_of_unarmed {arm : Bool} {s : State} (h : ¬ (arm = true ∧ s.imePending = true)) : armIme arm s = s :=
  if_neg (by simpa using h)

/-- Settles O30: the decoder's answer names the fetched instruction; arming, ticks and dispatch are the phases of the step. -/
theorem stepRunsTheDecodedInstruction : Obligations.StepRunsTheDecodedInstruction := by
  intro s i rest hfetch hdecode
  rw [decode_at_pc, Except.ok.injEq, Prod.mk.injEq] at hdecode
  obtain ⟨rfl, rfl⟩ := hdecode
  obtain ⟨hmin, hmax⟩ := length_range (fetchInstr s)
  have hlength : 3 - ([fetchByte s 1, fetchByte s 2].drop ((fetchInstr s).length - 1)).length = (fetchInstr s).length := by
    simp only [List.length_drop, List.length_cons, List.length_nil]
    omega
  refine ⟨(readsBack_decodeBytes _ _ _).wellFormed, fun t ht => ?_⟩
  rw [hlength] at ht
  obtain ⟨u, hu, hcpu⟩ := cpuStep_of_fetches hfetch
  obtain rfl : t = u := next_inj (ht.symm.trans hu)
  refine ⟨afterInstr (fetchInstr s) s.imePending t, ?_, fun hlegal hbefore hafter => ?_, ?_⟩
  · rintro (⟨op, hop⟩ | hunarmed)
    · rw [hop]
      rfl
    · rw [afterInstr, armIme_of_unarmed hunarmed, ite_self]
  · rw [afterInstr_of_not_illegal hlegal, armIme, hbefore, hafter, Bool.and_self, if_pos rfl]
  · rw [step_running hfetch.1 hcpu, tickPhase, afterInstr_quanta]

/-! ### The decode error (R286, R330) -/

/-- The CPU step of an unassigned opcode. -/
theorem cpuStep_illegal {s : State} (h : fetches s) {op : Unassigned} (hi : fetchInstr s = .illegal op) :
    cpuStep s = .next (raiseDecodeError { s.advance 1 with halted := false }) := by
  obtain ⟨t, ht, hstep⟩ := cpuStep_of_fetches h
  rw [hi] at ht hstep
  obtain rfl := next_inj ht
  exact hstep

/-- Below the mode's duration there is no transition (R385, R389). -/
theorem runTransitions_of_lt {s : State} (h : s.video.modeClock < modeDuration s.video.mode) (fuel : Nat) :
    runTransitions fuel s = s := by
  cases fuel with
  | zero => rfl
  | succ fuel => rw [runTransitions, transition, if_pos h]

/-- A tick of 0 compares LY with LYC and does nothing else (R384, R389). -/
theorem videoTick_zero {s : State} (h : s.video.modeClock < modeDuration s.video.mode) : videoTick 0 s = compareLine s := by
  have hclock : s.addClock 0 = s := rfl
  rw [videoTick, hclock, runTransitions_of_lt h]

/-- A tick of 0 does not move the divider (R341). -/
theorem timerTick_zero_div {s : State} (h : s.timer.divAcc < 256) : (timerTick 0 s).timer.div = s.timer.div := by
  simp [timerTick, dividerTick, Nat.div_eq_of_lt h]

/-- The tick phase of a step that cost nothing moves neither the divider nor the video unit (R349, R389). -/
theorem tickPhase_of_free {s : State} (hq : s.quanta = 0) (hdivider : s.timer.divAcc < 256)
    (hclock : s.video.modeClock < modeDuration s.video.mode) :
    (tickPhase s).timer.div = s.timer.div ∧ (tickPhase s).video.ly = s.video.ly ∧ (tickPhase s).video.mode = s.video.mode ∧
      (tickPhase s).video.framebuffer = s.video.framebuffer := by
  have hvideo : videoTick 0 (timerTick 0 s) = compareLine (timerTick 0 s) := videoTick_zero (by simpa using hclock)
  rw [tickPhase, hq, Nat.mul_zero]
  exact ⟨by rw [videoTick_timer, timerTick_zero_div hdivider], by simp [hvideo], by simp [hvideo], by simp [hvideo]⟩

/-- Settles O33: the CPU step stops the machine at cost 0, so the ticks are of 0 and no interrupt is taken. -/
theorem decodeErrorStepStops : Obligations.DecodeErrorStepStops := by
  intro s hinv hfetch hop
  obtain ⟨op, hop⟩ := exists_unassignedByte_iff.mpr hop
  have hi : fetchInstr s = .illegal op := decodeBytes_eq_illegal_iff.mpr (by rw [fetchByte, BitVec.add_zero, hop])
  obtain ⟨hdiv, hly, hmode, hframebuffer⟩ :=
    tickPhase_of_free (s := raiseDecodeError { s.advance 1 with halted := false }) rfl hinv.timer.divAcc hinv.video.modeClock
  refine ⟨_, step_of_stopping hfetch.1 (cpuStep_illegal hfetch hi) rfl, ?_, ?_, ?_, ?_, ?_, ?_, ?_, ?_, ?_, ?_, hdiv, hly, hmode,
    hframebuffer⟩ <;> simp

/-! ### Requests and clears (R311, R312) -/

theorem bitMask_intBit (k : IntClass) : bitMask (intBit k) = BitVec.ofNat 8 (2 ^ intBit k) := by cases k <;> rfl

theorem intBit_lt (k : IntClass) : intBit k < 5 := by cases k <;> decide

/-- The bits of IF after class `k` is cleared (R312). -/
theorem clearedClass_getLsbD (k : IntClass) (v : Byte) {b : Nat} (hb : b < 8) :
    (v &&& ~~~bitMask (intBit k)).getLsbD b = if b = intBit k then false else v.getLsbD b :=
  and_not_bitMask (Nat.lt_trans (intBit_lt k) (by decide)) v hb

/-- Settles O37: the branches of the two functions; that a closed gate loses every request of a tick stands with O34. -/
theorem requestsAndClearsAreGated : Obligations.RequestsAndClearsAreGated := by
  intro s k gate n
  refine ⟨fun hgated hime => ?_, fun hopen => ?_, fun hgated hgate => ?_, fun hopen => ?_⟩
  · have hclosed : GateClosed s := ⟨hgated, hime⟩
    exact ⟨requestInterrupt_of_gateClosed hclosed k, timerTick_ifl_of_gateClosed hclosed n, videoTick_ifl_of_gateClosed hclosed n⟩
  · rw [← bitMask_intBit]
    exact if_neg (by rcases hopen with h | h <;> simp [h])
  · exact if_pos (by simp [hgated, hgate])
  · exact ⟨_, if_neg (by rcases hopen with h | h <;> simp [h]), fun b => clearedClass_getLsbD k s.ifl⟩

/-! ### Selecting an interrupt (R313) -/

/-- Class `k` is enabled and requested. -/
def IsPending (s : State) (k : IntClass) : Prop := (pendingMask s).getLsbD (intBit k) = true

theorem isPending_iff {s : State} {k : IntClass} :
    IsPending s k ↔ s.ie.getLsbD (intBit k) = true ∧ s.ifl.getLsbD (intBit k) = true := by
  cases k <;> simp [IsPending, pendingMask, intBit]

/-- Every bit of the mask 0x1F belongs to a class. -/
theorem exists_intBit_of_mask {b : Nat} (h : (0x1F : Byte).getLsbD b = true) : ∃ k, b = intBit k := by
  have hb : b < 8 := BitVec.lt_of_getLsbD h
  interval_cases b
  · exact ⟨.vblank, rfl⟩
  · exact ⟨.status, rfl⟩
  · exact ⟨.timer, rfl⟩
  · exact ⟨.serial, rfl⟩
  · exact ⟨.joypad, rfl⟩
  all_goals cases h

/-- The mask is empty exactly when no class is pending. -/
theorem pendingMask_eq_zero_iff {s : State} : pendingMask s = 0 ↔ ∀ k, ¬ IsPending s k := by
  refine ⟨fun h k => by simp [IsPending, h], fun h => BitVec.eq_of_getLsbD_eq fun b _ => ?_⟩
  refine (Bool.eq_false_iff.mpr fun hbit => ?_).trans BitVec.getLsbD_zero.symm
  have hmask : (0x1F : Byte).getLsbD b = true := by
    rw [pendingMask, BitVec.getLsbD_and, Bool.and_eq_true] at hbit
    exact hbit.2
  obtain ⟨k, rfl⟩ := exists_intBit_of_mask hmask
  exact h k hbit

theorem intBit_injective : Function.Injective intBit := by
  intro j k h
  cases j <;> cases k <;> cases h <;> rfl

/-- No class whose bit is below `n` is pending. -/
def NonePendingBelow (s : State) (n : Nat) : Prop := ∀ j, intBit j < n → ¬ IsPending s j

theorem NonePendingBelow.succ {s : State} {k : IntClass} (h : NonePendingBelow s (intBit k)) (hk : ¬ IsPending s k) :
    NonePendingBelow s (intBit k + 1) := by
  intro j hj
  rcases Nat.lt_succ_iff_lt_or_eq.mp hj with hlt | heq
  · exact h j hlt
  · rwa [intBit_injective heq]

/-- The selection tests the classes in rising order: it answers the first that is pending, or none is. -/
theorem getPending_cases (s : State) :
    (∃ k, getPending s = some k ∧ IsPending s k ∧ NonePendingBelow s (intBit k)) ∨
    (getPending s = none ∧ ∀ k, ¬ IsPending s k) := by
  have hnone0 : NonePendingBelow s (intBit .vblank) := fun j hj => absurd hj (Nat.not_lt_zero _)
  unfold getPending
  split
  next h => exact .inl ⟨.vblank, rfl, h, hnone0⟩
  next h0 =>
    have hnone1 : NonePendingBelow s (intBit .status) := hnone0.succ h0
    split
    next h => exact .inl ⟨.status, rfl, h, hnone1⟩
    next h1 =>
      have hnone2 : NonePendingBelow s (intBit .timer) := hnone1.succ h1
      split
      next h => exact .inl ⟨.timer, rfl, h, hnone2⟩
      next h2 =>
        have hnone3 : NonePendingBelow s (intBit .serial) := hnone2.succ h2
        split
        next h => exact .inl ⟨.serial, rfl, h, hnone3⟩
        next h3 =>
          have hnone4 : NonePendingBelow s (intBit .joypad) := hnone3.succ h3
          split
          next h => exact .inl ⟨.joypad, rfl, h, hnone4⟩
          next h4 => exact .inr ⟨rfl, fun k => hnone4.succ h4 k (intBit_lt k)⟩

/-- Two least pending classes are one. -/
theorem leastPending_unique {s : State} {j k : IntClass} (hj : IsPending s j) (hbelowj : NonePendingBelow s (intBit j))
    (hk : IsPending s k) (hbelowk : NonePendingBelow s (intBit k)) : j = k := by
  refine intBit_injective (Nat.le_antisymm ?_ ?_)
  · exact Nat.le_of_not_lt fun hlt => hbelowj k hlt hk
  · exact Nat.le_of_not_lt fun hlt => hbelowk j hlt hj

theorem getPending_eq_some_iff {s : State} {k : IntClass} :
    getPending s = some k ↔ IsPending s k ∧ NonePendingBelow s (intBit k) := by
  rcases getPending_cases s with ⟨j, hj, hpending, hbelow⟩ | ⟨hnone, hall⟩
  · rw [hj, Option.some.injEq]
    constructor
    · rintro rfl
      exact ⟨hpending, hbelow⟩
    · rintro ⟨hk, hbelowk⟩
      exact leastPending_unique hpending hbelow hk hbelowk
  · rw [hnone]
    exact ⟨nofun, fun ⟨hk, _⟩ => absurd hk (hall k)⟩

theorem getPending_eq_none_iff {s : State} : getPending s = none ↔ ∀ k, ¬ IsPending s k := by
  rcases getPending_cases s with ⟨j, hj, hpending, -⟩ | ⟨hnone, hall⟩
  · rw [hj]
    exact ⟨nofun, fun hall => absurd hpending (hall j)⟩
  · exact ⟨fun _ => hall, fun _ => hnone⟩

/-- Settles O36: the class selected is the least one pending, and the mask is empty when none is. -/
theorem lowestPendingClassWins : Obligations.LowestPendingClassWins := by
  intro s
  simp only [← and_assoc, ← isPending_iff]
  exact ⟨fun k => getPending_eq_some_iff, getPending_eq_none_iff.trans pendingMask_eq_zero_iff.symm⟩

/-! ### Taking an interrupt (R320, R321) -/

/-- Only a store at 0xFF0F reaches IF (R35, R75). -/
theorem writeByte_ifl_other (s : State) {a : Word} (h : a ≠ portAddr .ifl) (v : Byte) : (writeByte s a v).ifl = s.ifl := by
  unfold writeByte
  split
  next => rfl
  next => rfl
  next => rfl
  next p hp =>
    cases p
    case ifl => exact absurd (eq_portAddr hp) h
    case dma =>
      rw [writePort, oamCopy_eq]
    all_goals rfl
  next => rfl

/-- A store at the address below `a` does not reach `a`. -/
theorem not_storeReaches_pred (a : Word) : ¬ storeReaches (a - 1) a := by
  unfold storeReaches sameLocation isEcho
  bv_omega

/-- The state in which the entry to the handler of class `k` pushes PC (R320). -/
def entryState (k : IntClass) (s : State) : State :=
  { s with ime := false, imePending := false, halted := false, ifl := s.ifl &&& ~~~bitMask (intBit k) }

/-- The entry reads no address but IF differently. -/
theorem readByte_entryState (k : IntClass) (s : State) {a : Word} (ha : a ≠ portAddr .ifl) :
    readByte (entryState k s) a = readByte s a := by
  have hport : readByte (entryState k s) a = readByte (writePort .ifl (s.ifl &&& ~~~bitMask (intBit k)) s) a :=
    readByte_congr rfl rfl rfl rfl rfl rfl rfl rfl a
  rw [hport, readByte_writePort_other s _ ha.symm nofun nofun]

theorem storesTwo_dispatchInterrupt (k : IntClass) {s : State} (hs : Memory.wf s.mem) (hime : s.ime = true) :
    StoresTwo (entryState k s) (dispatchInterrupt k s) (s.sp - 1) (hi s.pc) (s.sp - 2) (lo s.pc) := by
  refine storesTwo_of (s := entryState k s) hs ?_
  rw [dispatchInterrupt_eq k hime, push16_eq]
  rfl

/-- Where the push does not reach IF, exactly the class's bit is cleared. -/
theorem dispatchInterrupt_ifl (k : IntClass) {s : State} (hs : Memory.wf s.mem) (hime : s.ime = true) (h1 : s.sp - 1 ≠ 0xFF0F)
    (h2 : s.sp - 2 ≠ 0xFF0F) : (dispatchInterrupt k s).ifl = s.ifl &&& ~~~bitMask (intBit k) := by
  rw [(storesTwo_dispatchInterrupt k hs hime).write]
  exact (writeByte_ifl_other _ h2 _).trans (writeByte_ifl_other _ h1 _)

/-- Settles O38: the entry is a push from `entryState`. -/
theorem dispatchEntersTheHandler : Obligations.DispatchEntersTheHandler := by
  intro s k hs hime t
  have hstores := storesTwo_dispatchInterrupt k hs hime
  obtain ⟨htimaAcc, hoverflow, hly, hmode, hmodeClock, hcoincidence, hframebuffer⟩ := hstores.hidden
  refine ⟨dispatchInterrupt_pc k s, dispatchInterrupt_sp k s, dispatchInterrupt_ime k s, dispatchInterrupt_imePending k s,
    dispatchInterrupt_halted k s, dispatchInterrupt_regs k s, dispatchInterrupt_flags k s, dispatchInterrupt_status k s,
    dispatchInterrupt_quanta k s, ⟨htimaAcc, hoverflow, hly, hmode, hmodeClock, hcoincidence, hframebuffer⟩, fun hram => ?_,
    hstores.second, fun h10 h11 b hb => ?_, fun a ha h1 h2 => ?_⟩
  · refine hstores.first hram ?_
    rw [show s.sp - 2 = s.sp - 1 - 1 by bv_omega]
    exact not_storeReaches_pred _
  · rw [dispatchInterrupt_ifl k hs hime (by bv_omega) (by bv_omega)]
    exact clearedClass_getLsbD k s.ifl hb
  · rw [hstores.elsewhere a h1 h2, readByte_entryState k s ha]

/-! ### The timer's tick as a reload and counting (R341, R342) -/

/-- The threshold crossings of a tick of `n`: none while the counter is disabled. -/
def timerCrossings (n : Nat) (t : Timer) : Nat := if t.tac.getLsbD 2 then (t.timaAcc + n) / timerThreshold t.tac else 0

/-- What a tick of `n` leaves in `tima_acc`. -/
def timerRemainder (n : Nat) (t : Timer) : Nat := if t.tac.getLsbD 2 then (t.timaAcc + n) % timerThreshold t.tac else t.timaAcc

/-- The counter, enabled or not. -/
theorem counterTick_eq (n : Nat) (t : Timer) :
    counterTick n t =
      { t with
        timaAcc := timerRemainder n t
        tima := BitVec.ofNat 8 (t.tima.toNat + timerCrossings n t)
        overflow := t.overflow || decide (255 < t.tima.toNat + timerCrossings n t) } := by
  unfold counterTick timerRemainder timerCrossings
  split
  · rw [timaCrossings_eq]
  · have hlt : ¬ 255 < t.tima.toNat := by have := t.tima.isLt; omega
    simp [hlt]

/-- The divider and the counter of a tick of `n`. -/
def countTick (n : Nat) (t : Timer) : Timer := counterTick n (dividerTick n t)

theorem countTick_eq (n : Nat) (t : Timer) :
    countTick n t =
      { t with
        div := t.div + BitVec.ofNat 8 ((t.divAcc + n) / 256)
        divAcc := (t.divAcc + n) % 256
        timaAcc := timerRemainder n t
        tima := BitVec.ofNat 8 (t.tima.toNat + timerCrossings n t)
        overflow := t.overflow || decide (255 < t.tima.toNat + timerCrossings n t) } :=
  counterTick_eq n (dividerTick n t)

theorem timerReload_of_not_overflow {s : State} (h : s.timer.overflow = false) : timerReload s = s := by
  simp [timerReload, h]

/-- A request reads nothing of the timer. -/
theorem requestInterrupt_withTimer (k : IntClass) (s : State) (t : Timer) :
    requestInterrupt k { s with timer := t } = { requestInterrupt k s with timer := t } := by
  unfold requestInterrupt
  split <;> rfl

/-- A waiting overflow: TIMA from TMA, and the request of class 2. -/
theorem timerReload_of_overflow {s : State} (h : s.timer.overflow = true) :
    timerReload s =
      { requestInterrupt .timer s with timer := { s.timer with tima := s.timer.tma, overflow := false } } := by
  rw [timerReload, if_pos h, requestInterrupt_withTimer]

/-- The reload and the divider touch different registers. -/
theorem timerReload_dividerTick (n : Nat) (s : State) :
    timerReload { s with timer := dividerTick n s.timer } =
      { timerReload s with timer := dividerTick n (timerReload s).timer } := by
  cases h : s.timer.overflow with
  | false => rw [timerReload_of_not_overflow h, timerReload_of_not_overflow (by exact h)]
  | true =>
    rw [timerReload_of_overflow h, timerReload_of_overflow (by exact h), requestInterrupt_withTimer]
    rfl

/-- A tick is the reload and then all its counting. -/
theorem timerTick_eq (n : Nat) (s : State) :
    timerTick n s = { timerReload s with timer := countTick n (timerReload s).timer } := by
  rw [timerTick, timerReload_dividerTick]
  rfl

/-- No overflow waits after the reload. -/
@[simp] theorem timerReload_timer_overflow (s : State) : (timerReload s).timer.overflow = false := by
  cases h : s.timer.overflow with
  | false => rw [timerReload_of_not_overflow h, h]
  | true => rw [timerReload_of_overflow h]

/-- The value TIMA counts on from. -/
theorem timerReload_timer_tima (s : State) :
    (timerReload s).timer.tima.toNat = if s.timer.overflow then s.timer.tma.toNat else s.timer.tima.toNat := by
  cases h : s.timer.overflow with
  | false => simp [timerReload_of_not_overflow h]
  | true => simp [timerReload_of_overflow h]

theorem timerReload_ifl (s : State) :
    (timerReload s).ifl = if s.timer.overflow then (requestInterrupt .timer s).ifl else s.ifl := by
  cases h : s.timer.overflow with
  | false => simp [timerReload_of_not_overflow h]
  | true => simp [timerReload_of_overflow h]

/-- A tick changes IF and the timer alone. -/
theorem timerTick_frame (n : Nat) (s : State) :
    timerTick n s = { s with ifl := (timerTick n s).ifl, timer := (timerTick n s).timer } := by
  rw [timerTick_eq]
  cases h : s.timer.overflow with
  | false => rw [timerReload_of_not_overflow h]
  | true =>
    rw [timerReload_of_overflow h]
    rcases requestInterrupt_eq .timer s with hlost | hset
    · rw [hlost]
    · rw [hset]

/-- The rows of R342. -/
theorem timerThreshold_of_row {tac : Byte} {threshold : Nat}
    (h : (tac.toNat % 4, threshold) ∈ [(0, 1024), (1, 16), (2, 64), (3, 256)]) : timerThreshold tac = threshold := by
  have hcode (k : BitVec 2) (hk : tac.toNat % 4 = k.toNat) : tac.extractLsb' 0 2 = k := BitVec.eq_of_toNat_eq (by simpa using hk)
  simp only [List.mem_cons, Prod.mk.injEq, List.not_mem_nil, or_false] at h
  rcases h with ⟨hk, rfl⟩ | ⟨hk, rfl⟩ | ⟨hk, rfl⟩ | ⟨hk, rfl⟩
  · simp [timerThreshold, hcode 0 hk]
  · simp [timerThreshold, hcode 1 hk]
  · simp [timerThreshold, hcode 2 hk]
  · simp [timerThreshold, hcode 3 hk]

/-- Settles O40: the tick as the reload and its counting, field by field. -/
theorem timerTickInClosedForm : Obligations.TimerTickInClosedForm := by
  intro s n base threshold crossings hbase hthreshold hcrossings t
  have hbase' : (timerReload s).timer.tima.toNat = base := by rw [timerReload_timer_tima, hbase]
  have hcrossings' : timerCrossings n (timerReload s).timer = crossings := by
    simp [timerCrossings, timerThreshold_of_row hthreshold, hcrossings]
  have ht : t = { timerReload s with timer := countTick n (timerReload s).timer } := timerTick_eq n s
  have htimer : t.timer = countTick n (timerReload s).timer := by rw [ht]
  have hifl : t.ifl = (timerReload s).ifl := by rw [ht]
  have hframe : t = { s with ifl := t.ifl, timer := { t.timer with tma := s.timer.tma, tac := s.timer.tac } } := by
    rw [← timerTick_timer_tma n s, ← timerTick_timer_tac n s]
    exact timerTick_frame n s
  rw [countTick_eq, hbase', hcrossings'] at htimer
  refine ⟨?_, ?_, ?_, ?_, ?_, hifl.trans (timerReload_ifl s), hframe⟩
  · simp [htimer]
  · simp [htimer]
  · simp [htimer]
  · simp [htimer]
  · simp [htimer, timerRemainder, timerThreshold_of_row hthreshold]

/-! ### Ticks add (R341) -/

/-- Dividing in two portions, the remainder carried over. -/
theorem div_add_div_of_mod_add (x m d : Nat) : x / d + (x % d + m) / d = (x + m) / d := by
  rcases Nat.eq_zero_or_pos d with rfl | hd
  · simp
  · calc x / d + (x % d + m) / d = (x % d + m + d * (x / d)) / d := by rw [Nat.add_mul_div_left _ _ hd, Nat.add_comm]
      _ = (x % d + d * (x / d) + m) / d := by rw [Nat.add_right_comm]
      _ = (x + m) / d := by rw [Nat.mod_add_div]

theorem timerCrossings_countTick (n m : Nat) (t : Timer) :
    timerCrossings n t + timerCrossings m (countTick n t) = timerCrossings (n + m) t := by
  unfold timerCrossings
  rw [countTick_eq, timerRemainder]
  split
  · rw [div_add_div_of_mod_add, Nat.add_assoc]
  · rfl

theorem timerRemainder_countTick (n m : Nat) (t : Timer) :
    timerRemainder m (countTick n t) = timerRemainder (n + m) t := by
  rw [countTick_eq]
  unfold timerRemainder
  dsimp only
  split
  · rw [Nat.mod_add_mod, Nat.add_assoc]
  · rfl

/-- Counting on after a tick that set no overflow is counting the sum. -/
theorem countTick_countTick {n : Nat} {t : Timer} (m : Nat) (h : (countTick n t).overflow = false) :
    countTick m (countTick n t) = countTick (n + m) t := by
  have hcrossings := timerCrossings_countTick n m t
  have hremainder := timerRemainder_countTick n m t
  rw [countTick_eq m, hremainder, countTick_eq (n + m), ← hcrossings]
  generalize timerCrossings m (countTick n t) = later at *
  rw [countTick_eq] at h ⊢
  obtain ⟨hclear, hbelow⟩ : t.overflow = false ∧ t.tima.toNat + timerCrossings n t ≤ 255 := by simpa using h
  have htima : (BitVec.ofNat 8 (t.tima.toNat + timerCrossings n t)).toNat = t.tima.toNat + timerCrossings n t := by
    simp
    omega
  have hdiv : (t.divAcc + n) / 256 + ((t.divAcc + n) % 256 + m) / 256 = (t.divAcc + (n + m)) / 256 := by
    rw [div_add_div_of_mod_add, Nat.add_assoc]
  have hoverflow : ¬ 255 < t.tima.toNat + timerCrossings n t := Nat.not_lt.mpr hbelow
  simp [htima, hclear, hoverflow, BitVec.add_assoc, ← BitVec.ofNat_add, hdiv, Nat.add_assoc]

/-- Settles O41: without an overflow the second tick reloads nothing, and its counting goes on from the first's. -/
theorem timerTicksAdd : Obligations.TimerTicksAdd := by
  intro s n m h
  have hcount : (countTick n (timerReload s).timer).overflow = false := by rwa [timerTick_eq] at h
  rw [timerTick_eq m, timerReload_of_not_overflow h, timerTick_eq n, timerTick_eq (n + m), ← countTick_countTick m hcount]

end Sys2Proof.Machine

/-! PROOF. The statements of 61_ppu.md: the place in the frame along ticks and runs and the frames shown, the transitions of the
mode machine, the line compare, the rendered row with its background and sprites, and the OAM copy. -/

namespace Sys2Proof.Machine

/-! ### The place in the frame (R384, R385, R388) -/

/-- Where in its line a mode begins (R388). -/
def modeOffset : Mode → Nat
  | .oamSearch => 0
  | .pixelTransfer => 80
  | .hblank => 252
  | .vblank => 0

/-- The place in the frame at which the current mode, or the current line of vertical-blank, began. -/
def modeStart (v : Video) : Nat := 456 * v.ly.toNat + modeOffset v.mode

theorem framePosition_eq (v : Video) : framePosition v = modeStart v + v.modeClock := by
  unfold framePosition modeStart
  cases v.mode <;> simp only [modeOffset] <;> omega

theorem modeStart_ge (v : Video) : 456 * v.ly.toNat ≤ modeStart v := Nat.le_add_right ..

/-- No mode runs over the end of its line. -/
theorem modeStart_add_modeDuration_le (v : Video) : modeStart v + modeDuration v.mode ≤ 456 * (v.ly.toNat + 1) := by
  unfold modeStart
  cases v.mode <;> simp only [modeOffset, modeDuration] <;> omega

theorem modeStart_lt (v : Video) : modeStart v < 456 * (v.ly.toNat + 1) := by
  have hend := modeStart_add_modeDuration_le v
  have hpos := modeDuration_ge v.mode
  omega

theorem VideoInv.framePosition_lt {v : Video} (h : VideoInv v) : framePosition v < 70224 := by
  have hend := modeStart_add_modeDuration_le v
  have hly := h.lyRange
  have hclock := h.modeClock
  rw [framePosition_eq]
  omega

/-- A tick moves the place in the frame by its clock ticks, modulo the frame (R384, R388). -/
theorem framePosition_videoTick {s : State} (h : VideoInv s.video) (n : Nat) :
    framePosition (videoTick n s).video = (framePosition s.video + n) % 70224 := by
  have hshape : VideoShape (s.addClock n).video := ⟨h.lyRange, h.vblankLines, h.framebuffer⟩
  have hstart : framePosition (s.addClock n).video = framePosition s.video + n := by
    simp only [framePosition_eq, modeStart, State.addClock, Nat.add_assoc]
  have hcompare : framePosition (videoTick n s).video =
      framePosition (runTransitions (transitionFuel n s) (s.addClock n)).video := by
    simp [videoTick, framePosition]
  obtain ⟨-, hposition, -⟩ := runTransitions_shape (transitionFuel n s) hshape
  rw [← Nat.mod_eq_of_lt (videoTick_inv h n).framePosition_lt, hcompare, hposition, hstart]

/-- However the clock ticks are grouped: soundness is kept and the place advances by their sum. -/
theorem videoTicks_framePosition (ns : List Nat) {s : State} (h : VideoInv s.video) :
    VideoInv (ns.foldl (fun u n => videoTick n u) s).video ∧
      framePosition (ns.foldl (fun u n => videoTick n u) s).video = (framePosition s.video + ns.sum) % 70224 := by
  induction ns generalizing s with
  | nil => exact ⟨h, (Nat.mod_eq_of_lt h.framePosition_lt).symm⟩
  | cons n ns ih =>
    obtain ⟨hinv, hposition⟩ := ih (videoTick_inv h n)
    refine ⟨hinv, hposition.trans ?_⟩
    rw [framePosition_videoTick h, Nat.mod_add_mod, List.sum_cons, Nat.add_assoc]

/-- The place in the frame determines the line. -/
theorem VideoInv.ly_eq {v : Video} (h : VideoInv v) : v.ly.toNat = framePosition v / 456 := by
  have hstart := modeStart_ge v
  have hend := modeStart_add_modeDuration_le v
  have hclock := h.modeClock
  rw [framePosition_eq]
  omega

/-- The place in the frame determines the mode: by the line at and after 144, by the place in the line before. -/
theorem VideoInv.mode_iff {v : Video} (h : VideoInv v) :
    (v.mode = .oamSearch ↔ v.ly.toNat < 144 ∧ framePosition v % 456 < 80) ∧
    (v.mode = .pixelTransfer ↔ v.ly.toNat < 144 ∧ 80 ≤ framePosition v % 456 ∧ framePosition v % 456 < 252) ∧
    (v.mode = .hblank ↔ v.ly.toNat < 144 ∧ 252 ≤ framePosition v % 456) ∧
    (v.mode = .vblank ↔ 144 ≤ v.ly.toNat) := by
  have hclock := h.modeClock
  have hvblank := h.vblankLines
  rw [framePosition_eq, modeStart]
  cases hmode : v.mode <;> simp only [hmode, modeDuration, modeOffset, reduceCtorEq, true_iff, false_iff] at hclock hvblank ⊢ <;>
    omega

/-! ### The frames shown (R385, R448) -/

/-- The line of vertical-blank's entry, by the place at which it begins. -/
theorem VideoShape.modeStart_eq_iff {v : Video} (h : VideoShape v) : modeStart v = 65664 ↔ v.ly = 144 := by
  constructor
  · intro hstart
    have hge := modeStart_ge v
    have hlt := modeStart_lt v
    exact BitVec.eq_of_toNat_eq (show v.ly.toNat = 144 by omega)
  · intro hly
    have hmode : v.mode = .vblank := h.vblankLines.mpr (by rw [hly]; decide)
    rw [modeStart, hmode, hly]
    rfl

/-- The next mode begins where the current one ends, modulo the frame. -/
theorem modeStart_leaveMode {s : State} (h : VideoShape s.video) (hc : modeDuration s.video.mode ≤ s.video.modeClock) :
    modeStart (leaveMode s).video = (modeStart s.video + modeDuration s.video.mode) % 70224 := by
  obtain ⟨hshape, hclock, hposition⟩ := leaveMode_shape h hc
  have hly := hshape.lyRange
  have hlt := modeStart_lt (leaveMode s).video
  rw [framePosition_eq, framePosition_eq] at hposition
  omega

/-- The frame a transition from `s` to `t` shows, if LY becomes 144 (R448). -/
def frameShown (s t : State) : List Frame := if s.video.ly ≠ 144 ∧ t.video.ly = 144 then [t.video.framebuffer] else []

theorem transition_of_lt {s : State} (h : s.video.modeClock < modeDuration s.video.mode) : transition s = none := if_pos h

theorem transition_of_ge {s : State} (h : modeDuration s.video.mode ≤ s.video.modeClock) : transition s = some (leaveMode s) :=
  if_neg (Nat.not_lt.mpr h)

theorem framesOfTransitions_of_lt {s : State} (h : s.video.modeClock < modeDuration s.video.mode) (fuel : Nat) :
    framesOfTransitions fuel s = [] := by
  cases fuel with
  | zero => rfl
  | succ fuel => rw [framesOfTransitions, transition_of_lt h]

theorem framesOfTransitions_of_ge {s : State} (h : modeDuration s.video.mode ≤ s.video.modeClock) (fuel : Nat) :
    framesOfTransitions (fuel + 1) s = frameShown s (leaveMode s) ++ framesOfTransitions fuel (leaveMode s) := by
  rw [framesOfTransitions, transition_of_ge h]
  rfl

theorem runTransitions_of_ge {s : State} (h : modeDuration s.video.mode ≤ s.video.modeClock) (fuel : Nat) :
    runTransitions (fuel + 1) s = runTransitions fuel (leaveMode s) := by
  rw [runTransitions, transition_of_ge h]

/-- A transition shows a frame exactly when the mode it enters begins at line 144's place. -/
theorem frameShown_leaveMode {s : State} (h : VideoShape s.video) (hc : modeDuration s.video.mode ≤ s.video.modeClock) :
    frameShown s (leaveMode s) = if modeStart (leaveMode s).video = 65664 then [(leaveMode s).video.framebuffer] else [] := by
  obtain ⟨hshape, -, -⟩ := leaveMode_shape h hc
  have hnext := modeStart_leaveMode h hc
  have hpos := modeDuration_ge s.video.mode
  have hend := modeStart_add_modeDuration_le s.video
  have hly := h.lyRange
  have henters : s.video.ly ≠ 144 ∧ (leaveMode s).video.ly = 144 ↔ modeStart (leaveMode s).video = 65664 := by
    rw [← hshape.modeStart_eq_iff, ne_eq, ← h.modeStart_eq_iff]
    omega
  exact if_congr henters rfl rfl

/-- The loop shows one frame for each time the place passes the start of line 144, counted from where the current mode began. -/
theorem framesOfTransitions_length (fuel : Nat) {s : State} (h : VideoShape s.video) (hfuel : s.video.modeClock < 80 * fuel) :
    (framesOfTransitions fuel s).length + (modeStart s.video + 4560) / 70224 = (framePosition s.video + 4560) / 70224 := by
  induction fuel generalizing s with
  | zero => omega
  | succ fuel ih =>
    have hbegin := modeStart_ge s.video
    have hend := modeStart_add_modeDuration_le s.video
    have hly := h.lyRange
    rw [framePosition_eq]
    by_cases hc : s.video.modeClock < modeDuration s.video.mode
    · rw [framesOfTransitions_of_lt hc, List.length_nil]
      omega
    · have hge := Nat.not_lt.mp hc
      have hpos := modeDuration_ge s.video.mode
      obtain ⟨hshape, hclock, -⟩ := leaveMode_shape h hge
      have hnext := modeStart_leaveMode h hge
      have hrest := ih hshape (by omega)
      rw [framePosition_eq] at hrest
      rw [framesOfTransitions_of_ge hge, frameShown_leaveMode h hge, List.length_append]
      split
      · simp only [List.length_singleton]
        omega
      · simp only [List.length_nil]
        omega

/-- Vertical-blank renders nothing (R385, R392). -/
theorem leaveMode_framebuffer_of_vblank {s : State} (h : s.video.mode = .vblank) :
    (leaveMode s).video.framebuffer = s.video.framebuffer := by
  simp only [leaveMode, h, endVblankLine]
  split
  · rw [statRequest_video]
    rfl
  · rfl

/-- A loop that ends in vertical-blank ends with the framebuffer it showed last, or with the one it began with if it began in
vertical-blank too. -/
theorem framesOfTransitions_getLast (fuel : Nat) {s : State} (h : VideoShape s.video)
    (hend : 144 ≤ (runTransitions fuel s).video.ly.toNat) :
    (framesOfTransitions fuel s).getLast? = some (runTransitions fuel s).video.framebuffer ∨
      (144 ≤ s.video.ly.toNat ∧ framesOfTransitions fuel s = [] ∧
        (runTransitions fuel s).video.framebuffer = s.video.framebuffer) := by
  induction fuel generalizing s with
  | zero => exact .inr ⟨hend, rfl, rfl⟩
  | succ fuel ih =>
    by_cases hc : s.video.modeClock < modeDuration s.video.mode
    · rw [runTransitions_of_lt hc] at hend ⊢
      exact .inr ⟨hend, framesOfTransitions_of_lt hc _, rfl⟩
    · have hge := Nat.not_lt.mp hc
      obtain ⟨hshape, -, -⟩ := leaveMode_shape h hge
      rw [runTransitions_of_ge hge] at hend ⊢
      rw [framesOfTransitions_of_ge hge, frameShown_leaveMode h hge]
      rcases ih hshape hend with hlast | ⟨hvblank, hnone, hsame⟩
      · exact .inl (by rw [List.getLast?_append, hlast, Option.some_or])
      · rw [hnone, hsame, List.append_nil]
        split
        · exact .inl rfl
        · next hshown =>
          have hbegin := modeStart_ge (leaveMode s).video
          have hnext := modeStart_leaveMode h hge
          have hlineEnd := modeStart_add_modeDuration_le s.video
          have hly : 144 ≤ s.video.ly.toNat := by omega
          exact .inr ⟨hly, rfl, leaveMode_framebuffer_of_vblank (h.vblankLines.mpr hly)⟩

/-- A tick of a sound video unit shows one frame for each time the place passes the start of line 144. -/
theorem framesOfTick_length {s : State} (h : VideoInv s.video) (n : Nat) :
    (framesOfTick n s).length + (framePosition s.video + 4560) / 70224 = (framePosition s.video + n + 4560) / 70224 := by
  have hshape : VideoShape (s.addClock n).video := ⟨h.lyRange, h.vblankLines, h.framebuffer⟩
  have hfuel : (s.addClock n).video.modeClock < 80 * transitionFuel n s := by
    simp only [State.addClock, transitionFuel]
    omega
  have hcount := framesOfTransitions_length (transitionFuel n s) hshape hfuel
  have hstart : modeStart (s.addClock n).video = modeStart s.video := rfl
  have hclock : (s.addClock n).video.modeClock = s.video.modeClock + n := rfl
  rw [framePosition_eq, hstart, hclock] at hcount
  have hbegin := modeStart_ge s.video
  have hend := modeStart_add_modeDuration_le s.video
  have hly := h.lyRange
  have hlt := h.modeClock
  rw [framesOfTick, framePosition_eq]
  omega

/-- A tick of less than a frame that enters vertical-blank shows the framebuffer it leaves, and no other. -/
theorem framesOfTick_of_entersVblank {s : State} (h : VideoInv s.video) {n : Nat} (hn : n < 70224) (hbefore : s.video.ly.toNat < 144)
    (hafter : 144 ≤ (videoTick n s).video.ly.toNat) : framesOfTick n s = [(videoTick n s).video.framebuffer] := by
  have hlength : (framesOfTick n s).length = 1 := by
    have hcount := framesOfTick_length h n
    have hposition := framePosition_videoTick h n
    have hline := h.ly_eq
    have hline' := (videoTick_inv h n).ly_eq
    omega
  have hshape : VideoShape (s.addClock n).video := ⟨h.lyRange, h.vblankLines, h.framebuffer⟩
  unfold videoTick at hafter ⊢
  rw [compareLine_ly] at hafter
  rw [compareLine_framebuffer]
  rcases framesOfTransitions_getLast (transitionFuel n s) hshape hafter with hlast | ⟨hvblank, -, -⟩
  · obtain ⟨frame, hframe⟩ := List.length_eq_one_iff.mp hlength
    rw [framesOfTick] at hframe ⊢
    rw [hframe, List.getLast?_singleton] at hlast
    rw [hframe, Option.some.inj hlast]
  · exact absurd hvblank (Nat.not_le.mpr hbefore)

/-! ### The place in the frame along a run (R300, R448) -/

theorem SameHidden.framePosition_eq {s t : State} (h : SameHidden s t) : framePosition t.video = framePosition s.video := by
  rw [framePosition, h.ly, h.modeClock, h.mode]
  rfl

/-- What a step does to the video unit's hidden state: nothing at rest; else the tick of its cost, before and after which the CPU and
the timer leave it alone. -/
theorem step_videoTick {s t : State} (h : step s = .next t) :
    (stepTicks s = 0 ∧ stepFrames s = [] ∧ t.video = s.video) ∨
    ∃ u w, SameHidden s u ∧ w.video = u.video ∧ stepFrames s = framesOfTick (stepTicks s) w ∧
      SameHidden (videoTick (stepTicks s) w) t := by
  rcases step_cases h with ⟨hrest, rfl⟩ | ⟨hrunning, u, hu, rfl⟩
  · exact .inl ⟨stepTicks_atRest hrest, stepFrames_atRest hrest, rfl⟩
  · rw [stepTicks_of hu]
    exact .inr ⟨u, _, (cpuStep_stored hu).hidden, timerTick_video _ u, stepFrames_of hrunning hu, (dispatchPhase_stored _).hidden⟩

/-- A step keeps the video unit sound, moves the place by its clock ticks and shows one frame for each passage of line 144. -/
theorem step_framePosition {s t : State} (h : VideoInv s.video) (hstep : step s = .next t) :
    VideoInv t.video ∧ framePosition t.video = (framePosition s.video + stepTicks s) % 70224 ∧
      (stepFrames s).length + (framePosition s.video + 4560) / 70224 = (framePosition s.video + stepTicks s + 4560) / 70224 := by
  rcases step_videoTick hstep with ⟨hticks, hframes, hvideo⟩ | ⟨u, w, hcpu, hvideo, hframes, hend⟩
  · rw [hticks, hframes, hvideo]
    exact ⟨h, (Nat.mod_eq_of_lt h.framePosition_lt).symm, Nat.zero_add _⟩
  · have hw : VideoInv w.video := hvideo ▸ hcpu.videoInv h
    have hposition : framePosition w.video = framePosition s.video := by rw [hvideo, hcpu.framePosition_eq]
    rw [hend.framePosition_eq, hframes, ← hposition]
    exact ⟨hend.videoInv (videoTick_inv hw _), framePosition_videoTick hw _, framesOfTick_length hw _⟩

/-- Along a run: the place advances by the run's clock ticks, one frame for each passage of line 144. -/
theorem stepsFrom_framePosition (n : Nat) {s u : State} (h : VideoInv s.video) (hrun : stepsFrom n s = some u) :
    framePosition u.video = (framePosition s.video + runTicks n s) % 70224 ∧
      (runFrames n s).length + (framePosition s.video + 4560) / 70224 = (framePosition s.video + runTicks n s + 4560) / 70224 := by
  induction n generalizing s with
  | zero =>
    obtain rfl : s = u := Option.some.inj hrun
    exact ⟨(Nat.mod_eq_of_lt h.framePosition_lt).symm, Nat.zero_add _⟩
  | succ n ih =>
    obtain ⟨t, ht⟩ := everyStepAnswersNext s
    obtain ⟨hinv, hposition, hcount⟩ := step_framePosition h ht
    rw [stepsFrom_succ ht] at hrun
    obtain ⟨hrest, hcountRest⟩ := ih hinv hrun
    rw [runTicks_succ ht, runFrames_succ ht, List.length_append]
    constructor
    · rw [hrest, hposition, Nat.mod_add_mod, Nat.add_assoc]
    · omega

/-- A step of less than a frame that enters vertical-blank shows the framebuffer it leaves, and no other. -/
theorem stepFrames_of_entersVblank {s t : State} (h : VideoInv s.video) (hstep : step s = .next t)
    (hbefore : s.video.ly.toNat < 144) (hafter : 144 ≤ t.video.ly.toNat) (hticks : stepTicks s < 70224) :
    stepFrames s = [t.video.framebuffer] := by
  rcases step_videoTick hstep with ⟨-, -, hvideo⟩ | ⟨u, w, hcpu, hvideo, hframes, hend⟩
  · rw [hvideo] at hafter
    omega
  · have hw : VideoInv w.video := hvideo ▸ hcpu.videoInv h
    rw [← hcpu.ly, ← hvideo] at hbefore
    rw [hend.ly] at hafter
    rw [hframes, hend.framebuffer]
    exact framesOfTick_of_entersVblank hw hticks hbefore hafter

/-- Settles O43: ticks and runs by induction on their number, with `modeStart` for the count of frames; from reset the place is the
total alone, and it determines the line and the mode. -/
theorem frameTakes70224Ticks : Obligations.FrameTakes70224Ticks := by
  intro s ns h
  refine ⟨?_, fun n u hrun => stepsFrom_framePosition n h hrun, fun u hstep => stepFrames_of_entersVblank h hstep⟩
  intro t
  obtain ⟨hinv, hposition⟩ := videoTicks_framePosition ns h
  refine ⟨hinv, hposition, fun hreset => ?_⟩
  have htotal : framePosition t.video = ns.sum % 70224 := by
    rw [hposition, hreset, show framePosition Video.reset = 0 from rfl, Nat.zero_add]
  have hplace : ns.sum % 456 = framePosition t.video % 456 := by
    rw [htotal, Nat.mod_mod_of_dvd _ (by decide)]
  rw [hplace, ← htotal]
  exact ⟨hinv.ly_eq, hinv.mode_iff⟩

/-! ### The transitions (R385, R386) -/

/-- A request of class 1, by the stored enables: bit `b` here is `STAT[b + 3]` (R373, R386). -/
theorem statRequest_eq (b : Nat) (s : State) :
    statRequest (b + 3) s = if s.video.statEnable.getLsbD b then requestInterrupt .status s else s := rfl

theorem leaveMode_of_oamSearch {s : State} (h : s.video.mode = .oamSearch) :
    leaveMode s = { s with video := { s.video with mode := .pixelTransfer, modeClock := s.video.modeClock - 80 } } := by
  simp only [leaveMode, enterMode, h, modeDuration]

theorem leaveMode_of_pixelTransfer {s : State} (h : s.video.mode = .pixelTransfer) :
    leaveMode s = statRequest 3 { s with video :=
      { (renderScanline s s.video.ly.toNat).video with mode := .hblank, modeClock := s.video.modeClock - 172 } } := by
  simp only [leaveMode, enterMode, renderScanline, h, modeDuration]

/-- The last visible line ends in vertical-blank. -/
theorem leaveMode_of_hblank_last {s : State} (h : s.video.mode = .hblank) (hly : s.video.ly.toNat = 143) :
    leaveMode s = statRequest 4 (requestInterrupt .vblank
      { s with video := { s.video with ly := 144, mode := .vblank, modeClock := s.video.modeClock - 204 } }) := by
  have hnext : s.video.ly + 1 = 144 := BitVec.eq_of_toNat_eq (by rw [ly_succ (by omega), hly]; rfl)
  simp only [leaveMode, h, endHblank, hnext, if_true, enterMode, State.setLy, modeDuration]

/-- Another line in horizontal-blank ends in the next line's OAM-search. -/
theorem leaveMode_of_hblank_next {s : State} (h : s.video.mode = .hblank) (hrange : s.video.ly.toNat ≤ 153)
    (hly : s.video.ly.toNat ≠ 143) :
    leaveMode s = statRequest 5 { s with video :=
      { s.video with ly := s.video.ly + 1, mode := .oamSearch, modeClock := s.video.modeClock - 204 } } := by
  have hnext : s.video.ly + 1 ≠ 144 := by
    intro heq
    have hsucc := ly_succ hrange
    rw [heq] at hsucc
    exact hly (Nat.succ.inj hsucc).symm
  simp only [leaveMode, h, endHblank, if_neg hnext, enterMode, State.setLy, modeDuration]

theorem leaveMode_of_vblank_next {s : State} (h : s.video.mode = .vblank) (hly : s.video.ly.toNat < 153) :
    leaveMode s = { s with video := { s.video with ly := s.video.ly + 1, modeClock := s.video.modeClock - 456 } } := by
  simp only [leaveMode, h, endVblankLine, if_neg (show ¬ s.video.ly.toNat + 1 > 153 by omega), enterMode, State.setLy, modeDuration]

/-- The last line of vertical-blank ends in line 0. -/
theorem leaveMode_of_vblank_last {s : State} (h : s.video.mode = .vblank) (hly : s.video.ly.toNat = 153) :
    leaveMode s = statRequest 5 { s with video :=
      { s.video with ly := 0, mode := .oamSearch, modeClock := s.video.modeClock - 456 } } := by
  simp only [leaveMode, h, endVblankLine, if_pos (show s.video.ly.toNat + 1 > 153 by omega), enterMode, State.setLy, modeDuration]

theorem ofNat_toNat_succ (b : Byte) : BitVec.ofNat 8 (b.toNat + 1) = b + 1 := by
  rw [BitVec.ofNat_add, BitVec.ofNat_toNat, BitVec.setWidth_eq]
  rfl

/-- Settles O42: below the mode's duration there is no transition; from it on, `leaveMode` by mode and line. -/
theorem modeTransitions : Obligations.ModeTransitions := by
  intro s c hrange hc
  subst hc
  have stays {m : Mode} (hm : s.video.mode = m) (h : s.video.modeClock < modeDuration m) : transition s = none :=
    transition_of_lt (hm ▸ h)
  have leaves {m : Mode} (hm : s.video.mode = m) (h : modeDuration m ≤ s.video.modeClock) : transition s = some (leaveMode s) :=
    transition_of_ge (hm ▸ h)
  refine ⟨fun hm => ⟨stays hm, fun hge => ?_⟩, fun hm => ⟨stays hm, fun hge => ⟨_, rfl, ?_⟩⟩,
    fun hm => ⟨stays hm, fun hge hly => ⟨_, rfl, ?_⟩, fun hge hly => ⟨_, rfl, ?_⟩⟩,
    fun hm => ⟨stays hm, fun hge hly => ?_, fun hge hly => ⟨_, rfl, ?_⟩⟩⟩ <;> rw [leaves hm hge]
  · rw [leaveMode_of_oamSearch hm]
  · rw [leaveMode_of_pixelTransfer hm, statRequest_eq 0]
    rfl
  · rw [leaveMode_of_hblank_last hm hly, statRequest_eq 1, requestInterrupt_video]
  · rw [leaveMode_of_hblank_next hm hrange hly, statRequest_eq 2, ofNat_toNat_succ]
  · rw [leaveMode_of_vblank_next hm hly, ofNat_toNat_succ]
  · rw [leaveMode_of_vblank_last hm hly, statRequest_eq 2]

/-! ### The line compare (R387, R389) -/

@[simp] theorem compareLine_lyc (s : State) : (compareLine s).video.lyc = s.video.lyc := by
  unfold compareLine; simp only; split <;> simp

/-- A rising match with `STAT[6]` = 1 requests class 1. -/
theorem compareLine_of_rising {s : State} (hmatch : s.video.ly = s.video.lyc) (hrising : s.video.coincidence = false)
    (henabled : s.video.statEnable.getLsbD 3 = true) :
    compareLine s = { requestInterrupt .status s with video := { s.video with coincidence := true } } := by
  have hcondition : decide (s.video.ly = s.video.lyc) = true ∧ (!s.video.coincidence) = true := by simp [hmatch, hrising]
  rw [compareLine]
  dsimp only
  rw [if_pos hcondition, statRequest_eq 3, if_pos henabled, requestInterrupt_video, decide_eq_true hmatch]

/-- In every other case nothing is requested. -/
theorem compareLine_of_not_rising {s : State}
    (h : s.video.ly ≠ s.video.lyc ∨ s.video.coincidence = true ∨ s.video.statEnable.getLsbD 3 = false) :
    compareLine s = { s with video := { s.video with coincidence := decide (s.video.ly = s.video.lyc) } } := by
  have hrequest : (if decide (s.video.ly = s.video.lyc) = true ∧ (!s.video.coincidence) = true then statRequest 6 s else s) = s := by
    rw [statRequest_eq 3]
    rcases h with hmismatch | hstill | hdisabled
    · simp [hmismatch]
    · simp [hstill]
    · rw [hdisabled]
      simp
  rw [compareLine]
  dsimp only
  rw [hrequest]

/-- Settles O44: a tick is its transitions and then `CompareLine`, which moves neither LY nor LYC. -/
theorem lineCompareEndsEveryTick : Obligations.LineCompareEndsEveryTick := by
  intro s n
  refine ⟨?_, videoTick_zero, compareLine_of_rising, compareLine_of_not_rising⟩
  rw [← videoTick_video_lyc n s, videoTick, compareLine_coincidence, compareLine_ly, compareLine_lyc, decide_eq_true_iff]

/-! ### The rendered row (R391 to R394, R398, R399) -/

theorem State.pixel_eq (s : State) (y x : Nat) :
    s.pixel y x = s.cfg.shadeRgba.toArray.getD ((rowRead s.video.framebuffer y).getD x 0).toNat 0 := by
  have hlt : ((rowRead s.video.framebuffer y).getD x 0).toNat < s.cfg.shadeRgba.toArray.size := by
    rw [Vector.size_toArray]
    exact BitVec.isLt _
  rw [Array.getD, dif_pos hlt]
  rfl

theorem renderLine_getD (s : State) (ly : Nat) {x : Nat} (hx : x < 160) :
    (renderLine s ly).getD x 0 = linePixel s (selectSprites s ly) ly x := by
  rw [List.getD_eq_getElem _ _ (by rw [renderLine_length]; exact hx)]
  simp [renderLine]

/-- The row rendered holds the line's pixels. -/
theorem pixel_renderScanline {s : State} (h : framebufferWf s.video.framebuffer) (ly : Nat) {x : Nat} (hx : x < 160) :
    (renderScanline s ly).pixel ly x = s.cfg.shadeRgba.toArray.getD (linePixel s (selectSprites s ly) ly x).toNat 0 := by
  rw [State.pixel_eq, renderScanline]
  dsimp only
  rw [rowRead_rowWrite h.1, if_pos rfl, renderLine_getD s ly hx]

/-- The other rows are as before. -/
theorem pixel_renderScanline_other {s : State} (h : framebufferWf s.video.framebuffer) {ly y : Nat} (hy : y ≠ ly) (x : Nat) :
    (renderScanline s ly).pixel y x = s.pixel y x := by
  rw [State.pixel_eq, State.pixel_eq, renderScanline]
  dsimp only
  rw [rowRead_rowWrite h.1, if_neg hy]

/-! ### The background and the window (R372, R393) -/

theorem inWindow_iff (v : Video) (ly x : Nat) :
    inWindow v ly x = true ↔ v.lcdc.getLsbD 5 = true ∧ v.wy.toNat ≤ ly ∧ v.wx.toNat ≤ x + 7 := by
  rw [inWindow, Bool.and_eq_true, Bool.and_eq_true, decide_eq_true_iff, decide_eq_true_iff, and_assoc]

theorem mapBase_le (v : Video) (k : Nat) : mapBase v k ≤ 0x1C00 := by
  unfold mapBase
  split <;> decide

/-- The map, column and row of a background pixel: the window's where it covers the pixel, else the scrolled background's. -/
def mapPlace (v : Video) (ly x : Nat) : Nat × Nat × Nat :=
  if inWindow v ly x then (mapBase v 6, x + 7 - v.wx.toNat, ly - v.wy.toNat)
  else (mapBase v 3, (x + v.scx.toNat) % 256, (ly + v.scy.toNat) % 256)

/-- The place as R393 words it. -/
theorem mapPlace_eq (v : Video) (ly x : Nat) :
    mapPlace v ly x = if v.lcdc.getLsbD 5 = true ∧ v.wy.toNat ≤ ly ∧ v.wx.toNat ≤ x + 7 then
        (if v.lcdc.getLsbD 6 then 0x1C00 else 0x1800, x + 7 - v.wx.toNat, ly - v.wy.toNat)
      else (if v.lcdc.getLsbD 3 then 0x1C00 else 0x1800, (x + v.scx.toNat) % 256, (ly + v.scy.toNat) % 256) :=
  if_congr (inWindow_iff v ly x) rfl rfl

/-- Every place a visible pixel leads to lies in a map of 32 by 32 tiles. -/
theorem mapPlace_bounds (v : Video) {ly x map px py : Nat} (hly : ly < 144) (hx : x < 160) (h : (map, px, py) = mapPlace v ly x) :
    map ≤ 0x1C00 ∧ px < 256 ∧ py < 256 := by
  unfold mapPlace at h
  split at h <;> obtain ⟨rfl, rfl, rfl⟩ : map = _ ∧ px = _ ∧ py = _ := by simpa only [Prod.mk.injEq] using h
  · exact ⟨mapBase_le v 6, by omega, by omega⟩
  · exact ⟨mapBase_le v 3, by omega, by omega⟩

/-- With LCDC[0] = 1 the index is the pixel of the map at that place. -/
theorem backgroundIndex_of_enabled {s : State} {ly x map px py : Nat} (hon : s.video.lcdc.getLsbD 0 = true)
    (h : (map, px, py) = mapPlace s.video ly x) : backgroundIndex s ly x = mapPixel s map px py := by
  rw [backgroundIndex, hon]
  unfold mapPlace at h
  split at h <;> next hwindow =>
    obtain ⟨rfl, rfl, rfl⟩ : map = _ ∧ px = _ ∧ py = _ := by simpa only [Prod.mk.injEq] using h
    simp [hwindow]

/-- The tile base by the number that R393 gives, unsigned or signed. -/
theorem tileBase_eq (v : Video) (tile : Byte) {base : Nat}
    (h : (base : Int) = if v.lcdc.getLsbD 4 then (tile.toNat : Int) * 16 else 0x1000 + tile.toInt * 16) : tileBase v tile = base := by
  unfold tileBase signed8
  by_cases hunsigned : v.lcdc.getLsbD 4 = true
  · rw [if_pos hunsigned] at h ⊢
    omega
  · rw [if_neg hunsigned] at h ⊢
    omega

/-- Both tile bases lie within VRAM. -/
theorem tileBase_le (v : Video) (tile : Byte) : tileBase v tile ≤ 0x17F0 := by
  have hunsigned := tile.isLt
  have hsigned := BitVec.toInt_lt (x := tile)
  unfold tileBase signed8
  split <;> omega

/-- A map pixel is the pixel, read through the bus, of the tile that the map names. -/
theorem mapPixel_is (s : State) {map px py base : Nat} {tile : Byte} (hmap : map ≤ 0x1C00) (hpx : px < 256) (hpy : py < 256)
    (htile : tile = readByte s (BitVec.ofNat 16 (0x8000 + (map + py / 8 * 32 + px / 8))))
    (hbase : tileBase s.video tile = base) : TilePixelIs s base (py % 8) (px % 8) (mapPixel s map px py) := by
  rw [mapPixel, vramByte_eq s (by omega), ← htile, hbase]
  have hle := tileBase_le s.video tile
  exact tilePixel_is s _ (by omega)

theorem background_of_disabled {s : State} (hoff : s.video.lcdc.getLsbD 0 = false) (ly x : Nat) :
    backgroundIndex s ly x = 0 ∧ backgroundShade s ly x = 0 := by
  rw [backgroundShade, backgroundIndex, hoff]
  exact ⟨rfl, rfl⟩

theorem backgroundShade_of_enabled {s : State} (hon : s.video.lcdc.getLsbD 0 = true) (ly x : Nat) :
    backgroundShade s ly x = shadeOf s.video.bgp (backgroundIndex s ly x) := by
  rw [backgroundShade, hon]
  rfl

/-- Settles O45: one row of the canonical framebuffer is replaced; a pixel of it is `linePixel`, its background `mapPixel` at
`mapPlace`. -/
theorem renderingWritesOneRow : Obligations.RenderingWritesOneRow := by
  intro s ly hfb hly v t
  refine ⟨rfl, rowWrite_wf hfb hly (renderLine_length s ly), fun y x hy => pixel_renderScanline_other hfb hy x, fun x hx =>
    ⟨pixel_renderScanline hfb ly hx, fun hoff => background_of_disabled hoff ly x, fun hon => ⟨?_, ?_⟩⟩⟩
  · rw [backgroundShade_of_enabled hon]
    exact shadeOf_is _ _
  · intro map px py base tile hplace htile hbase
    have hplace' : (map, px, py) = mapPlace s.video ly x := hplace.trans (mapPlace_eq s.video ly x).symm
    obtain ⟨hmap, hpx, hpy⟩ := mapPlace_bounds s.video hly hx hplace'
    rw [backgroundIndex_of_enabled hon hplace']
    exact mapPixel_is s hmap hpx hpy htile (tileBase_eq s.video tile hbase)

/-! ### The sprites of a line (R396) -/

/-- Among the first `k` of the numbers below `n` that satisfy `p`: fewer than `k` smaller ones do. -/
theorem mem_take_filter_range (p : Nat → Bool) (k i n : Nat) :
    i ∈ ((List.range n).filter p).take k ↔ i < n ∧ p i = true ∧ ((List.range i).filter p).length < k := by
  induction n with
  | zero => simp
  | succ n ih =>
    have hlast : i ∈ ([n].filter p).take (k - ((List.range n).filter p).length) ↔
        i = n ∧ p i = true ∧ ((List.range i).filter p).length < k := by
      cases hp : p n
      · rw [List.filter_cons_of_neg (by simp [hp]), List.filter_nil, List.take_nil]
        exact ⟨nofun, fun ⟨hi, hpi, _⟩ => absurd (hi ▸ hpi) (by simp [hp])⟩
      · rw [List.filter_cons_of_pos hp, List.filter_nil]
        constructor
        · intro hmem
          obtain rfl : i = n := List.mem_singleton.mp (List.mem_of_mem_take hmem)
          have := List.length_pos_of_mem hmem
          rw [List.length_take] at this
          exact ⟨rfl, hp, by omega⟩
        · rintro ⟨rfl, -, hlt⟩
          rw [List.take_of_length_le (by rw [List.length_singleton]; omega)]
          exact List.mem_singleton_self i
    rw [List.range_succ, List.filter_append, List.take_append, List.mem_append, ih, hlast, ← or_and_right,
      Nat.lt_succ_iff_lt_or_eq]

theorem selectSprites_sublist (s : State) (ly : Nat) : List.Sublist (selectSprites s ly) (List.range 40) := by
  unfold selectSprites
  split
  · exact (List.take_sublist ..).trans List.filter_sublist
  · exact List.nil_sublist _

theorem selectSprites_length_le (s : State) (ly : Nat) : (selectSprites s ly).length ≤ 10 := by
  unfold selectSprites
  split
  · exact List.length_take_le ..
  · exact Nat.zero_le _

theorem spriteOnLine_iff (s : State) (ly i : Nat) :
    spriteOnLine s ly i = true ↔
      ((oamByte s (4 * i)).toNat : Int) - 16 ≤ ly ∧
        (ly : Int) < ((oamByte s (4 * i)).toNat : Int) - 16 + (if s.video.lcdc.getLsbD 2 then 16 else 8) := by
  rw [spriteOnLine, Bool.and_eq_true, decide_eq_true_iff, decide_eq_true_iff, spriteTop, spriteHeight, Nat.cast_ite]
  rfl

/-- Settles O46: the selection is the first ten of the filtered table, in the table's rising order. -/
theorem tenFirstSpritesAreSelected : Obligations.TenFirstSpritesAreSelected := by
  intro s ly
  refine ⟨fun hoff => ?_, selectSprites_length_le s ly, List.pairwise_lt_range.sublist (selectSprites_sublist s ly), fun hon i => ?_⟩
  · rw [selectSprites, hoff]
    rfl
  · rw [selectSprites, if_pos hon, mem_take_filter_range, spriteOnLine_iff, and_assoc]

/-! ### The sprite that decides a pixel (R397) -/

/-- Sprites whose pixel has index 0 are skipped. -/
theorem spritePixel_append_of_transparent {s : State} {ly x : Nat} {before : List Nat} (bgci : Shade) (rest : List Nat)
    (h : ∀ j ∈ before, spriteIndex s ly x j = 0) :
    spritePixel s ly x bgci (before ++ rest) = spritePixel s ly x bgci rest := by
  induction before with
  | nil => rfl
  | cons j before ih =>
    obtain ⟨hj, hbefore⟩ := List.forall_mem_cons.mp h
    rw [List.cons_append, spritePixel, if_pos hj, ih hbefore]

theorem spritePixel_of_transparent {s : State} {ly x : Nat} {sprites : List Nat} (bgci : Shade)
    (h : ∀ j ∈ sprites, spriteIndex s ly x j = 0) : spritePixel s ly x bgci sprites = none := by
  rw [← List.append_nil sprites, spritePixel_append_of_transparent bgci [] h]
  rfl

/-- An entry has index 0 outside its eight columns. -/
theorem spriteIndex_of_outside {s : State} {ly x i : Nat}
    (h : x + 8 < (oamByte s (4 * i + 1)).toNat ∨ (oamByte s (4 * i + 1)).toNat ≤ x) : spriteIndex s ly x i = 0 := by
  refine if_neg ?_
  unfold spriteLeft
  omega

/-- The tile of an entry: a 16-row sprite takes the pair of tiles with an even first number (R397). -/
def spriteTile (s : State) (i : Nat) : Byte :=
  if s.video.lcdc.getLsbD 2 then oamByte s (4 * i + 2) &&& 0xFE else oamByte s (4 * i + 2)

theorem and_xFE_toNat : ∀ t : Byte, (t &&& 0xFE).toNat = t.toNat / 2 * 2 := by decide

/-- The height of an entry and the number of its tile, by LCDC[2]. -/
theorem spriteHeight_spriteTile (s : State) (i : Nat) :
    (if s.video.lcdc.getLsbD 2 then (16, (oamByte s (4 * i + 2)).toNat / 2 * 2) else (8, (oamByte s (4 * i + 2)).toNat)) =
      (spriteHeight s.video, (spriteTile s i).toNat) := by
  unfold spriteHeight spriteTile
  split
  · rw [and_xFE_toNat]
  · rfl

/-- The rows of an entry's tiles lie in the lower tile block of VRAM. -/
theorem spriteTile_row_lt (s : State) (i : Nat) {r : Nat} (hr : r < spriteHeight s.video) :
    (spriteTile s i).toNat * 16 + 2 * r + 1 < 0x2000 := by
  have htile := (spriteTile s i).isLt
  have hheight : spriteHeight s.video ≤ 16 := by unfold spriteHeight; split <;> decide
  omega

/-- On its columns, an entry has the flipped pixel of its tile (R397). -/
theorem spriteIndex_of_inside {s : State} {ly x i dx dy : Nat} (hx : x + 8 = (oamByte s (4 * i + 1)).toNat + dx) (hdx : dx < 8)
    (hy : ly + 16 = (oamByte s (4 * i)).toNat + dy) :
    spriteIndex s ly x i = tilePixel s ((spriteTile s i).toNat * 16)
      (if (oamByte s (4 * i + 3)).getLsbD 6 then spriteHeight s.video - 1 - dy else dy)
      (if (oamByte s (4 * i + 3)).getLsbD 5 then 7 - dx else dx) := by
  have hcolumn : ((x : Int) - spriteLeft s i).toNat = dx := by unfold spriteLeft; omega
  have hrow : ((ly : Int) - spriteTop s i).toNat = dy := by unfold spriteTop; omega
  have hinside : spriteLeft s i ≤ (x : Int) ∧ (x : Int) < spriteLeft s i + 8 := by unfold spriteLeft; omega
  rw [spriteIndex]
  dsimp only
  rw [if_pos hinside, hcolumn, hrow]
  rfl

theorem spritePalette_eq (s : State) (i : Nat) :
    spritePalette s i = if (oamByte s (4 * i + 3)).getLsbD 4 then s.video.obp1 else s.video.obp0 := rfl

/-- Settles O47: skipping the transparent sprites before it, the entry's own pixel decides; its index is the tile's pixel. -/
theorem firstOpaqueSpriteDecides : Obligations.FirstOpaqueSpriteDecides := by
  intro s ly x bgci before after i y left tile f index pixel
  refine ⟨fun hbefore => ?_, fun k hk hi => oamByte_eq s (by omega), spriteIndex_of_outside, ?_⟩
  · have hpixel : pixel = spritePixel s ly x bgci (i :: after) := spritePixel_append_of_transparent bgci _ hbefore
    rw [hpixel]
    refine ⟨fun hafter hindex => ?_, fun hindex hbehind => ?_, fun hindex hfront => ?_⟩
    · exact spritePixel_of_transparent bgci (List.forall_mem_cons.mpr ⟨hindex, hafter⟩)
    · rw [spritePixel, if_neg hindex, if_pos hbehind]
    · rw [spritePixel, if_neg hindex, if_neg hfront]
      exact ⟨_, rfl, shadeOf_is _ _⟩
  · intro h t dx dy hsize hdx hx hdy hy
    obtain ⟨rfl, rfl⟩ := Prod.mk.inj (hsize.trans (spriteHeight_spriteTile s i))
    have hindex : index = _ := spriteIndex_of_inside hx hdx hy
    rw [hindex]
    refine tilePixel_is s _ (spriteTile_row_lt s i ?_)
    split <;> omega

/-! ### The OAM copy (R378) -/

theorem writeByte_dma (s : State) (v : Byte) :
    writeByte s 0xFF46 v = oamCopy v { s with video := { s.video with dma := v } } := rfl

/-- The copy is not seen outside OAM. -/
theorem readByte_oamCopy_other {s : State} (hs : Memory.wf s.mem) (v : Byte) {a : Word} (ha : a.toNat < 0xFE00 ∨ 0xFEA0 ≤ a.toNat) :
    readByte (oamCopy v s) a = readByte s a := by
  rw [oamCopy_eq]
  refine readByte_mem s _ a fun k hk => ?_
  have houtside : ¬ (oamBase ≤ k ∧ k < oamBase + 160) := by
    unfold oamBase
    rcases readsKey_range hk with ⟨hkey, -⟩ | ⟨-, -, hecho⟩ <;> omega
  rw [memRead_oamCopy hs, if_neg houtside]

/-- Byte `i` of OAM after the copy is byte `i` of the page before it. -/
theorem readByte_oamCopy {s : State} (hs : Memory.wf s.mem) (v : Byte) {i : Nat} (hi : i < 160) :
    readByte (oamCopy v s) (BitVec.ofNat 16 (0xFE00 + i)) = readByte s (BitVec.ofNat 16 (v.toNat * 256 + i)) := by
  have hpage : v.toNat * 256 + i < 65536 := by
    have := v.isLt
    omega
  have hsource : join v 0 + BitVec.ofNat 16 i = BitVec.ofNat 16 (v.toNat * 256 + i) :=
    BitVec.eq_of_toNat_eq (by rw [oamSource_toNat v hi, BitVec.toNat_ofNat, Nat.mod_eq_of_lt hpage])
  have hinside : oamBase ≤ 0xFE00 + i ∧ 0xFE00 + i < oamBase + 160 := by
    unfold oamBase
    omega
  rw [readByte_stored _ (.inr (by omega)), memRead_oamCopy hs, if_pos hinside, show 0xFE00 + i - oamBase = i from
    Nat.add_sub_cancel_left .., hsource]

/-- Settles O48: the write is the copy, run after DMA took `v`; the copy is seen in OAM alone. -/
theorem dmaWriteCopiesAPageToOam : Obligations.DmaWriteCopiesAPageToOam := by
  intro s v hs s' t
  have hs' : Memory.wf s'.mem := hs
  have ht : t = oamCopy v s' := writeByte_dma s v
  rw [ht]
  exact ⟨oamCopy_eq v s', readByte_oamCopy_other hs' v (.inr (by decide)), fun i hi => readByte_oamCopy hs' v hi,
    fun a ha => readByte_oamCopy_other hs' v ha⟩

end Sys2Proof.Machine
